-- ==== Sys2Proof/Word.lean ====
section
/-!
DEFINITION. The bit vectors of the block, under the names the spec uses (00_scope.md R4, section 6).
-/
namespace Sys2Proof

/-- A byte sent to the controller or held in the string memory. -/
abbrev Byte := BitVec 8

/-- Half of a byte, one nibble write. -/
abbrev Nibble := BitVec 4

/-- A register-select level: 0 a command, 1 a character (R56). -/
abbrev Rs := BitVec 1

/-- A delay magnitude in microseconds, DLY_W = 19 bits (R4, R100). -/
abbrev Delay := BitVec 19

/-- A pin number, log2(NPINS) = 5 bits (R137). -/
abbrev PinNum := BitVec 5

/-- One bit per pin, NPINS = 32 bits: the pin register, the output enables and the pin masks (R33). -/
abbrev PinWord := BitVec 32

/-- A command word, CW_W = 32 bits (R4). -/
abbrev CmdWord := BitVec 32

/-- A request word, 35 bits (R45). -/
abbrev ReqWord := BitVec 35

/-- A string-memory address, STR_AW = 32 bits (R31). -/
abbrev StrAddr := BitVec 32

end Sys2Proof
end

