-- ==== Sys2Proof/Machine/Memory.lean ====
section
/-!
DEFINITION. The string memory StrMem (R30, R31): a total function from 32-bit addresses to bytes, held as a list of
(address, byte) cells with strictly rising addresses below 2^32 and no cell equal to what an unlisted address reads as.
-/
namespace Sys2Proof.Machine

abbrev Memory := List Host.Cell

/-- DESIGN CHOICE, log 9: an unlisted address reads as 0x00. Every total function of R30 has a list, since every address
can be listed. -/
def Memory.unlisted : Byte := 0x00

/-- The number of string-memory addresses (R31). -/
def Memory.size : Nat := 2 ^ 32

/-- The byte at an address. -/
def Memory.read (m : Memory) (a : Nat) : Byte :=
  match m with
  | [] => Memory.unlisted
  | c :: rest => if c.1 = a then c.2 else Memory.read rest a

/-- The cell of `a` put in its place, or taken out if it says what an unlisted address reads as. -/
def Memory.write (m : Memory) (a : Nat) (b : Byte) : Memory :=
  match m with
  | [] => if b = Memory.unlisted then [] else [(a, b)]
  | c :: rest =>
    if c.1 < a then c :: Memory.write rest a b
    else if c.1 = a then (if b = Memory.unlisted then rest else (a, b) :: rest)
    else (if b = Memory.unlisted then c :: rest else (a, b) :: c :: rest)

/-- The canonical form, every address at or above `lo`. -/
def Memory.wfFrom (lo : Nat) : Memory → Bool
  | [] => true
  | c :: rest => decide (lo ≤ c.1) && decide (c.1 < Memory.size) && !decide (c.2 = Memory.unlisted)
      && Memory.wfFrom (c.1 + 1) rest

/-- The canonical form. -/
def Memory.wf (m : Memory) : Bool := Memory.wfFrom 0 m

end Sys2Proof.Machine
end

