-- ==== Sys2Proof/Config.lean ====
section
/-!
DEFINITION. What construction fixes (R2, R11, R135 of spec/) and the free values: constants with no body, of which
nothing can be proved (R18, U20; log 11 and log 13).
-/
namespace Sys2Proof

/-- The two backends, "all-CPU or all-sequencer from construction" (R2). -/
inductive Backend where
  | direct
  | seq
deriving DecidableEq, Repr

/-- The PinSet: six pin numbers (R11). `d i` carries bit `i` of a nibble. -/
structure PinSet where
  e  : PinNum
  rs : PinNum
  d0 : PinNum
  d1 : PinNum
  d2 : PinNum
  d3 : PinNum
deriving DecidableEq, Repr

/-- What is fixed before reset is released and never written afterwards (R135). -/
structure Configuration where
  backend : Backend
  pins    : PinSet
  qdepth  : Nat
deriving DecidableEq, Repr

/-- The pin set PS-A of 95_test_vectors.md. -/
def PinSet.psA : PinSet := { e := 21, rs := 20, d0 := 16, d1 := 17, d2 := 18, d3 := 19 }

/-- The pin set PS-B of 95_test_vectors.md. -/
def PinSet.psB : PinSet := { e := 10, rs := 3, d0 := 7, d1 := 5, d2 := 12, d3 := 0 }

/-- The pin set PS-C of 95_test_vectors.md. -/
def PinSet.psC : PinSet := { e := 2, rs := 7, d0 := 3, d1 := 4, d2 := 5, d3 := 6 }

/-- DESIGN CHOICE (backend, pins) and PRESUMED (QDEPTH = 4, G4), log 1: the configuration of `State.reset`. The spec
leaves all three open (R4); every statement quantifies over `State.cfg`. Unsafe only for a claim about `State.reset`
itself. -/
def Configuration.standard : Configuration := { backend := .seq, pins := .psA, qdepth := 4 }

/-- DESIGN CHOICE, log 11. Free value: what the `n`-th `LoadProgram()` returns (R18: opaque, never interpreted). -/
opaque Config.freeProgOffset : Nat → Nat

/-- DESIGN CHOICE, log 11. Free value: what the `n`-th `AcquireUnit()` returns (R18: opaque, never interpreted). -/
opaque Config.freeUnitHandle : Nat → Nat

/-- DESIGN CHOICE, log 13. Free value: the delay of a wake nibble in an INIT step other than 1, 2, 3, where R66 states
none. -/
opaque Config.freeWakeDelay : BitVec 4 → Delay

end Sys2Proof
end

