-- ==== Sys2Proof/Syntax.lean ====
section
/-!
DEFINITION. The instructions: one constructor per row of spec/opcode_table.json. "Instruction" is a request, a command
word or one of its segments, a transport operation, or a value sent to the controller (00_scope.md section 1.1).
Operands are the fields the spec reads; ignored bits (R49, R55) are no operands (log 24).
-/
namespace Sys2Proof

inductive Instr where
  -- requests (R46)
  | init
  | clear
  | home
  | position (row col : Byte)
  | writeString (ptr : StrAddr)
  | reserved5
  | reserved6
  | reserved7
  -- command words (R52 to R55)
  | cwNibble (rs : Rs) (v : Nibble) (d : Delay)
  | cwByte (rsHigh : Rs) (high : Nibble) (rsLow : Rs) (low : Nibble) (d : Delay)
  | cwDelayOnly (d : Delay)
  | cwMalformed (w : CmdWord)
  -- segments (R50, R51)
  | segWrite (rs : Rs) (v : Nibble)
  | segDelay (d : Delay)
  -- transport operations (R85, R90, R97, R98)
  | writeNibble (rs : Rs) (v : Nibble) (d : Delay)
  | writeByte (rs : Rs) (b : Byte) (d : Delay)
  -- values sent to the controller (R56)
  | outFunctionSet
  | outDisplayControl
  | outEntryMode
  | outClear
  | outHome
  | outSetDdramAddr (a : BitVec 7)
  | outData (c : Byte)
  | outWakeNibble
  | outMode4Nibble
deriving DecidableEq, Repr

end Sys2Proof
end

