-- ==== Sys2Proof/WellFormed.lean ====
section
/-!
DEFINITION. Which terms of Instr stand for an encoding. Every operand is as wide as its field, so the only terms that
stand for none are malformed command words without the three markers that make a word malformed (R55 b, R109).
-/
namespace Sys2Proof

/-- The write marker of the first segment, bit 0. -/
def firstMarker (w : CmdWord) : Bool := w.getLsbD 0

/-- The write marker of the second segment, bit 6. -/
def secondMarker (w : CmdWord) : Bool := w.getLsbD 6

/-- The write marker of a third segment, bit 12. -/
def thirdMarker (w : CmdWord) : Bool := w.getLsbD 12

/-- Three or more write segments: bits 0, 6 and 12 all 1 (R55 b). -/
def isMalformed (w : CmdWord) : Bool := firstMarker w && secondMarker w && thirdMarker w

def Instr.wellFormed : Instr → Bool
  | .cwMalformed w => isMalformed w
  | .init | .clear | .home | .position _ _ | .writeString _ | .reserved5 | .reserved6 | .reserved7
  | .cwNibble _ _ _ | .cwByte _ _ _ _ _ | .cwDelayOnly _ | .segWrite _ _ | .segDelay _
  | .writeNibble _ _ _ | .writeByte _ _ _
  | .outFunctionSet | .outDisplayControl | .outEntryMode | .outClear | .outHome | .outSetDdramAddr _ | .outData _
  | .outWakeNibble | .outMode4Nibble => true

/-- The instruction stands for an encoding. -/
abbrev WellFormed (i : Instr) : Prop := i.wellFormed = true

end Sys2Proof
end

