-- ==== Sys2Proof/Decode.lean ====
section
/-!
DEFINITION. The decoders, one per format of spec/opcode_table.json, and the encoder. A word is read by the agent that
fetches it in the format of the place it stands in (the request port, the queue, the shift register, the latches, the
value to send): no mode bit changes a decoding (R45, R54).
-/
namespace Sys2Proof

/-- A fetched word, tagged with its format (column "format" of opcode_table.json). -/
inductive FetchWord where
  | req   (w : ReqWord)
  | cw    (w : CmdWord)
  | seg6  (w : BitVec 6)
  | seg20 (w : BitVec 20)
  | top24 (w : BitVec 24)
  | top28 (w : BitVec 28)
  | out8  (w : BitVec 9)
  | out4  (w : BitVec 5)
deriving DecidableEq, Repr

/-- Why a word is no instruction of its format. -/
inductive DecodeError where
  /-- A 6-bit segment whose marker is 0 (R50). -/
  | writeMarkerClear
  /-- A 20-bit segment whose marker is 1 (R51). -/
  | delayMarkerSet
  /-- A command byte the block never sends (R56: "any other command byte"). -/
  | byteNeverSent
  /-- A lone nibble the block never sends (R56). -/
  | nibbleNeverSent
deriving DecidableEq, Repr

/-- What a decoder answers. -/
inductive Decoded where
  | ok (i : Instr)
  | rejected (e : DecodeError)
deriving DecidableEq, Repr

/-- R45 to R49: `op` in bits [34:32], `arg` in bits [31:0]; every word is a request. -/
def decodeRequest (w : ReqWord) : Instr :=
  match (w.extractLsb' 32 3).toNat with
  | 0 => .init
  | 1 => .clear
  | 2 => .home
  | 3 => .position (w.extractLsb' 8 8) (w.extractLsb' 0 8)
  | 4 => .writeString (w.extractLsb' 0 32)
  | 5 => .reserved5
  | 6 => .reserved6
  | _ => .reserved7

/-- R54, R55, R101: the markers at bits 0, 6 and 12 give the shape; every word has one. -/
def decodeCommandWord (w : CmdWord) : Instr :=
  if firstMarker w then
    if secondMarker w then
      if thirdMarker w then .cwMalformed w
      else .cwByte (w.extractLsb' 5 1) (w.extractLsb' 1 4) (w.extractLsb' 11 1) (w.extractLsb' 7 4)
        (w.extractLsb' 13 19)
    else .cwNibble (w.extractLsb' 5 1) (w.extractLsb' 1 4) (w.extractLsb' 7 19)
  else .cwDelayOnly (w.extractLsb' 1 19)

/-- R50: `seg[5] = rs`, `seg[4:1] = v`, `seg[0] = 1`. -/
def decodeWriteSegment (w : BitVec 6) : Decoded :=
  if w.getLsbD 0 then .ok (.segWrite (w.extractLsb' 5 1) (w.extractLsb' 1 4)) else .rejected .writeMarkerClear

/-- R51: `seg[19:1] = d`, `seg[0] = 0`. -/
def decodeDelaySegment (w : BitVec 20) : Decoded :=
  if w.getLsbD 0 then .rejected .delayMarkerSet else .ok (.segDelay (w.extractLsb' 1 19))

/-- Row write_nibble of opcode_table.json: the latches `t_rs ++ t_val[3:0] ++ t_dly` (R14). -/
def decodeNibbleOp (w : BitVec 24) : Instr :=
  .writeNibble (w.extractLsb' 23 1) (w.extractLsb' 19 4) (w.extractLsb' 0 19)

/-- Row write_byte of opcode_table.json: the latches `t_rs ++ t_val ++ t_dly` (R14). -/
def decodeByteOp (w : BitVec 28) : Instr :=
  .writeByte (w.extractLsb' 27 1) (w.extractLsb' 19 8) (w.extractLsb' 0 19)

/-- R56, the bytes: bit 8 is the register select; with it 1 a character, with it 0 one of six commands. -/
def decodeOutByte (w : BitVec 9) : Decoded :=
  if w.getLsbD 8 then .ok (.outData (w.extractLsb' 0 8))
  else if w.getLsbD 7 then .ok (.outSetDdramAddr (w.extractLsb' 0 7))
  else if w = 0x28#9 then .ok .outFunctionSet
  else if w = 0x0C#9 then .ok .outDisplayControl
  else if w = 0x06#9 then .ok .outEntryMode
  else if w = 0x01#9 then .ok .outClear
  else if w = 0x02#9 then .ok .outHome
  else .rejected .byteNeverSent

/-- R56, the lone nibbles: 0x3 and 0x2 with register select 0. -/
def decodeOutNibble (w : BitVec 5) : Decoded :=
  if w = 0x03#5 then .ok .outWakeNibble
  else if w = 0x02#5 then .ok .outMode4Nibble
  else .rejected .nibbleNeverSent

/-- Every fetched word decodes to an instruction or is rejected by name. -/
def decode : FetchWord → Decoded
  | .req w   => .ok (decodeRequest w)
  | .cw w    => .ok (decodeCommandWord w)
  | .seg6 w  => decodeWriteSegment w
  | .seg20 w => decodeDelaySegment w
  | .top24 w => .ok (decodeNibbleOp w)
  | .top28 w => .ok (decodeByteOp w)
  | .out8 w  => decodeOutByte w
  | .out4 w  => decodeOutNibble w

/-- A request word: `op` in bits [34:32], `arg` in bits [31:0] (R45). -/
def requestWord (op : BitVec 3) (arg : BitVec 32) : ReqWord := op.setWidth 35 <<< 32 ||| arg.setWidth 35

/-- The word of an instruction: every field of the tables of 30_encoding.md and opcode_table.json in its place, the markers
set, ignored bits 0. -/
def encode : Instr → FetchWord
  | .init            => .req (requestWord 0 0)
  | .clear           => .req (requestWord 1 0)
  | .home            => .req (requestWord 2 0)
  | .position row col => .req (requestWord 3 (row.setWidth 32 <<< 8 ||| col.setWidth 32))
  | .writeString ptr => .req (requestWord 4 ptr)
  | .reserved5       => .req (requestWord 5 0)
  | .reserved6       => .req (requestWord 6 0)
  | .reserved7       => .req (requestWord 7 0)
  | .cwNibble rs v d => .cw (d.setWidth 32 <<< 7 ||| rs.setWidth 32 <<< 5 ||| v.setWidth 32 <<< 1 ||| 1#32)
  | .cwByte rh h rl l d => .cw (d.setWidth 32 <<< 13 ||| rl.setWidth 32 <<< 11 ||| l.setWidth 32 <<< 7 ||| 1#32 <<< 6
      ||| rh.setWidth 32 <<< 5 ||| h.setWidth 32 <<< 1 ||| 1#32)
  | .cwDelayOnly d   => .cw (d.setWidth 32 <<< 1)
  | .cwMalformed w   => .cw w
  | .segWrite rs v   => .seg6 (rs.setWidth 6 <<< 5 ||| v.setWidth 6 <<< 1 ||| 1#6)
  | .segDelay d      => .seg20 (d.setWidth 20 <<< 1)
  | .writeNibble rs v d => .top24 (rs.setWidth 24 <<< 23 ||| v.setWidth 24 <<< 19 ||| d.setWidth 24)
  | .writeByte rs b d => .top28 (rs.setWidth 28 <<< 27 ||| b.setWidth 28 <<< 19 ||| d.setWidth 28)
  | .outFunctionSet  => .out8 0x28#9
  | .outDisplayControl => .out8 0x0C#9
  | .outEntryMode    => .out8 0x06#9
  | .outClear        => .out8 0x01#9
  | .outHome         => .out8 0x02#9
  | .outSetDdramAddr a => .out8 (0x080#9 ||| a.setWidth 9)
  | .outData c       => .out8 (0x100#9 ||| c.setWidth 9)
  | .outWakeNibble   => .out4 0x03#5
  | .outMode4Nibble  => .out4 0x02#5

/-- The instruction of a decoded word, none where it is rejected. -/
def Decoded.toOption : Decoded → Option Instr
  | .ok i => some i
  | .rejected _ => none

/-- DESIGN CHOICE, log 19. Which format a bare word of `nbits` bits is read in, for the host's two questions only: the
table's rows of one width share it without a mark (SEG_WRITE and OUT4 in 8 bits, SEG_DELAY and write_nibble in 24,
command words and write_byte in 32), and here the row whose fixed bits match is taken. The step never asks this: each
agent knows the format of the place it fetches from. -/
def tableFetchWord (nbits w : Nat) : Option FetchWord :=
  match nbits with
  | 5  => some (.out4 (BitVec.ofNat 5 w))
  | 6  => some (.seg6 (BitVec.ofNat 6 w))
  | 8  =>
    if w = 2 ∨ w = 3 then some (.out4 (BitVec.ofNat 5 w))
    else if w % 2 = 0 then some (.seg20 (BitVec.ofNat 20 w))
    else if w < 64 then some (.seg6 (BitVec.ofNat 6 w))
    else some (.cw (BitVec.ofNat 32 w))
  | 9  => some (.out8 (BitVec.ofNat 9 w))
  | 16 =>
    if w < 512 ∧ (decodeOutByte (BitVec.ofNat 9 w)).toOption.isSome then some (.out8 (BitVec.ofNat 9 w))
    else some (.cw (BitVec.ofNat 32 w))
  | 20 => some (.seg20 (BitVec.ofNat 20 w))
  | 24 =>
    if w < 2 ^ 20 ∧ w % 2 = 0 then some (.seg20 (BitVec.ofNat 20 w)) else some (.top24 (BitVec.ofNat 24 w))
  | 28 => some (.top28 (BitVec.ofNat 28 w))
  | 32 => some (.cw (BitVec.ofNat 32 w))
  | 35 => some (.req (BitVec.ofNat 35 w))
  | 40 => some (.req (BitVec.ofNat 35 w))
  | _  => none

/-- The instruction the decoder reads from a table word. -/
def decodeTableWord (nbits w : Nat) : Option Instr :=
  match tableFetchWord nbits w with
  | some fw => (decode fw).toOption
  | none => none

end Sys2Proof
end

