-- ==== Sys2Proof/Machine/Operands.lean ====
section
/-!
DEFINITION. The operand forms of the block, each a function of bits and of the configuration: the pin masks and pin
values, the pin events of a nibble write, the row-start table and the DDRAM address, the delays, the encoder helpers,
and the check of the PinSet.
-/
namespace Sys2Proof.Machine

/-- An event of the pin trace (R22). `wait n` is "at least n microseconds" (R150). -/
inductive Event where
  | configureOutputs (mask : PinWord)
  | writeMasked (mask value : PinWord)
  | setLevel (pin : PinNum) (level : Bool)
  | wait (us : Nat)
deriving DecidableEq, Repr

/-- An entry of the transport log: `N(rs, v, d)` or `B(rs, b, d)` (R22, R76). -/
inductive TransportOp where
  | nibble (rs : Rs) (v : Nibble) (d : Delay)
  | byte (rs : Rs) (b : Byte) (d : Delay)
deriving DecidableEq, Repr

/-- The cause of a fault (R116). -/
inductive Cause where
  /-- code 0: no fault -/
  | none
  /-- code 1, at reset (R117) -/
  | pinOverlap
  /-- code 2, at reset (R117) -/
  | pinNotConsecutive
  /-- code 3, at a request (R118) -/
  | rowRange
  /-- code 4, at a request (R120) -/
  | notInitialised
  /-- code 5, at a request (R121) -/
  | illegalRequest
deriving DecidableEq, Repr

/-- The three bits of the `fault` output (R116); codes 6 and 7 are never written. -/
def Cause.code : Cause → BitVec 3
  | .none => 0
  | .pinOverlap => 1
  | .pinNotConsecutive => 2
  | .rowRange => 3
  | .notInitialised => 4
  | .illegalRequest => 5

/-- The end-of-string byte (D5, G1: PRESUMED, log 23). -/
def sentinel : Byte := 0x00

/-! ### Pins (R11, R12, R58) -/

/-- `1 << p`. -/
def pinBit (p : PinNum) : PinWord := 1#32 <<< p.toNat

/-- The level of pin `p` in a pin word. -/
def pinLevel (w : PinWord) (p : PinNum) : Bool := w.getLsbD p.toNat

/-- MASK_DATA_RS (R12). -/
def maskDataRs (ps : PinSet) : PinWord :=
  pinBit ps.rs ||| pinBit ps.d0 ||| pinBit ps.d1 ||| pinBit ps.d2 ||| pinBit ps.d3

/-- MASK_ALL (R12). -/
def maskAll (ps : PinSet) : PinWord := maskDataRs ps ||| pinBit ps.e

/-- One bit placed on a pin. -/
def bitOnPin (b : Bool) (p : PinNum) : PinWord := if b then pinBit p else 0#32

/-- PINVAL(rs, v) (R58): bit `i` of the nibble on `PIN_D[i]`, the register select on `PIN_RS`. -/
def pinValue (ps : PinSet) (rs : Rs) (v : Nibble) : PinWord :=
  bitOnPin (rs.getLsbD 0) ps.rs ||| bitOnPin (v.getLsbD 3) ps.d3 ||| bitOnPin (v.getLsbD 2) ps.d2
    ||| bitOnPin (v.getLsbD 1) ps.d1 ||| bitOnPin (v.getLsbD 0) ps.d0

/-- The value XU writes: `(rs ++ v) << PIN_D[0]` (R106). -/
def consecutiveValue (ps : PinSet) (rs : Rs) (v : Nibble) : PinWord := (rs ++ v).setWidth 32 <<< ps.d0.toNat

/-- The seven events of one nibble write (R86), the masked write putting `value` on the five pins. -/
def nibbleEvents (ps : PinSet) (value : PinWord) : List Event :=
  [.writeMasked (maskDataRs ps) value,
   .setLevel ps.e false, .wait 1, .setLevel ps.e true, .wait 1, .setLevel ps.e false, .wait 1]

/-- The settle delay (R89): `Wait(d)`, no event if `d = 0` (D11). -/
def settle (d : Delay) : List Event := if d = 0 then [] else [.wait d.toNat]

/-- bits [7:4] of a byte, sent first (R74). -/
def highNibble (b : Byte) : Nibble := b.extractLsb' 4 4

/-- bits [3:0] of a byte, sent second (R74). -/
def lowNibble (b : Byte) : Nibble := b.extractLsb' 0 4

/-- The pin events of `write_nibble` in DIRECT (R85). -/
def directNibble (ps : PinSet) (rs : Rs) (v : Nibble) (d : Delay) : List Event :=
  nibbleEvents ps (pinValue ps rs v) ++ settle d

/-- The pin events of `write_byte` in DIRECT (R90). -/
def directByte (ps : PinSet) (rs : Rs) (b : Byte) (d : Delay) : List Event :=
  nibbleEvents ps (pinValue ps rs (highNibble b)) ++ nibbleEvents ps (pinValue ps rs (lowNibble b)) ++ settle d

/-- The pin events of a transport operation in DIRECT (R112's list for one entry of `tlog`). -/
def directEvents (ps : PinSet) : TransportOp → List Event
  | .nibble rs v d => directNibble ps rs v d
  | .byte rs b d => directByte ps rs b d

/-! ### The row-start table and the DDRAM address (R13, R57, R71) -/

/-- ROW_START (R13), read with a 2-bit index after the range check (R34). -/
def rowStart (r : BitVec 2) : Byte :=
  match r.toNat with
  | 0 => 0x00
  | 1 => 0x40
  | 2 => 0x14
  | _ => 0x54

/-- `(ROW_START[row] + col) & 0x7F`, the sum of natural numbers (R71). -/
def ddramAddress (row col : Byte) : BitVec 7 :=
  BitVec.ofNat 7 (((rowStart (row.setWidth 2)).toNat + col.toNat) &&& 0x7F)

/-- The value `rs = 0`, byte `0x80 | a` (R56, R57), as row OUT_SET_DDRAM_ADDR lays it out. -/
def setDdramOut (a : BitVec 7) : BitVec 9 := 0x080#9 ||| a.setWidth 9

/-- The byte `0x80 | a` (R57). -/
def setDdramByte (a : BitVec 7) : Byte := 0x80#8 ||| a.setWidth 8

/-- The value `rs = 1`, byte `c` (R56), as row OUT_DATA lays it out. -/
def dataOut (c : Byte) : BitVec 9 := 0x100#9 ||| c.setWidth 9

/-! ### Delays (R4, R66, R68, R69) -/

def dlyInit1 : Delay := 4200
def dlyInit2 : Delay := 100
def dlyShort : Delay := 40
def dlyClear : Delay := 2000
def dlyHome : Delay := 1600

/-- The delay of the wake nibble at INIT steps 1, 2, 3 (R66). No other step sends it: there the delay is a free value
(DESIGN CHOICE, log 13). -/
def wakeDelay (step : BitVec 4) : Delay :=
  match step.toNat with
  | 1 => dlyInit1
  | 2 => dlyInit2
  | 3 => dlyShort
  | _ => Config.freeWakeDelay step

/-! ### The encoder (R95 to R98) -/

/-- `((cmd << 20) | (d << 1) | 0)[31:0]` (R95). -/
def addDelayCmd (cmd : CmdWord) (d : Delay) : CmdWord := cmd <<< 20 ||| d.setWidth 32 <<< 1

/-- `((cmd << 6) | (rs << 5) | (v << 1) | 1)[31:0]` (R96). -/
def addWriteCmd (cmd : CmdWord) (rs : Rs) (v : Nibble) : CmdWord :=
  cmd <<< 6 ||| rs.setWidth 32 <<< 5 ||| v.setWidth 32 <<< 1 ||| 1#32

/-- The word `write_nibble` pushes in SEQ (R97). -/
def nibbleWord (rs : Rs) (v : Nibble) (d : Delay) : CmdWord := addWriteCmd (addDelayCmd 0 d) rs v

/-- The word `write_byte` pushes in SEQ: delay, then the low nibble, then the high nibble lowest (R98). -/
def byteWord (rs : Rs) (b : Byte) (d : Delay) : CmdWord :=
  addWriteCmd (addWriteCmd (addDelayCmd 0 d) rs (lowNibble b)) rs (highNibble b)

/-- The command word of a transport operation (R97, R98). -/
def opWord : TransportOp → CmdWord
  | .nibble rs v d => nibbleWord rs v d
  | .byte rs b d => byteWord rs b d

/-! ### The check of the PinSet (R11, R117) -/

/-- Two of the six roles have the same pin number. -/
def pinsOverlap (ps : PinSet) : Bool := !decide [ps.e, ps.rs, ps.d0, ps.d1, ps.d2, ps.d3].Nodup

/-- `PIN_D[i] = PIN_D[0] + i` and `PIN_RS = PIN_D[0] + 4`, as numbers. -/
def pinsConsecutive (ps : PinSet) : Bool :=
  ps.d1.toNat == ps.d0.toNat + 1 && ps.d2.toNat == ps.d0.toNat + 2 && ps.d3.toNat == ps.d0.toNat + 3
    && ps.rs.toNat == ps.d0.toNat + 4

/-- The value of `fault` when reset is released (R117, priority R122). -/
def configCause (c : Configuration) : Cause :=
  if pinsOverlap c.pins then .pinOverlap
  else match c.backend with
    | .direct => .none
    | .seq => if pinsConsecutive c.pins then .none else .pinNotConsecutive

end Sys2Proof.Machine
end

