-- ==== Sys2Proof/Machine/State.lean ====
section
/-!
DEFINITION. The state of the block (10_state.md), of the host's side of it (the port, the string memory, the moves
still to come), and the state after reset (R24).
-/
namespace Sys2Proof.Machine

/-- No rule of the spec stops the machine with a fault: the spec's faults (R115 to R123) are sticky states of the FSM
which the block enters as a NEXT state (`raiseFault`) and in which XU runs on. So there is no reason of this kind. -/
inductive Fault where
deriving DecidableEq, Repr

/-- Why a step has no meaning. -/
inductive Refusal where
  /-- Raised by exec for an instruction not modelled yet. Safe. -/
  | notModelled (mnemonic : String)
  /-- Raised by the meaning of CW_MALFORMED: three or more write segments, "XU gives such a word no meaning" (R109).
  Safe. -/
  | malformedCommandWord
  /-- Raised by the meaning of SEG_WRITE at the third write segment of one word (R106, R109). Safe. -/
  | thirdWriteSegment
  /-- Raised by step when the word to fetch is no instruction of its format: only a value to send that is no row of R56,
  which no run reaches (log 26). Safe. -/
  | notDecoded (e : DecodeError)
deriving DecidableEq, Repr

/-- Where the FSM stands inside a request: the MODEL's own, the written order of R65 to R78 (DEDUCED, log 6). -/
inductive Phase where
  /-- no request in progress -/
  | idle
  /-- WRITE_STRING reads the next character (R73) -/
  | fetchChar
  /-- the Facade sends this byte value next (`rs ++ byte`, R56) -/
  | send8 (w : BitVec 9)
  /-- the Facade sends this lone nibble next (`rs ++ nibble`, R56) -/
  | send4 (w : BitVec 5)
  /-- the latches hold a `write_nibble` the transport performs (R75) -/
  | opNibble
  /-- the latches hold a `write_byte` the transport performs (R75) -/
  | opByte
deriving DecidableEq, Repr

/-- A host-side event (00_scope.md section 6: every primitive that is no pin event; DEDUCED, log 16). -/
inductive HostEvent where
  | loadProgram
  | acquireUnit
  | start (handle offset : Nat) (enablePin baseDataPin : PinNum)
  | push (w : CmdWord)
  | memRead (a : StrAddr)
deriving DecidableEq, Repr

/-- One move of an agent or of the host: which of them acts next is open (R40), so it is an input (DESIGN CHOICE,
log 4). -/
inductive Move where
  /-- one step of the FSM -/
  | fsm
  /-- one step of XU: the fetch of a word (R104) or one segment (R105) -/
  | xu
  /-- XU fetches a word and replays the whole of it (R108, log 5) -/
  | xuWord
  /-- the host asserts reset (R136) -/
  | reset
  /-- the host changes a byte of its string memory (R43, U19) -/
  | hostWrite (a : StrAddr) (b : Byte)
  /-- the host has one more request to present (R45) -/
  | present (w : ReqWord)
deriving DecidableEq, Repr

structure State where
  /-- BACKEND, the PinSet, QDEPTH (R2, R11, R20): never written (R135, log 1). -/
  cfg        : Configuration
  /-- R14 -/
  reqOp      : BitVec 3
  /-- R14 -/
  reqRow     : Byte
  /-- R14 -/
  reqCol     : Byte
  /-- R14 -/
  strPtr     : StrAddr
  /-- R14 -/
  tRs        : Rs
  /-- R14 -/
  tVal       : Byte
  /-- R14 -/
  tDly       : Delay
  /-- R15 -/
  busy       : Bool
  /-- R15, R78 -/
  step       : BitVec 4
  /-- The model's own (log 6). -/
  phase      : Phase
  /-- R16 -/
  bound      : Bool
  /-- R17 -/
  fault      : Cause
  /-- R18: opaque. -/
  progOffset : Nat
  /-- R18: opaque. -/
  unitHandle : Nat
  /-- The model's own: how many free values have been drawn (log 11). -/
  draws      : Nat
  /-- R19, R33: the output level of each pin. -/
  pins       : PinWord
  /-- R19, R33: 1 when the pin is an output. -/
  oe         : PinWord
  /-- R20: oldest word first. -/
  queue      : List CmdWord
  /-- R21 -/
  xuRun      : Bool
  /-- R21 -/
  xuOsr      : CmdWord
  /-- R21 -/
  xuHave     : Bool
  /-- The model's own: write segments of this word already replayed (log 7). -/
  xuWrites   : Nat
  /-- R22, R76 -/
  tlog       : List TransportOp
  /-- R22 -/
  ptrace     : List Event
  /-- R22 -/
  qlog       : List CmdWord
  /-- 00_scope.md section 6 (log 16). -/
  hostLog    : List HostEvent
  /-- The requests the host presents, in order: the head stands on the port with `valid = 1`; none, `valid = 0`
  (R45, R65, log 8). -/
  requests   : List ReqWord
  /-- StrMem (R30, log 9). -/
  strMem     : Memory
  /-- The moves still to come (log 4). -/
  sched      : List Move
deriving DecidableEq, Repr

/-- The state after reset of a block constructed as `c` says (R24, R136, R137). Registers R24 leaves unspecified are 0
(DESIGN CHOICE, log 2). -/
def State.resetWith (c : Configuration) : State where
  cfg := c
  reqOp := 0
  reqRow := 0
  reqCol := 0
  strPtr := 0
  tRs := 0
  tVal := 0
  tDly := 0
  busy := false
  step := 0
  phase := .idle
  bound := false
  fault := configCause c
  progOffset := 0
  unitHandle := 0
  draws := 0
  pins := 0
  oe := 0
  queue := []
  xuRun := false
  xuOsr := 0
  xuHave := false
  xuWrites := 0
  tlog := []
  ptrace := []
  qlog := []
  hostLog := []
  requests := []
  strMem := []
  sched := []

/-- The machine right after reset, constructed as `Configuration.standard` says (log 1). -/
def State.reset : State := State.resetWith .standard

end Sys2Proof.Machine
end

