-- ==== Sys2Proof/Machine/Flags.lean ====
section
/-!
DEFINITION. The flags `busy`, `bound`, `fault` and the output `ready` (R15 to R17): what sets and clears them. There are
no condition codes (R25).
-/
namespace Sys2Proof.Machine

/-- `ready` is `(busy = 0) and (fault = 0)` (R15). -/
def ready (s : State) : Bool := !s.busy && decide (s.fault = .none)

/-- `valid`: the host presents a request (R45, R65). -/
def valid (s : State) : Bool := !s.requests.isEmpty

/-- Acceptance of a request: the opcode is latched and `busy` set (R65). -/
def accept (op : BitVec 3) (s : State) : State := { s with reqOp := op, busy := true }

/-- Completion of a request: `busy` cleared (R77), `step` 0 outside INIT (R15). -/
def complete (s : State) : State := { s with busy := false, step := 0, phase := .idle }

/-- The transport is bound (R16). -/
def setBound (s : State) : State := { s with bound := true }

end Sys2Proof.Machine
end

