-- ==== Sys2Proof/Machine/Ops.lean ====
section
/-!
DEFINITION. The shared operations over State: fault entry and reset, the pin primitives, the dispatch to the transport,
the binding, the queue, and the parts of the execution unit.
-/
namespace Sys2Proof.Machine

/-! ### Fault entry and the way out (R119, R123, R136) -/

/-- `raise Fault(cause)` (R119): a first cause is recorded, `busy` stays 1, nothing else happens. -/
def raiseFault (c : Cause) (s : State) : State := if s.fault = .none then { s with fault := c } else s

/-- Reset asserted and released (R136, R137): every field of the block at its reset value, the configuration kept. What
the host owns (its requests, the string memory, the moves to come) and the count of draws are no state of the block
(log 20). -/
def applyReset (s : State) : State :=
  { State.resetWith s.cfg with requests := s.requests, strMem := s.strMem, sched := s.sched, draws := s.draws }

/-! ### The pin primitives (00_scope.md section 6, R19, R33) -/

/-- The output levels after an event. -/
def pinsAfter (pins : PinWord) : Event → PinWord
  | .configureOutputs m => pins &&& ~~~m
  | .writeMasked m v => (pins &&& ~~~m) ||| (v &&& m)
  | .setLevel p b => (pins &&& ~~~(pinBit p)) ||| bitOnPin b p
  | .wait _ => pins

/-- The output enables after an event. -/
def oeAfter (oe : PinWord) : Event → PinWord
  | .configureOutputs m => oe ||| m
  | .writeMasked _ _ | .setLevel _ _ | .wait _ => oe

/-- One pin event: its effect on the pin register, and its entry in the trace (R22). -/
def emit (s : State) (e : Event) : State :=
  { s with pins := pinsAfter s.pins e, oe := oeAfter s.oe e, ptrace := s.ptrace ++ [e] }

/-- Pin events in order. -/
def perform (es : List Event) (s : State) : State := es.foldl emit s

/-! ### The Facade: issuing, binding, sequencing (R66, R67, R75 to R78) -/

/-- The Facade issues `write_byte(rs, b, d)`: the latches take it and `tlog` its entry (R14, R75, R76). -/
def issueByte (rs : Rs) (b : Byte) (d : Delay) (s : State) : State :=
  { s with tRs := rs, tVal := b, tDly := d, tlog := s.tlog ++ [.byte rs b d], phase := .opByte }

/-- The Facade issues `write_nibble(rs, v, d)`; it holds `v` in `t_val[3:0]` alone (R14; DEDUCED that [7:4] stay,
log 15). -/
def issueNibble (rs : Rs) (v : Nibble) (d : Delay) (s : State) : State :=
  { s with
    tRs := rs, tVal := (s.tVal &&& 0xF0#8) ||| v.setWidth 8, tDly := d, tlog := s.tlog ++ [.nibble rs v d], phase := .opNibble }

/-- What INIT sends at steps 1 to 8 (R66); at step 0 it sends nothing. -/
def handshake (step : BitVec 4) : Phase :=
  match step.toNat with
  | 1 => .send4 0x03#5
  | 2 => .send4 0x03#5
  | 3 => .send4 0x03#5
  | 4 => .send4 0x02#5
  | 5 => .send8 0x28#9
  | 6 => .send8 0x0C#9
  | 7 => .send8 0x06#9
  | 8 => .send8 0x01#9
  | _ => .idle

/-- INIT goes to a step (R66, R78). -/
def gotoStep (n : BitVec 4) (s : State) : State := { s with step := n, phase := handshake n }

/-- The effect of `Start` (R103): the six pins become outputs at level low, XU runs and holds no word. -/
def startUnit (s : State) : State :=
  let s1 := emit s (.configureOutputs (maskAll s.cfg.pins))
  { s1 with
    xuRun := true, xuHave := false,
    hostLog := s.hostLog ++ [.start s.unitHandle s.progOffset s.cfg.pins.e s.cfg.pins.d0] }

/-- `LoadProgram()` and `AcquireUnit()` return free values (R18, R102, log 11) and never fail (log 12). -/
def claimUnit (s : State) : State :=
  { s with
    progOffset := Config.freeProgOffset s.draws, unitHandle := Config.freeUnitHandle s.draws, draws := s.draws + 1,
    hostLog := s.hostLog ++ [.loadProgram, .acquireUnit] }

/-- The bind step of INIT (R67), with R102 and R103 in SEQ; nothing if the transport is bound. -/
def bindTransport (s : State) : State :=
  if s.bound then s
  else match s.cfg.backend with
    | .direct => setBound (emit s (.configureOutputs (maskAll s.cfg.pins)))
    | .seq => setBound (startUnit (claimUnit s))

/-- A request other than INIT goes on only when the transport is bound (R65, R120). -/
def ifBound (k : State → State) (s : State) : State := if s.bound then k s else raiseFault .notInitialised s

/-- A request that sends one byte value (R68 to R70). -/
def sendByte (w : BitVec 9) (s : State) : State := { s with phase := .send8 w }

/-- The transport has finished an operation (R75): the next INIT step, the next character (R72), or completion (R77). -/
def finishOp (s : State) : State :=
  if s.reqOp = 0#3 then (if s.step.toNat < 8 then gotoStep (s.step + 1) s else complete s)
  else if s.reqOp = 4#3 then { s with strPtr := s.strPtr + 1, phase := .fetchChar }
  else complete s

/-- `MemRead(str_ptr, 1)` and the sentinel test of WRITE_STRING (R72, R73). -/
def readChar (s : State) : State :=
  let c := s.strMem.read s.strPtr.toNat
  let s1 := { s with hostLog := s.hostLog ++ [.memRead s.strPtr] }
  if c = sentinel then complete s1 else sendByte (dataOut c) s1

/-! ### The queue (R20, R32, R99) -/

/-- The queue holds fewer than QDEPTH words. -/
def canPush (s : State) : Bool := decide (s.queue.length < s.cfg.qdepth)

/-- `Push(w)`: one append at the tail, logged in `qlog` (R22, R97, R99). -/
def push (w : CmdWord) (s : State) : State :=
  { s with queue := s.queue ++ [w], qlog := s.qlog ++ [w], hostLog := s.hostLog ++ [.push w] }

/-- A transport operation in SEQ: push and go on, or wait in the middle of the request while the queue is full
(R97 to R99). -/
def pushOrWait (w : CmdWord) (s : State) : State := if canPush s then finishOp (push w s) else s

/-- A transport operation in DIRECT: its pin events and waits, then go on (R85, R90, R91). -/
def performThen (es : List Event) (s : State) : State := finishOp (perform es s)

/-! ### The execution unit (R104 to R107) -/

/-- XU takes the head word `w` off the queue into the shift register (R104). -/
def xuLoad (w : CmdWord) (s : State) : State :=
  { s with queue := s.queue.tail, xuOsr := w, xuHave := true, xuWrites := 0 }

/-- XU executes a write segment (R106). -/
def xuWrite (rs : Rs) (v : Nibble) (s : State) : State :=
  let s1 := perform (nibbleEvents s.cfg.pins (consecutiveValue s.cfg.pins rs v)) s
  { s1 with xuOsr := s1.xuOsr >>> 6, xuWrites := s1.xuWrites + 1 }

/-- XU executes a delay segment, which ends the word (R107). -/
def xuDelay (d : Delay) (s : State) : State :=
  let s1 := perform (settle d) s
  { s1 with xuHave := false }

/-! ### The host (R43, R45) -/

/-- The host changes a byte of the string memory. -/
def hostWrite (a : StrAddr) (b : Byte) (s : State) : State := { s with strMem := s.strMem.write a.toNat b }

/-- The host has one more request to present. -/
def presentRequest (w : ReqWord) (s : State) : State := { s with requests := s.requests ++ [w] }

end Sys2Proof.Machine
end

