-- ==== Sys2Proof/Machine/ExecutionUnit.lean ====
section
/-!
DEFINITION. The meanings of the segments and of whole command words, run by XU (R105 to R109). A whole word is its
segments one after the other (R108, log 5); the word has been taken into the shift register before (`xuLoad`, R104).
-/
namespace Sys2Proof.Machine

/-- SEG_WRITE (R106); a third write segment in one word is refused (R109). -/
def execSegWrite (rs : Rs) (v : Nibble) (s : State) : Host.Outcome State Fault Refusal :=
  if s.xuWrites < 2 then .next (xuWrite rs v s) else .refused .thirdWriteSegment

/-- SEG_DELAY (R107). -/
def execSegDelay (d : Delay) (s : State) : Host.Outcome State Fault Refusal := .next (xuDelay d s)

/-- CW_NIBBLE (R105): nibble write, then the wait. -/
def execCwNibble (rs : Rs) (v : Nibble) (d : Delay) (s : State) : Host.Outcome State Fault Refusal :=
  .next (xuDelay d (xuWrite rs v s))

/-- CW_BYTE (R105): high nibble, low nibble, then the wait. -/
def execCwByte (rsHigh : Rs) (high : Nibble) (rsLow : Rs) (low : Nibble) (d : Delay) (s : State) :
    Host.Outcome State Fault Refusal :=
  .next (xuDelay d (xuWrite rsLow low (xuWrite rsHigh high s)))

/-- CW_DELAY_ONLY (R55 a, R107). -/
def execCwDelayOnly (d : Delay) (s : State) : Host.Outcome State Fault Refusal := .next (xuDelay d s)

/-- CW_MALFORMED (R109): "XU gives such a word no meaning: a model refuses it". -/
def execCwMalformed (_w : CmdWord) (_s : State) : Host.Outcome State Fault Refusal := .refused .malformedCommandWord

end Sys2Proof.Machine
end

