-- ==== Sys2Proof/Machine/Outputs.lean ====
section
/-!
DEFINITION. The meanings of the values sent to the controller (R56): the Facade issues the transport operation that
carries the value, with the trailing delay of the request that sends it (R66, R68 to R70, R72).
-/
namespace Sys2Proof.Machine

/-- INIT step 5 (R66). -/
def execOutFunctionSet (s : State) : Host.Outcome State Fault Refusal := .next (issueByte 0 0x28 dlyShort s)

/-- INIT step 6 (R66). -/
def execOutDisplayControl (s : State) : Host.Outcome State Fault Refusal := .next (issueByte 0 0x0C dlyShort s)

/-- INIT step 7 (R66). -/
def execOutEntryMode (s : State) : Host.Outcome State Fault Refusal := .next (issueByte 0 0x06 dlyShort s)

/-- CLEAR and INIT step 8 (R68, R66). -/
def execOutClear (s : State) : Host.Outcome State Fault Refusal := .next (issueByte 0 0x01 dlyClear s)

/-- HOME (R69). -/
def execOutHome (s : State) : Host.Outcome State Fault Refusal := .next (issueByte 0 0x02 dlyHome s)

/-- POSITION (R57, R70). -/
def execOutSetDdramAddr (a : BitVec 7) (s : State) : Host.Outcome State Fault Refusal :=
  .next (issueByte 0 (setDdramByte a) dlyShort s)

/-- WRITE_STRING (R72). That 0x00, which no run sends, would be issued like any character: DESIGN CHOICE (log 14). -/
def execOutData (c : Byte) (s : State) : Host.Outcome State Fault Refusal := .next (issueByte 1 c dlyShort s)

/-- INIT steps 1 to 3 (R66). -/
def execOutWakeNibble (s : State) : Host.Outcome State Fault Refusal :=
  .next (issueNibble 0 0x3 (wakeDelay s.step) s)

/-- INIT step 4 (R66). -/
def execOutMode4Nibble (s : State) : Host.Outcome State Fault Refusal := .next (issueNibble 0 0x2 dlyShort s)

end Sys2Proof.Machine
end

