-- ==== Sys2Proof/Machine/Requests.lean ====
section
/-!
DEFINITION. The meanings of the eight request codes: what the FSM does in the step that accepts one (R65). Each ends in
a next state; the values a request goes on to send are the rows OUT_* (Machine/Outputs.lean), the transport operations
that carry them Machine/Transport.lean.
-/
namespace Sys2Proof.Machine

/-- INIT (R66): bind (R67), then step 1 of the handshake. Exempt from the NOT_INITIALISED test (R65). -/
def execInit (s : State) : Host.Outcome State Fault Refusal :=
  .next (gotoStep 1 (bindTransport (accept 0 s)))

/-- CLEAR (R68): the byte 0x01 as a command. -/
def execClear (s : State) : Host.Outcome State Fault Refusal :=
  .next (ifBound (sendByte 0x01#9) (accept 1 s))

/-- HOME (R69): the byte 0x02 as a command. -/
def execHome (s : State) : Host.Outcome State Fault Refusal :=
  .next (ifBound (sendByte 0x02#9) (accept 2 s))

/-- The body of POSITION (R70): the range test, then the address command. -/
def positionBody (s : State) : State :=
  if 4 ≤ s.reqRow.toNat then raiseFault .rowRange s else sendByte (setDdramOut (ddramAddress s.reqRow s.reqCol)) s

/-- POSITION (R70): the operands are latched at acceptance (R65). -/
def execPosition (row col : Byte) (s : State) : Host.Outcome State Fault Refusal :=
  .next (ifBound positionBody { accept 3 s with reqRow := row, reqCol := col })

/-- WRITE_STRING (R72): the pointer is latched at acceptance (R65), then the first character is read (R73). -/
def execWriteString (ptr : StrAddr) (s : State) : Host.Outcome State Fault Refusal :=
  .next (ifBound (fun t => { t with phase := .fetchChar }) { accept 4 s with strPtr := ptr })

/-- Request code 5 (R121). -/
def execReserved5 (s : State) : Host.Outcome State Fault Refusal :=
  .next (raiseFault .illegalRequest (accept 5 s))

/-- Request code 6 (R121). -/
def execReserved6 (s : State) : Host.Outcome State Fault Refusal :=
  .next (raiseFault .illegalRequest (accept 6 s))

/-- Request code 7 (R121). -/
def execReserved7 (s : State) : Host.Outcome State Fault Refusal :=
  .next (raiseFault .illegalRequest (accept 7 s))

end Sys2Proof.Machine
end

