-- ==== Sys2Proof/Machine/Transport.lean ====
section
/-!
DEFINITION. The meanings of the two transport operations, each in the backend BACKEND names (R75).
-/
namespace Sys2Proof.Machine

/-- `write_nibble`: DIRECT R85, SEQ R97. -/
def execWriteNibble (rs : Rs) (v : Nibble) (d : Delay) (s : State) : Host.Outcome State Fault Refusal :=
  match s.cfg.backend with
  | .direct => .next (performThen (directNibble s.cfg.pins rs v d) s)
  | .seq => .next (pushOrWait (nibbleWord rs v d) s)

/-- `write_byte`: DIRECT R90, SEQ R98. -/
def execWriteByte (rs : Rs) (b : Byte) (d : Delay) (s : State) : Host.Outcome State Fault Refusal :=
  match s.cfg.backend with
  | .direct => .next (performThen (directByte s.cfg.pins rs b d) s)
  | .seq => .next (pushOrWait (byteWord rs b d) s)

end Sys2Proof.Machine
end

