-- ==== Sys2Proof/Machine/Dispatch.lean ====
section
/-!
DEFINITION. One arm per instruction.
-/
namespace Sys2Proof.Machine

def exec (i : Instr) (s : State) : Host.Outcome State Fault Refusal :=
  match i with
  -- requests
  | .init => Sys2Proof.Machine.execInit s
  | .clear => Sys2Proof.Machine.execClear s
  | .home => Sys2Proof.Machine.execHome s
  | .position row col => Sys2Proof.Machine.execPosition row col s
  | .writeString ptr => Sys2Proof.Machine.execWriteString ptr s
  | .reserved5 => Sys2Proof.Machine.execReserved5 s
  | .reserved6 => Sys2Proof.Machine.execReserved6 s
  | .reserved7 => Sys2Proof.Machine.execReserved7 s
  -- command words
  | .cwNibble rs v d => Sys2Proof.Machine.execCwNibble rs v d s
  | .cwByte rsHigh high rsLow low d => Sys2Proof.Machine.execCwByte rsHigh high rsLow low d s
  | .cwDelayOnly d => Sys2Proof.Machine.execCwDelayOnly d s
  | .cwMalformed w => Sys2Proof.Machine.execCwMalformed w s
  -- segments
  | .segWrite rs v => Sys2Proof.Machine.execSegWrite rs v s
  | .segDelay d => Sys2Proof.Machine.execSegDelay d s
  -- transport operations
  | .writeNibble rs v d => Sys2Proof.Machine.execWriteNibble rs v d s
  | .writeByte rs b d => Sys2Proof.Machine.execWriteByte rs b d s
  -- values sent to the controller
  | .outFunctionSet => Sys2Proof.Machine.execOutFunctionSet s
  | .outDisplayControl => Sys2Proof.Machine.execOutDisplayControl s
  | .outEntryMode => Sys2Proof.Machine.execOutEntryMode s
  | .outClear => Sys2Proof.Machine.execOutClear s
  | .outHome => Sys2Proof.Machine.execOutHome s
  | .outSetDdramAddr a => Sys2Proof.Machine.execOutSetDdramAddr a s
  | .outData c => Sys2Proof.Machine.execOutData c s
  | .outWakeNibble => Sys2Proof.Machine.execOutWakeNibble s
  | .outMode4Nibble => Sys2Proof.Machine.execOutMode4Nibble s

end Sys2Proof.Machine
end

