-- ==== Sys2Proof/Machine/Fetch.lean ====
section
/-!
DEFINITION. What each agent does next: the word it fetches, and the state the fetch leaves. Step.lean calls these.
-/
namespace Sys2Proof.Machine

/-- What an agent's next move is. -/
inductive Action where
  /-- the agent has no step: it waits, and nothing changes (R99, R104, R119; log 18) -/
  | wait
  /-- the FSM reads a character (R73) -/
  | readChar
  /-- XU takes the head word of the queue (R104) -/
  | load (w : CmdWord)
  /-- the agent runs the instruction a word decodes to, in the state the fetch leaves -/
  | run (w : FetchWord) (fetched : State)
deriving DecidableEq, Repr

/-- The agent has no step. -/
def Action.isWait : Action → Bool
  | .wait => true
  | .readChar | .load _ | .run _ _ => false

/-- The contents of the latches for a `write_nibble` (row write_nibble). -/
def nibbleLatches (s : State) : BitVec 24 := 
  s.tRs.setWidth 24 <<< 23 ||| (lowNibble s.tVal).setWidth 24 <<< 19 ||| s.tDly.setWidth 24

/-- The contents of the latches for a `write_byte` (row write_byte). -/
def byteLatches (s : State) : BitVec 28 := 
  s.tRs.setWidth 28 <<< 27 ||| s.tVal.setWidth 28 <<< 19 ||| s.tDly.setWidth 28

/-- The FSM's next move: halted by a fault (R119); else what the request in progress does next (R75, R78); else the
acceptance of the request at the port (R65), which takes it off the port. -/
def fsmAction (s : State) : Action :=
  if s.fault ≠ .none then .wait
  else match s.phase with
    | .idle =>
      match s.requests with
      | [] => .wait
      | w :: rest => if s.busy then .wait else .run (.req w) { s with requests := rest }
    | .fetchChar => .readChar
    | .send8 w => .run (.out8 w) s
    | .send4 w => .run (.out4 w) s
    | .opNibble => .run (.top24 (nibbleLatches s)) s
    | .opByte => .run (.top28 (byteLatches s)) s

/-- The segment at the low end of the shift register, its marker in bit 0 (R105). -/
def segmentOf (osr : CmdWord) : FetchWord :=
  if osr.getLsbD 0 then .seg6 (osr.extractLsb' 0 6) else .seg20 (osr.extractLsb' 0 20)

/-- XU's next move, a fetch (R104) or one segment (R105). -/
def xuAction (s : State) : Action :=
  if !s.xuRun then .wait
  else if s.xuHave then .run (segmentOf s.xuOsr) s
  else match s.queue with
    | [] => .wait
    | w :: _ => .load w

/-- XU's next move when it takes a whole word at once (R108, log 5). -/
def xuWordAction (s : State) : Action :=
  if !s.xuRun then .wait
  else if s.xuHave then .run (segmentOf s.xuOsr) s
  else match s.queue with
    | [] => .wait
    | w :: _ => .run (.cw w) (xuLoad w s)

/-- The FSM holds a transport operation the queue has no room for (R99). -/
def blocked (s : State) : Bool :=
  decide (s.cfg.backend = .seq) && !canPush s && (decide (s.phase = .opNibble) || decide (s.phase = .opByte))

/-- DESIGN CHOICE, log 4: which agent moves when no move is scheduled. The FSM, unless it waits; then XU. -/
def unscheduledAction (s : State) : Action :=
  if (fsmAction s).isWait || blocked s then xuAction s else fsmAction s

/-- The state in which the next step fetches `w` and runs it, for the host's questions (log 19): the word in the place
its format is fetched from, the agent ready for it, its move scheduled first. -/
def placeWord (w : FetchWord) (s : State) : State :=
  match w with
  | .req w => { s with
      requests := w :: s.requests, busy := false, fault := .none, phase := .idle, sched := .fsm :: s.sched }
  | .cw w => { s with queue := w :: s.queue, xuRun := true, xuHave := false, sched := .xuWord :: s.sched }
  | .seg6 w => { s with
      xuOsr := w.setWidth 32, xuRun := true, xuHave := true, xuWrites := 0, sched := .xu :: s.sched }
  | .seg20 w => { s with
      xuOsr := w.setWidth 32, xuRun := true, xuHave := true, xuWrites := 0, sched := .xu :: s.sched }
  | .top24 w => { s with
      tRs := w.extractLsb' 23 1, tVal := (s.tVal &&& 0xF0#8) ||| (w.extractLsb' 19 4).setWidth 8,
      tDly := w.extractLsb' 0 19, busy := true, fault := .none, phase := .opNibble, sched := .fsm :: s.sched }
  | .top28 w => { s with
      tRs := w.extractLsb' 27 1, tVal := w.extractLsb' 19 8, tDly := w.extractLsb' 0 19,
      busy := true, fault := .none, phase := .opByte, sched := .fsm :: s.sched }
  | .out8 w => { s with busy := true, fault := .none, phase := .send8 w, sched := .fsm :: s.sched }
  | .out4 w => { s with busy := true, step := 1, fault := .none, phase := .send4 w, sched := .fsm :: s.sched }

end Sys2Proof.Machine
end

