-- ==== Sys2Proof/Machine/Step.lean ====
section
/-!
DEFINITION. One step of the machine: the scheduled move is taken off and made (R10, R40).
-/
namespace Sys2Proof.Machine

/-- The instruction a fetched word decodes to is executed in the state the fetch leaves. -/
def runWord (w : FetchWord) (fetched : State) : Host.Outcome State Fault Refusal :=
  match decode w with
  | .ok i => exec i fetched
  | .rejected e => .refused (.notDecoded e)

/-- An agent's move made. -/
def act (a : Action) (s : State) : Host.Outcome State Fault Refusal :=
  match a with
  | .wait => .next s
  | .readChar => .next (readChar s)
  | .load w => .next (xuLoad w s)
  | .run w fetched => runWord w fetched

/-- A scheduled move made. -/
def makeMove (m : Move) (s : State) : Host.Outcome State Fault Refusal :=
  match m with
  | .fsm => act (fsmAction s) s
  | .xu => act (xuAction s) s
  | .xuWord => act (xuWordAction s) s
  | .reset => .next (applyReset s)
  | .hostWrite a b => .next (hostWrite a b s)
  | .present w => .next (presentRequest w s)

def step (s : State) : Host.Outcome State Fault Refusal :=
  match s.sched with
  | [] => act (unscheduledAction s) s
  | m :: rest => makeMove m { s with sched := rest }

/-- `s` with a table word stored where step fetches its next instruction (log 19). -/
def State.withFetchWord (s : State) (nbits w : Nat) : State :=
  match tableFetchWord nbits w with
  | some fw => placeWord fw s
  | none => s

end Sys2Proof.Machine
end

