-- ==== Sys2Proof/Machine/Trace.lean ====
section
/-!
DEFINITION. What is read off a pin trace: the latched sequence with its settle times (R23) and the minimum duration
(R92, R151). Nothing in the machine reads these.
-/
namespace Sys2Proof.Machine

/-- The nibble on the data lines: `pins[PIN_D[3]] ++ .. ++ pins[PIN_D[0]]` (R23). -/
def dataNibble (ps : PinSet) (pins : PinWord) : Nibble :=
  (BitVec.ofBool (pinLevel pins ps.d3)).setWidth 4 <<< 3 ||| (BitVec.ofBool (pinLevel pins ps.d2)).setWidth 4 <<< 2
    ||| (BitVec.ofBool (pinLevel pins ps.d1)).setWidth 4 <<< 1 ||| (BitVec.ofBool (pinLevel pins ps.d0)).setWidth 4

/-- The `Wait` events before the next event that is none, summed (R23). -/
def settleTime : List Event → Nat
  | .wait n :: rest => n + settleTime rest
  | [] | .configureOutputs _ :: _ | .writeMasked _ _ :: _ | .setLevel _ _ :: _ => 0

/-- An element of the latched sequence with its settle time. -/
structure Latched where
  rs     : Rs
  v      : Nibble
  settle : Nat
deriving DecidableEq, Repr

/-- The latched sequence of the events `es` when the pins stand at `pins` before them: one element at every event that
changes `PIN_E` from 1 to 0 (R23). -/
def latchedSeq (ps : PinSet) (pins : PinWord) : List Event → List Latched
  | [] => []
  | e :: rest =>
    let after := pinsAfter pins e
    let tail := latchedSeq ps after rest
    if pinLevel pins ps.e && !pinLevel after ps.e then
      { rs := BitVec.ofBool (pinLevel after ps.rs), v := dataNibble ps after, settle := settleTime rest } :: tail
    else tail

/-- The sum of the `Wait` arguments (R151): a lower bound on the time the events take (R150). -/
def waitTotal : List Event → Nat
  | [] => 0
  | .wait n :: rest => n + waitTotal rest
  | .configureOutputs _ :: rest | .writeMasked _ _ :: rest | .setLevel _ _ :: rest => waitTotal rest

end Sys2Proof.Machine
end

