-- ==== Sys2Proof/Safety.lean ====
section
/-!
DEFINITION. What counts as a safe state, in the terms the statements use: quiescence (R110), the invariant of every
state a run reaches, and the invariant that ties the logs together (R22, R40, R112).
-/
namespace Sys2Proof.Machine

/-- The six roles have six pin numbers (R11: "all pins distinct"). -/
def PinsDistinct (p : PinSet) : Prop :=
  p.e ≠ p.rs ∧ p.e ≠ p.d0 ∧ p.e ≠ p.d1 ∧ p.e ≠ p.d2 ∧ p.e ≠ p.d3 ∧ p.rs ≠ p.d0 ∧ p.rs ≠ p.d1 ∧ p.rs ≠ p.d2 ∧
    p.rs ≠ p.d3 ∧ p.d0 ≠ p.d1 ∧ p.d0 ≠ p.d2 ∧ p.d0 ≠ p.d3 ∧ p.d1 ≠ p.d2 ∧ p.d1 ≠ p.d3 ∧ p.d2 ≠ p.d3

/-- `PIN_D[i] = PIN_D[0] + i` and `PIN_RS = PIN_D[0] + 4` (R11, for SEQ). -/
def PinsConsecutive (p : PinSet) : Prop :=
  p.d1.toNat = p.d0.toNat + 1 ∧ p.d2.toNat = p.d0.toNat + 2 ∧ p.d3.toNat = p.d0.toNat + 3 ∧ p.rs.toNat = p.d0.toNat + 4

/-- The values R24 gives for reset, in a block constructed as `c` says. -/
structure AtReset (c : Configuration) (s : State) : Prop where
  cfg     : s.cfg = c
  busy    : s.busy = false
  step    : s.step = 0
  bound   : s.bound = false
  fault   : s.fault = configCause c
  outputs : ∀ p ∈ [c.pins.e, c.pins.rs, c.pins.d0, c.pins.d1, c.pins.d2, c.pins.d3], pinLevel s.oe p = false
  queue   : s.queue = []
  xu      : s.xuRun = false ∧ s.xuHave = false
  logs    : s.tlog = [] ∧ s.ptrace = [] ∧ s.qlog = []

/-- No request in progress, no word queued, no word being replayed (R110). -/
def Quiescent (s : State) : Prop := s.busy = false ∧ s.queue = [] ∧ s.xuHave = false

/-- A word in the shift register, of which `n` write segments have been replayed, meets no third one (R109). -/
def Replayable (n : Nat) (osr : CmdWord) : Prop :=
  n ≤ 2 ∧ (n = 0 → isMalformed osr = false) ∧ (n = 1 → (firstMarker osr && secondMarker osr) = false)
    ∧ (n = 2 → firstMarker osr = false)

/-- A value the Facade may send: a row of R56, and no character equal to the sentinel (R72). -/
def Sendable : Phase → Prop
  | .send8 w => (decodeOutByte w).toOption.isSome = true ∧ w ≠ dataOut sentinel
  | .send4 w => (decodeOutNibble w).toOption.isSome = true
  | .idle | .fetchChar | .opNibble | .opByte => True

/-- What every state a run from reset reaches has. -/
structure Inv (s : State) : Prop where
  /-- the string memory is in canonical form (R30) -/
  memory : s.strMem.wf = true
  /-- at most QDEPTH words (R20) -/
  queueBound : s.queue.length ≤ s.cfg.qdepth
  /-- every queued word is the encoder's (R55) -/
  queueWords : ∀ w ∈ s.queue, ∃ op, w = opWord op
  /-- the word in the shift register can be replayed to its end (R109) -/
  osr : s.xuHave = true → Replayable s.xuWrites s.xuOsr
  /-- XU holds a word only when it runs (R104) -/
  have_run : s.xuHave = true → s.xuRun = true
  /-- XU runs in SEQ once the transport is bound (R16, R103) -/
  run_bound : s.xuRun = true ↔ s.bound = true ∧ s.cfg.backend = .seq
  /-- DIRECT has no queue (R20) -/
  direct_queue : s.cfg.backend = .direct → s.queue = []
  /-- a request in progress: no fault, `busy`, bound (R15, R65) -/
  inProgress : s.phase ≠ .idle → s.fault = .none ∧ s.busy = true ∧ s.bound = true
  /-- `busy` without a request in progress is a fault's (R77, R119) -/
  idle_busy : s.phase = .idle → s.fault = .none → s.busy = false
  /-- what is sent next is a row of R56 -/
  sending : Sendable s.phase
  /-- `step` counts 1 to 8 in INIT and is 0 otherwise (R78) -/
  step_le : s.step.toNat ≤ 8
  step_init : s.step ≠ 0 → s.reqOp = 0 ∧ s.phase ≠ .idle
  init_step : s.phase ≠ .idle → s.reqOp = 0 → s.step ≠ 0
  /-- an invalid PinSet is a fault from reset on (R117, R123) -/
  badConfig : configCause s.cfg ≠ .none → s.fault = configCause s.cfg
  bound_valid : s.bound = true → configCause s.cfg = .none
  /-- the outputs are the six pins once bound, none before (R19, R138; of pins outside the six, log 2) -/
  outputs : s.oe = if s.bound then maskAll s.cfg.pins else 0
  /-- the enable line is low between operations (R104, R138) -/
  enable_low : s.bound = true → pinLevel s.pins s.cfg.pins.e = false

/-- The transport operations the transport has finished: all that were issued but the one in the latches (R75). -/
def finishedOps (s : State) : List TransportOp :=
  match s.phase with
  | .opNibble | .opByte => s.tlog.dropLast
  | .idle | .fetchChar | .send8 _ | .send4 _ => s.tlog

/-- The binding's event (R67, R103). -/
def bindEvents (s : State) : List Event := if s.bound then [.configureOutputs (maskAll s.cfg.pins)] else []

/-- The pin events of at most `n` segments of a shift register, a delay segment ending the word (R105 to R107). -/
def segmentEvents (ps : PinSet) : Nat → CmdWord → List Event
  | 0, _ => []
  | n + 1, w =>
    if w.getLsbD 0 then
      nibbleEvents ps (consecutiveValue ps (w.extractLsb' 5 1) (w.extractLsb' 1 4)) ++ segmentEvents ps n (w >>> 6)
    else settle (w.extractLsb' 1 19)

/-- What XU has still to do on the pins for the word it holds. -/
def unitBacklog (s : State) : List Event :=
  if s.xuHave then segmentEvents s.cfg.pins (3 - s.xuWrites) s.xuOsr else []

/-- The logs of every state a run from reset reaches agree: `ptrace` is the binding and then, in the order issued, the
events DIRECT gives each transport operation finished (in SEQ: replayed by XU, R112). -/
structure TraceInv (s : State) : Prop where
  /-- the operation in the latches is the last one issued (R75, R76) -/
  nibble_issued : s.phase = .opNibble → ∃ before, s.tlog = before ++ [.nibble s.tRs (lowNibble s.tVal) s.tDly]
  byte_issued : s.phase = .opByte → ∃ before, s.tlog = before ++ [.byte s.tRs s.tVal s.tDly]
  /-- nothing is issued before the binding (R120) -/
  unbound : s.bound = false → s.tlog = []
  direct : s.cfg.backend = .direct →
    s.ptrace = bindEvents s ++ (finishedOps s).flatMap (directEvents s.cfg.pins)
  /-- one push per operation (R97, R98) -/
  pushes : s.cfg.backend = .seq → s.qlog = (finishedOps s).map opWord
  /-- the queue holds the operations XU has not begun, in order (R32, R40) -/
  replay : s.cfg.backend = .seq → ∃ begun waiting, finishedOps s = begun ++ waiting ∧ s.queue = waiting.map opWord ∧
    s.ptrace ++ unitBacklog s = bindEvents s ++ begun.flatMap (directEvents s.cfg.pins)

/-! ### What a request issues (R66, R68 to R70, R72, R73) -/

/-- The eight operations of INIT, steps 1 to 8 (R66). -/
def initOps : List TransportOp :=
  [.nibble 0 0x3 4200, .nibble 0 0x3 100, .nibble 0 0x3 40, .nibble 0 0x2 40,
    .byte 0 0x28 40, .byte 0 0x0C 40, .byte 0 0x06 40, .byte 0 0x01 2000]

/-- A request that raises no fault in `s` issues exactly these transport operations and reads these string addresses, in
order. WRITE_STRING: the characters from the pointer to the first sentinel, addresses wrapping (R31, log 23). -/
inductive Issues (s : State) : Instr → List TransportOp → List StrAddr → Prop
  | init : Issues s .init initOps []
  | clear (h : s.bound = true) : Issues s .clear [.byte 0 0x01 2000] []
  | home (h : s.bound = true) : Issues s .home [.byte 0 0x02 1600] []
  | position (row col : Byte) (h : s.bound = true) (hr : row.toNat < 4) :
    Issues s (.position row col) [.byte 0 (0x80 ||| (ddramAddress row col).setWidth 8) 40] []
  | writeString (ptr : StrAddr) (cs : List Byte) (h : s.bound = true) (hc : ∀ c ∈ cs, c ≠ sentinel)
    (hm : ∀ k (hk : k < cs.length), s.strMem.read (ptr + BitVec.ofNat 32 k).toNat = cs[k])
    (he : s.strMem.read (ptr + BitVec.ofNat 32 cs.length).toNat = sentinel) :
    Issues s (.writeString ptr) (cs.map fun c => .byte 1 c 40)
      ((List.range (cs.length + 1)).map fun k => ptr + BitVec.ofNat 32 k)

/-- The address of a character read in the host-side log, none for another event. -/
def HostEvent.readAddr : HostEvent → Option StrAddr
  | .memRead a => some a
  | .loadProgram | .acquireUnit | .start _ _ _ _ | .push _ => none

/-! ### Progress: the three assumptions of R152 -/

/-- An infinite run in which the `n`-th move is `moves n`, whatever moves the states list themselves. -/
def RunUnder (moves : Nat → Move) (run : Nat → State) : Prop :=
  ∀ n, step { run n with sched := [moves n] } = .next (run (n + 1))

/-- The FSM has a step: no fault, something to do, and room for the word it has to push (R65, R99, R119). -/
def fsmEnabled (s : State) : Bool := !(fsmAction s).isWait && !blocked s

/-- XU has a step: it runs, and holds a word or finds one (R104, R105). -/
def xuEnabled (s : State) : Bool := !(xuAction s).isWait

/-- A move of XU, of either granularity (log 5). -/
def Move.isXu : Move → Bool
  | .xu | .xuWord => true
  | .fsm | .reset | .hostWrite _ _ | .present _ => false

/-- Weak fairness (R152): an agent that has a step from some point on without end is scheduled again. The end of a `Wait`
is part of the agent's step (log 3), so this says also that every `Wait` ends. -/
structure WeaklyFair (moves : Nat → Move) (run : Nat → State) : Prop where
  fsm : ∀ n, (∀ k, n ≤ k → fsmEnabled (run k) = true) → ∃ k, n ≤ k ∧ moves k = .fsm
  xu : ∀ n, (∀ k, n ≤ k → xuEnabled (run k) = true) → ∃ k, n ≤ k ∧ (moves k).isXu = true

/-- The premise on StrMem (R152): at some address the host keeps a sentinel. As the pointer wraps (R31), any address is
"at or after" the pointer. -/
def KeepsSentinel (run : Nat → State) : Prop := ∃ a : StrAddr, ∀ n, (run n).strMem.read a.toNat = sentinel

end Sys2Proof.Machine
end

