-- ==== Sys2Proof/Certificates/Slice0/Obligations.lean ====
section
/-!
DEFINITION. The statements for the provers. `u` below is the state after the scheduled move is taken off.
-/

open Sys2Proof Sys2Proof.Machine

/-! ### Encodings -/

/-- Every well-formed instruction is what its own encoding decodes to (R45 to R56). -/
def Obligations.DecodeOfEncodeIsTheInstruction : Prop :=
  ∀ i : Instr, WellFormed i → decode (encode i) = .ok i

/-- No decoder answers an ill-formed instruction. -/
def Obligations.DecodedInstructionsAreWellFormed : Prop :=
  ∀ (w : FetchWord) (i : Instr), decode w = .ok i → WellFormed i

/-- R101: decoding a word the encoder produced recovers the delay, the register select and the values, first replayed
first; and so through the encoder helpers applied as R97 and R98 write them. -/
def Obligations.CommandWordRoundTrip : Prop :=
  ∀ (rs : Rs) (b : Byte) (v : Nibble) (d : Delay),
    decodeCommandWord (addWriteCmd (addWriteCmd (addDelayCmd 0 d) rs (b.extractLsb' 0 4)) rs (b.extractLsb' 4 4)) =
      .cwByte rs (b.extractLsb' 4 4) rs (b.extractLsb' 0 4) d ∧
    decodeCommandWord (addWriteCmd (addDelayCmd 0 d) rs v) = .cwNibble rs v d

/-- R52, R53: the words the two helpers build, field by field from bit 31 down as the tables lay them out. -/
def Obligations.EncoderBuildsTheTableLayouts : Prop :=
  ∀ (rs : Rs) (b : Byte) (v : Nibble) (d : Delay),
    let n := nibbleWord rs v d
    let w := byteWord rs b d
    (n.extractLsb' 26 6 = 0 ∧ n.extractLsb' 7 19 = d ∧ n.getLsbD 6 = false ∧ n.extractLsb' 5 1 = rs ∧
      n.extractLsb' 1 4 = v ∧ n.getLsbD 0 = true) ∧
    (w.extractLsb' 13 19 = d ∧ w.getLsbD 12 = false ∧ w.extractLsb' 11 1 = rs ∧
      w.extractLsb' 7 4 = b.extractLsb' 0 4 ∧ w.getLsbD 6 = true ∧ w.extractLsb' 5 1 = rs ∧
      w.extractLsb' 1 4 = b.extractLsb' 4 4 ∧ w.getLsbD 0 = true)

/-- R49: the bits R46 calls ignored have no effect on the request decoded. -/
def Obligations.IgnoredRequestBitsHaveNoEffect : Prop :=
  ∀ w w' : ReqWord, w.extractLsb' 32 3 = w'.extractLsb' 32 3 →
    (w.extractLsb' 32 3 = 3#3 → w.extractLsb' 0 16 = w'.extractLsb' 0 16) →
    (w.extractLsb' 32 3 = 4#3 → w.extractLsb' 0 32 = w'.extractLsb' 0 32) →
    decodeRequest w = decodeRequest w'

/-- Words written out from the tables of 30_encoding.md and 95_test_vectors.md decode to what they stand for. -/
def Obligations.SampleWordsDecode : Prop :=
  decode (.req 0x300000204#35) = .ok (.position 2 4) ∧ decode (.req 0x400001000#35) = .ok (.writeString 0x1000) ∧
  decode (.req 0x600000000#35) = .ok .reserved6 ∧
  decode (.cw 0x00083407#32) = .ok (.cwNibble 0 0x3 4200) ∧ decode (.cw 0x00050C69#32) = .ok (.cwByte 1 4 1 8 40) ∧
  decode (.cw 0x00000050#32) = .ok (.cwDelayOnly 40) ∧ decode (.cw 0x00001041#32) = .ok (.cwMalformed 0x00001041) ∧
  decode (.seg6 0b000111#6) = .ok (.segWrite 0 0x3) ∧ decode (.seg20 0x50#20) = .ok (.segDelay 40) ∧
  decode (.out8 0x098#9) = .ok (.outSetDdramAddr 0x18) ∧ decode (.out4 0b00011#5) = .ok .outWakeNibble

/-! ### Reset and configuration -/

/-- R24, R136: construction leaves the values of R24; so does a reset at any time, whatever the state. That what the host
owns stays is the model's choice (log 20). -/
def Obligations.ResetLeavesTheSpecValues : Prop :=
  (∀ c : Configuration, AtReset c (State.resetWith c)) ∧
  ∀ (s : State) (rest : List Move), s.sched = .reset :: rest →
    ∃ t, step s = .next t ∧ AtReset s.cfg t ∧ t.requests = s.requests ∧ t.strMem = s.strMem ∧ t.sched = rest

/-- R117, R116, R122: the fault code when reset is released, for every configuration. -/
def Obligations.ConfigurationCheckAtReset : Prop :=
  ∀ c : Configuration,
    (¬ PinsDistinct c.pins → (State.resetWith c).fault.code = 1#3) ∧
    (PinsDistinct c.pins → c.backend = .direct → (State.resetWith c).fault.code = 0#3) ∧
    (PinsDistinct c.pins → c.backend = .seq → PinsConsecutive c.pins → (State.resetWith c).fault.code = 0#3) ∧
    (PinsDistinct c.pins → c.backend = .seq → ¬ PinsConsecutive c.pins → (State.resetWith c).fault.code = 2#3)

/-! ### The requests (R65 to R73, R118 to R121): what acceptance does, and that nothing else changes -/

/-- INIT when bound (R66, R140), and the bind step when not, in each backend (R67, R102, R103); the handle and the offset
are some values (log 11). -/
def Obligations.InitBindsOnceAndStartsTheHandshake : Prop :=
  ∀ s : State,
    (s.bound = true →
      exec .init s = .next { s with reqOp := 0, busy := true, step := 1, phase := .send4 0x03#5 }) ∧
    (s.bound = false → s.cfg.backend = .direct →
      exec .init s = .next { s with
        reqOp := 0, busy := true, step := 1, phase := .send4 0x03#5, bound := true,
        oe := s.oe ||| maskAll s.cfg.pins, pins := s.pins &&& ~~~maskAll s.cfg.pins,
        ptrace := s.ptrace ++ [.configureOutputs (maskAll s.cfg.pins)] }) ∧
    (s.bound = false → s.cfg.backend = .seq →
      ∃ offset handle, exec .init s = .next { s with
        reqOp := 0, busy := true, step := 1, phase := .send4 0x03#5, bound := true,
        progOffset := offset, unitHandle := handle, draws := s.draws + 1, xuRun := true, xuHave := false,
        oe := s.oe ||| maskAll s.cfg.pins, pins := s.pins &&& ~~~maskAll s.cfg.pins,
        ptrace := s.ptrace ++ [.configureOutputs (maskAll s.cfg.pins)],
        hostLog := s.hostLog ++
          [.loadProgram, .acquireUnit, .start handle offset s.cfg.pins.e s.cfg.pins.d0] })

/-- CLEAR and HOME (R68, R69), bound. -/
def Obligations.ClearAndHomeSendTheirByte : Prop :=
  ∀ s : State, s.bound = true →
    exec .clear s = .next { s with reqOp := 1, busy := true, phase := .send8 0x001#9 } ∧
    exec .home s = .next { s with reqOp := 2, busy := true, phase := .send8 0x002#9 }

/-- POSITION with a legal row (R70, R71, R13): the byte is `0x80 | ((ROW_START[row] + col) & 0x7F)`, sent with register
select 0, the row-start table written out. The latches, the code and the operand places are decisions of the spec (log 22). -/
def Obligations.PositionSendsTheAddressCommand : Prop :=
  ∀ (s : State) (row col : Byte) (base : Nat), s.bound = true →
    (row, base) ∈ [(0#8, 0x00), (1#8, 0x40), (2#8, 0x14), (3#8, 0x54)] →
    exec (.position row col) s = .next { s with
      reqOp := 3, busy := true, reqRow := row, reqCol := col,
      phase := .send8 ((0x80#8 ||| BitVec.ofNat 8 ((base + col.toNat) &&& 0x7F)).setWidth 9) }

/-- POSITION with a row of 4 or more (R118, R70, R65, R119; decisions of the spec, log 22): the fault, and nothing emitted. -/
def Obligations.PositionRowRangeFaults : Prop :=
  ∀ (s : State) (row col : Byte), s.bound = true → s.fault = .none → 4 ≤ row.toNat →
    exec (.position row col) s = .next { s with
      reqOp := 3, busy := true, reqRow := row, reqCol := col, fault := .rowRange }

/-- R118: ROW_RANGE is raised by POSITION when `row >= 4`, before anything is emitted. -/
def Obligations.RowRangeIsRaisedBeforeAnythingIsEmitted : Prop :=
  ∀ (s : State) (row col : Byte), s.bound = true → s.fault = .none → 4 ≤ row.toNat →
    ∃ t, exec (.position row col) s = .next t ∧ t.fault = .rowRange ∧ t.tlog = s.tlog ∧ t.qlog = s.qlog ∧
      t.queue = s.queue ∧ t.ptrace = s.ptrace ∧ t.pins = s.pins ∧ t.oe = s.oe

/-- WRITE_STRING (R72), bound: the pointer is latched and the first character is read next. -/
def Obligations.WriteStringLatchesThePointer : Prop :=
  ∀ (s : State) (ptr : StrAddr), s.bound = true →
    exec (.writeString ptr) s = .next { s with reqOp := 4, busy := true, strPtr := ptr, phase := .fetchChar }

/-- R120: every request but INIT faults before the first INIT, whatever its operands, and emits nothing. -/
def Obligations.RequestsBeforeInitFault : Prop :=
  ∀ s : State, s.bound = false → s.fault = .none →
    exec .clear s = .next { s with reqOp := 1, busy := true, fault := .notInitialised } ∧
    exec .home s = .next { s with reqOp := 2, busy := true, fault := .notInitialised } ∧
    (∀ row col, exec (.position row col) s = .next { s with
      reqOp := 3, busy := true, reqRow := row, reqCol := col, fault := .notInitialised }) ∧
    (∀ ptr, exec (.writeString ptr) s = .next { s with
      reqOp := 4, busy := true, strPtr := ptr, fault := .notInitialised })

/-- R121: the reserved codes fault, bound or not, and emit nothing. -/
def Obligations.ReservedRequestsFault : Prop :=
  ∀ s : State, s.fault = .none →
    exec .reserved5 s = .next { s with reqOp := 5, busy := true, fault := .illegalRequest } ∧
    exec .reserved6 s = .next { s with reqOp := 6, busy := true, fault := .illegalRequest } ∧
    exec .reserved7 s = .next { s with reqOp := 7, busy := true, fault := .illegalRequest }

/-! ### The values sent (R56, R66, R68 to R70, R72) -/

/-- A byte value is issued as one `write_byte` with its delay: latches, one `tlog` entry, nothing else (R75, R76). That the
character 0x00, which R72 never sends, is issued like any other is the model's choice (log 14). -/
def Obligations.OutBytesIssueOneWriteByte : Prop :=
  ∀ s : State,
    exec .outFunctionSet s = .next { s with
      tRs := 0, tVal := 0x28, tDly := 40, tlog := s.tlog ++ [.byte 0 0x28 40], phase := .opByte } ∧
    exec .outDisplayControl s = .next { s with
      tRs := 0, tVal := 0x0C, tDly := 40, tlog := s.tlog ++ [.byte 0 0x0C 40], phase := .opByte } ∧
    exec .outEntryMode s = .next { s with
      tRs := 0, tVal := 0x06, tDly := 40, tlog := s.tlog ++ [.byte 0 0x06 40], phase := .opByte } ∧
    exec .outClear s = .next { s with
      tRs := 0, tVal := 0x01, tDly := 2000, tlog := s.tlog ++ [.byte 0 0x01 2000], phase := .opByte } ∧
    exec .outHome s = .next { s with
      tRs := 0, tVal := 0x02, tDly := 1600, tlog := s.tlog ++ [.byte 0 0x02 1600], phase := .opByte } ∧
    (∀ a : BitVec 7, exec (.outSetDdramAddr a) s = .next { s with
      tRs := 0, tVal := 0x80#8 ||| a.setWidth 8, tDly := 40,
      tlog := s.tlog ++ [.byte 0 (0x80#8 ||| a.setWidth 8) 40], phase := .opByte }) ∧
    (∀ c : Byte, exec (.outData c) s = .next { s with
      tRs := 1, tVal := c, tDly := 40, tlog := s.tlog ++ [.byte 1 c 40], phase := .opByte })

/-- A lone nibble is issued as one `write_nibble` (R66): the wake nibble with the delay of its step, the mode nibble with
40. In a step R66 does not send the wake nibble in, it is issued with some delay (log 13). -/
def Obligations.OutNibblesIssueOneWriteNibble : Prop :=
  ∀ s : State,
    (∀ d : Delay, (s.step, d) ∈ [(1#4, 4200#19), (2#4, 100#19), (3#4, 40#19)] →
      exec .outWakeNibble s = .next { s with
        tRs := 0, tVal := (s.tVal &&& 0xF0#8) ||| 0x03#8, tDly := d, tlog := s.tlog ++ [.nibble 0 0x3 d],
        phase := .opNibble }) ∧
    (∃ d : Delay, exec .outWakeNibble s = .next { s with
        tRs := 0, tVal := (s.tVal &&& 0xF0#8) ||| 0x03#8, tDly := d, tlog := s.tlog ++ [.nibble 0 0x3 d],
        phase := .opNibble }) ∧
    exec .outMode4Nibble s = .next { s with
      tRs := 0, tVal := (s.tVal &&& 0xF0#8) ||| 0x02#8, tDly := 40, tlog := s.tlog ++ [.nibble 0 0x2 40],
      phase := .opNibble }

/-! ### The transport operations (R85, R90, R97 to R99) -/

/-- DIRECT (R85, R86, R90): the trace grows by the written-out events and the wait, if any; the queue, the logs, the
latches and everything but the pins and the sequencing state stay. That the whole operation is one step is log 3. -/
def Obligations.DirectTransportPerformsItsEvents : Prop :=
  ∀ (s : State) (rs : Rs) (v : Nibble) (b : Byte) (d : Delay), s.cfg.backend = .direct →
    let p := s.cfg.pins
    let pulse : List Event := [.setLevel p.e false, .wait 1, .setLevel p.e true, .wait 1, .setLevel p.e false, .wait 1]
    let last : List Event := if d = 0 then [] else [.wait d.toNat]
    let keeps := fun t : State =>
      t.cfg = s.cfg ∧ t.reqOp = s.reqOp ∧ t.reqRow = s.reqRow ∧ t.reqCol = s.reqCol ∧ t.tRs = s.tRs ∧
      t.tVal = s.tVal ∧ t.tDly = s.tDly ∧ t.bound = s.bound ∧ t.fault = s.fault ∧ t.progOffset = s.progOffset ∧
      t.unitHandle = s.unitHandle ∧ t.draws = s.draws ∧ t.oe = s.oe ∧ t.queue = s.queue ∧ t.xuRun = s.xuRun ∧
      t.xuOsr = s.xuOsr ∧ t.xuHave = s.xuHave ∧ t.xuWrites = s.xuWrites ∧ t.tlog = s.tlog ∧ t.qlog = s.qlog ∧
      t.hostLog = s.hostLog ∧ t.requests = s.requests ∧ t.strMem = s.strMem ∧ t.sched = s.sched
    (∃ t, exec (.writeNibble rs v d) s = .next t ∧ keeps t ∧
      t.ptrace = s.ptrace ++ .writeMasked (maskDataRs p) (pinValue p rs v) :: pulse ++ last) ∧
    (∃ t, exec (.writeByte rs b d) s = .next t ∧ keeps t ∧
      t.ptrace = s.ptrace ++ .writeMasked (maskDataRs p) (pinValue p rs (b.extractLsb' 4 4)) :: pulse ++
        .writeMasked (maskDataRs p) (pinValue p rs (b.extractLsb' 0 4)) :: pulse ++ last)

/-- DIRECT, the pins (R87, R58, R86): after an operation the register select and the four data lines stand at the last
nibble, the enable line is low, and every pin outside the PinSet is as before. -/
def Obligations.DirectTransportLeavesThePins : Prop :=
  ∀ (s : State) (rs : Rs) (v : Nibble) (b : Byte) (d : Delay), s.cfg.backend = .direct → PinsDistinct s.cfg.pins →
    let p := s.cfg.pins
    let stands := fun (t : State) (n : Nibble) =>
      pinLevel t.pins p.rs = rs.getLsbD 0 ∧ pinLevel t.pins p.d0 = n.getLsbD 0 ∧ pinLevel t.pins p.d1 = n.getLsbD 1 ∧
      pinLevel t.pins p.d2 = n.getLsbD 2 ∧ pinLevel t.pins p.d3 = n.getLsbD 3 ∧ pinLevel t.pins p.e = false ∧
      ∀ q : PinNum, q ∉ [p.e, p.rs, p.d0, p.d1, p.d2, p.d3] → pinLevel t.pins q = pinLevel s.pins q
    (∃ t, exec (.writeNibble rs v d) s = .next t ∧ stands t v) ∧
    (∃ t, exec (.writeByte rs b d) s = .next t ∧ stands t (b.extractLsb' 0 4))

/-- SEQ with room in the queue (R97, R98, R99): one word is appended to the queue and to `qlog`, the number R97 and R98
give, and no pin moves. -/
def Obligations.SeqTransportPushesOneWord : Prop :=
  ∀ (s : State) (rs : Rs) (v : Nibble) (b : Byte) (d : Delay), s.cfg.backend = .seq →
    s.queue.length < s.cfg.qdepth →
    let pushed := fun (t : State) (w : Nat) =>
      t.queue = s.queue ++ [BitVec.ofNat 32 w] ∧ t.qlog = s.qlog ++ [BitVec.ofNat 32 w] ∧
      t.hostLog = s.hostLog ++ [.push (BitVec.ofNat 32 w)] ∧
      t.cfg = s.cfg ∧ t.reqOp = s.reqOp ∧ t.reqRow = s.reqRow ∧ t.reqCol = s.reqCol ∧ t.tRs = s.tRs ∧
      t.tVal = s.tVal ∧ t.tDly = s.tDly ∧ t.bound = s.bound ∧ t.fault = s.fault ∧ t.progOffset = s.progOffset ∧
      t.unitHandle = s.unitHandle ∧ t.draws = s.draws ∧ t.pins = s.pins ∧ t.oe = s.oe ∧ t.xuRun = s.xuRun ∧
      t.xuOsr = s.xuOsr ∧ t.xuHave = s.xuHave ∧ t.xuWrites = s.xuWrites ∧ t.tlog = s.tlog ∧ t.ptrace = s.ptrace ∧
      t.requests = s.requests ∧ t.strMem = s.strMem ∧ t.sched = s.sched
    (∃ t, exec (.writeNibble rs v d) s = .next t ∧
      pushed t (d.toNat * 2 ^ 7 + rs.toNat * 2 ^ 5 + v.toNat * 2 + 1)) ∧
    (∃ t, exec (.writeByte rs b d) s = .next t ∧
      pushed t (d.toNat * 2 ^ 13 + rs.toNat * 2 ^ 11 + b.toNat % 16 * 2 ^ 7 + 2 ^ 6 + rs.toNat * 2 ^ 5 +
        b.toNat / 16 * 2 + 1))

/-- R97, R98, word and push as they write them, with room in the queue: one push of the word the encoder helpers build, one
more in `qlog`, nothing on the pins, no flag, no fault; the high nibble's segment lowest in a byte's word; and the worked
examples of both rules. -/
def Obligations.SeqOperationsPushTheHelpersWord : Prop :=
  (∀ (s : State) (rs : Rs) (v : Nibble) (b : Byte) (d : Delay), s.cfg.backend = .seq →
    s.queue.length < s.cfg.qdepth →
    let pushed := fun (t : State) (w : CmdWord) =>
      t.queue = s.queue ++ [w] ∧ t.qlog = s.qlog ++ [w] ∧ t.pins = s.pins ∧ t.oe = s.oe ∧ t.ptrace = s.ptrace ∧
      t.bound = s.bound ∧ t.fault = s.fault
    let byteW := addWriteCmd (addWriteCmd (addDelayCmd 0 d) rs (b.extractLsb' 0 4)) rs (b.extractLsb' 4 4)
    (∃ t, exec (.writeNibble rs v d) s = .next t ∧ pushed t (addWriteCmd (addDelayCmd 0 d) rs v)) ∧
    (∃ t, exec (.writeByte rs b d) s = .next t ∧ pushed t byteW) ∧
    byteW.extractLsb' 0 6 = (addWriteCmd 0 rs (b.extractLsb' 4 4)).extractLsb' 0 6) ∧
  addWriteCmd (addDelayCmd 0 4200) 0 0x3 = 0x00083407 ∧ addDelayCmd 0 40 = 0x50 ∧
  addWriteCmd 0x50 0 0x8 = 0x1411 ∧ addWriteCmd 0x1411 0 0x2 = 0x00050445

/-- SEQ with a full queue (R99): the FSM waits in the middle of the request, nothing is lost and nothing changes. -/
def Obligations.SeqTransportWaitsWhileTheQueueIsFull : Prop :=
  ∀ (s : State) (rs : Rs) (v : Nibble) (b : Byte) (d : Delay), s.cfg.backend = .seq →
    s.cfg.qdepth ≤ s.queue.length →
    exec (.writeNibble rs v d) s = .next s ∧ exec (.writeByte rs b d) s = .next s

/-- When the transport has finished an operation (R75, R77, R78, R72), in either backend: INIT goes to its next step or
completes after step 8; WRITE_STRING advances its pointer and reads on; every other request completes. -/
def Obligations.FinishedOperationMovesTheRequestOn : Prop :=
  ∀ (s : State) (rs : Rs) (v : Nibble) (b : Byte) (d : Delay) (i : Instr),
    i ∈ [.writeNibble rs v d, .writeByte rs b d] → (s.cfg.backend = .seq → s.queue.length < s.cfg.qdepth) →
    ∃ t, exec i s = .next t ∧
      (s.reqOp = 0 → ∀ ph, (s.step, ph) ∈ [(1#4, Phase.send4 0x03#5), (2#4, .send4 0x03#5), (3#4, .send4 0x02#5),
          (4#4, .send8 0x028#9), (5#4, .send8 0x00C#9), (6#4, .send8 0x006#9), (7#4, .send8 0x001#9)] →
        t.step = s.step + 1 ∧ t.phase = ph ∧ t.busy = s.busy ∧ t.strPtr = s.strPtr) ∧
      (s.reqOp = 0 → s.step = 8 → t.step = 0 ∧ t.phase = .idle ∧ t.busy = false ∧ t.strPtr = s.strPtr) ∧
      (s.reqOp = 4 → t.strPtr = s.strPtr + 1 ∧ t.phase = .fetchChar ∧ t.busy = s.busy ∧ t.step = s.step) ∧
      (s.reqOp ≠ 0 → s.reqOp ≠ 4 → t.step = 0 ∧ t.phase = .idle ∧ t.busy = false ∧ t.strPtr = s.strPtr)

/-! ### The execution unit (R104 to R109) -/

/-- A write segment (R106), the first or the second of its word: the seven events, the shift, nothing else; a third is
refused (R109). -/
def Obligations.SegWriteReplaysOneNibble : Prop :=
  ∀ (s : State) (rs : Rs) (v : Nibble),
    let p := s.cfg.pins
    let es : List Event := [.writeMasked (maskDataRs p) ((rs ++ v).setWidth 32 <<< p.d0.toNat), .setLevel p.e false,
      .wait 1, .setLevel p.e true, .wait 1, .setLevel p.e false, .wait 1]
    (s.xuWrites < 2 → exec (.segWrite rs v) s = .next { s with
      pins := es.foldl pinsAfter s.pins, ptrace := s.ptrace ++ es, xuOsr := s.xuOsr >>> 6,
      xuWrites := s.xuWrites + 1 }) ∧
    (2 ≤ s.xuWrites → exec (.segWrite rs v) s = .refused .thirdWriteSegment)

/-- A delay segment (R107) waits, if it has a delay, and ends the word; so does a delay-only word (R55 a). -/
def Obligations.SegDelayEndsTheWord : Prop :=
  ∀ (s : State) (d : Delay),
    let t := { s with ptrace := s.ptrace ++ (if d = 0 then [] else [.wait d.toNat]), xuHave := false }
    exec (.segDelay d) s = .next t ∧ exec (.cwDelayOnly d) s = .next t

/-- A whole word (R105): nibble, or high then low nibble, then the wait; the shift register moved by the segments
replayed; nothing else changes. -/
def Obligations.CommandWordsReplayInOrder : Prop :=
  ∀ (s : State) (rs r2 : Rs) (v v2 : Nibble) (d : Delay),
    let p := s.cfg.pins
    let one := fun (r : Rs) (n : Nibble) => ([.writeMasked (maskDataRs p) ((r ++ n).setWidth 32 <<< p.d0.toNat),
      .setLevel p.e false, .wait 1, .setLevel p.e true, .wait 1, .setLevel p.e false, .wait 1] : List Event)
    let last : List Event := if d = 0 then [] else [.wait d.toNat]
    exec (.cwNibble rs v d) s = .next { s with
      pins := (one rs v).foldl pinsAfter s.pins, ptrace := s.ptrace ++ one rs v ++ last,
      xuOsr := s.xuOsr >>> 6, xuWrites := s.xuWrites + 1, xuHave := false } ∧
    exec (.cwByte rs v r2 v2 d) s = .next { s with
      pins := (one rs v ++ one r2 v2).foldl pinsAfter s.pins, ptrace := s.ptrace ++ one rs v ++ one r2 v2 ++ last,
      xuOsr := s.xuOsr >>> 12, xuWrites := s.xuWrites + 2, xuHave := false }

/-- R109: a word with three write segments is refused, and no well-formed word but such a one is. -/
def Obligations.MalformedWordIsRefused : Prop :=
  (∀ (s : State) (w : CmdWord), exec (.cwMalformed w) s = .refused .malformedCommandWord) ∧
  ∀ (s : State) (w : CmdWord), (∃ r, exec (decodeCommandWord w) s = .refused r) ↔
    (w.getLsbD 0 = true ∧ w.getLsbD 6 = true ∧ w.getLsbD 12 = true)

/-- R108: a word taken whole is the word fetched and its segments taken one by one; malformed, both are refused. -/
def Obligations.WholeWordIsItsSegments : Prop :=
  ∀ (s : State) (w : CmdWord) (q : List CmdWord) (rest : List Move),
    s.xuRun = true → s.xuHave = false → s.queue = w :: q →
    (∀ n, (w.getLsbD 0 = false ∧ n = 2) ∨ (w.getLsbD 0 = true ∧ w.getLsbD 6 = false ∧ n = 3) ∨
        (w.getLsbD 0 = true ∧ w.getLsbD 6 = true ∧ w.getLsbD 12 = false ∧ n = 4) →
      step { s with sched := .xuWord :: rest } =
        Host.Core.run Sys2Proof.core n { s with sched := List.replicate n .xu ++ rest }) ∧
    (w.getLsbD 0 = true → w.getLsbD 6 = true → w.getLsbD 12 = true →
      step { s with sched := .xuWord :: rest } = .refused .malformedCommandWord ∧
      Host.Core.run Sys2Proof.core 4 { s with sched := List.replicate 4 .xu ++ rest } = .refused .thirdWriteSegment)

/-! ### Pins and the latched sequence (R12, R23, R58, R74, R87, R88, R92) -/

/-- R12: with distinct pins the masks have five and six bits, the pins of the PinSet and no others. -/
def Obligations.MasksAreThePinsOfThePinSet : Prop :=
  ∀ (p : PinSet) (q : PinNum),
    (pinLevel (maskDataRs p) q = true ↔ q ∈ [p.rs, p.d0, p.d1, p.d2, p.d3]) ∧
    (pinLevel (maskAll p) q = true ↔ q ∈ [p.e, p.rs, p.d0, p.d1, p.d2, p.d3])

/-- R87: the masked write puts the register select and the four bits on their pins and touches no other pin, the enable
line among them. -/
def Obligations.MaskedWriteSetsFivePins : Prop :=
  ∀ (p : PinSet) (pins : PinWord) (rs : Rs) (v : Nibble), PinsDistinct p →
    let after := pinsAfter pins (.writeMasked (maskDataRs p) (pinValue p rs v))
    pinLevel after p.rs = rs.getLsbD 0 ∧ pinLevel after p.d0 = v.getLsbD 0 ∧ pinLevel after p.d1 = v.getLsbD 1 ∧
    pinLevel after p.d2 = v.getLsbD 2 ∧ pinLevel after p.d3 = v.getLsbD 3 ∧
    ∀ q : PinNum, q ∉ [p.rs, p.d0, p.d1, p.d2, p.d3] → pinLevel after q = pinLevel pins q

/-- R58, R106: with consecutive pins, the value XU writes is PINVAL. -/
def Obligations.UnitWritesTheSamePinValue : Prop :=
  ∀ (p : PinSet) (rs : Rs) (v : Nibble), PinsConsecutive p →
    consecutiveValue p rs v = pinValue p rs v

/-- R88, R89, R92: a nibble write, the enable line low before it, adds exactly one element to the latched sequence, with
settle time `1 + d`, and takes at least `3 + d` microseconds. -/
def Obligations.NibbleWriteLatchesOnce : Prop :=
  ∀ (p : PinSet) (pins : PinWord) (rs : Rs) (v : Nibble) (d : Delay), PinsDistinct p → pinLevel pins p.e = false →
    latchedSeq p pins (directNibble p rs v d) = [{ rs := rs, v := v, settle := 1 + d.toNat }] ∧
    waitTotal (directNibble p rs v d) = 3 + d.toNat

/-- R74, R90, R92: a byte write adds the high nibble and then the low one, both with its register select, the first with
settle time 1 and the second with `1 + d`, and takes at least `6 + d` microseconds. -/
def Obligations.ByteWriteLatchesHighThenLow : Prop :=
  ∀ (p : PinSet) (pins : PinWord) (rs : Rs) (b : Byte) (d : Delay), PinsDistinct p → pinLevel pins p.e = false →
    latchedSeq p pins (directByte p rs b d) =
      [{ rs := rs, v := b.extractLsb' 4 4, settle := 1 }, { rs := rs, v := b.extractLsb' 0 4, settle := 1 + d.toNat }] ∧
    waitTotal (directByte p rs b d) = 6 + d.toNat

/-- R71, R57, 90_conflicts.md C5: masking the column, or cutting the sum at 8 bits, gives the same address; the address
depends on the column modulo 128 alone. -/
def Obligations.AddressDependsOnColumnMod128 : Prop :=
  ∀ row col : Byte,
    (ddramAddress row col).toNat = ((rowStart (row.setWidth 2)).toNat + col.toNat) % 128 ∧
    ddramAddress row col = (rowStart (row.setWidth 2) + col).setWidth 7 ∧
    ∀ col' : Byte, col.toNat % 128 = col'.toNat % 128 → ddramAddress row col = ddramAddress row col'

/-- R57: the address is `(ROW_START[row] + col) & 0x7F`, 7 bits in bits [6:0] of the command byte under bit 7 of 1; the sum
is taken before the mask, so a column never disturbs bit 7. -/
def Obligations.DdramAddressIsPlacedUnderBitSeven : Prop :=
  ∀ row col : Byte,
    let a := ((rowStart (row.setWidth 2)).toNat + col.toNat) % 128
    let cmd := setDdramByte (ddramAddress row col)
    (ddramAddress row col).toNat = a ∧ (cmd.extractLsb' 0 7).toNat = a ∧ cmd.getLsbD 7 = true

/-! ### A step runs the decoded instruction -/

/-- The FSM's move runs what the word at its place decodes to: the request at the port, taken off it (R65); the value to
send; the transport operation in the latches (R75). -/
def Obligations.FsmStepRunsTheDecodedInstruction : Prop :=
  ∀ (s : State) (rest : List Move) (i : Instr), s.sched = .fsm :: rest → s.fault = .none →
    (∀ w ws, s.phase = .idle → s.busy = false → s.requests = w :: ws → decode (.req w) = .ok i →
      step s = exec i { s with sched := rest, requests := ws }) ∧
    (∀ w, s.phase = .send8 w → decode (.out8 w) = .ok i → step s = exec i { s with sched := rest }) ∧
    (∀ w, s.phase = .send4 w → decode (.out4 w) = .ok i → step s = exec i { s with sched := rest }) ∧
    (s.phase = .opNibble → 
      decode (.top24 (s.tRs.setWidth 24 <<< 23 ||| (s.tVal.extractLsb' 0 4).setWidth 24 <<< 19 ||| s.tDly.setWidth 24)) = .ok i →
      step s = exec i { s with sched := rest }) ∧
    (s.phase = .opByte →
      decode (.top28 (s.tRs.setWidth 28 <<< 27 ||| s.tVal.setWidth 28 <<< 19 ||| s.tDly.setWidth 28)) = .ok i →
      step s = exec i { s with sched := rest })

/-- XU's move runs the segment at the low end of the shift register (R105), or the whole word at the head of the queue,
which it takes off the queue into the shift register (R104, R108); the fetch alone is a move of its own (R104). -/
def Obligations.UnitStepRunsTheDecodedInstruction : Prop :=
  ∀ (s : State) (rest : List Move), s.xuRun = true →
    (∀ m i, m ∈ [.xu, .xuWord] → s.sched = m :: rest → s.xuHave = true → s.xuOsr.getLsbD 0 = true →
      decode (.seg6 (s.xuOsr.extractLsb' 0 6)) = .ok i → step s = exec i { s with sched := rest }) ∧
    (∀ m i, m ∈ [.xu, .xuWord] → s.sched = m :: rest → s.xuHave = true → s.xuOsr.getLsbD 0 = false →
      decode (.seg20 (s.xuOsr.extractLsb' 0 20)) = .ok i → step s = exec i { s with sched := rest }) ∧
    (∀ w q i, s.sched = .xuWord :: rest → s.xuHave = false → s.queue = w :: q → decode (.cw w) = .ok i →
      step s = exec i { s with sched := rest, queue := q, xuOsr := w, xuHave := true, xuWrites := 0 }) ∧
    (∀ w q, s.sched = .xu :: rest → s.xuHave = false → s.queue = w :: q →
      step s = .next { s with sched := rest, queue := q, xuOsr := w, xuHave := true, xuWrites := 0 })

/-- R73, R72: the character is read at `str_ptr`; the sentinel completes the request and is not sent, any other byte is
sent unchanged with register select 1. -/
def Obligations.CharacterFetchStopsAtTheSentinel : Prop :=
  ∀ (s : State) (rest : List Move), s.sched = .fsm :: rest → s.fault = .none → s.phase = .fetchChar →
    (s.strMem.read s.strPtr.toNat = 0 → step s = .next { s with
      sched := rest, hostLog := s.hostLog ++ [.memRead s.strPtr], busy := false, step := 0, phase := .idle }) ∧
    (s.strMem.read s.strPtr.toNat ≠ 0 → step s = .next { s with
      sched := rest, hostLog := s.hostLog ++ [.memRead s.strPtr],
      phase := .send8 (0x100#9 ||| (s.strMem.read s.strPtr.toNat).setWidth 9) })

/-- R65, R119, R104, R130: an agent with no step waits and nothing changes: a faulted FSM, an FSM with nothing at the
port, a unit not started, a unit with no word. That waiting is a next state is the model's choice (log 18). -/
def Obligations.WaitingAgentsChangeNothing : Prop :=
  ∀ (s : State) (rest : List Move),
    (s.sched = .fsm :: rest → s.fault ≠ .none → step s = .next { s with sched := rest }) ∧
    (s.sched = .fsm :: rest → s.phase = .idle → (s.requests = [] ∨ s.busy = true) →
      step s = .next { s with sched := rest }) ∧
    (∀ m, m ∈ [.xu, .xuWord] → s.sched = m :: rest → (s.xuRun = false ∨ (s.xuHave = false ∧ s.queue = [])) →
      step s = .next { s with sched := rest })

/-- The model's choice (log 4): with no move scheduled, the step is one of the agents', never anything else. -/
def Obligations.UnscheduledStepIsAnAgentsStep : Prop :=
  ∀ s : State, s.sched = [] →
    step s = step { s with sched := [.fsm] } ∨ step s = step { s with sched := [.xu] }

/-- R43, U19: a host write changes the one byte of the string memory and nothing else. -/
def Obligations.HostWriteChangesOneByte : Prop :=
  ∀ (s : State) (a : StrAddr) (b : Byte) (rest : List Move), s.sched = .hostWrite a b :: rest → s.strMem.wf = true →
    ∃ m, step s = .next { s with sched := rest, strMem := m } ∧ m.wf = true ∧ m.read a.toNat = b ∧
      ∀ a', a' ≠ a.toNat → m.read a' = s.strMem.read a'

/-! ### Whole requests -/

/-- CLEAR, HOME and POSITION from acceptance to completion in DIRECT (R68 to R70, R77, R91): three moves of the FSM, one
`tlog` entry, the events of one byte write. -/
def Obligations.OneByteRequestsCompleteInDirect : Prop :=
  ∀ (s : State) (w : ReqWord) (ws : List ReqWord) (rest : List Move) (b : Byte) (d : Delay),
    s.cfg.backend = .direct → s.bound = true → s.fault = .none → s.busy = false → s.phase = .idle →
    s.requests = w :: ws → s.sched = [.fsm, .fsm, .fsm] ++ rest →
    (decodeRequest w = .clear ∧ b = 0x01 ∧ d = 2000 ∨ decodeRequest w = .home ∧ b = 0x02 ∧ d = 1600 ∨
      (∃ row col, decodeRequest w = .position row col ∧ row.toNat < 4 ∧ b = 0x80 ||| (ddramAddress row col).setWidth 8 ∧ d = 40)) →
    ∃ t, Host.Core.run Sys2Proof.core 3 s = .next t ∧ t.busy = false ∧ t.phase = .idle ∧ t.fault = .none ∧
      t.bound = true ∧ t.requests = ws ∧ t.sched = rest ∧ t.tlog = s.tlog ++ [.byte 0 b d] ∧
      t.ptrace = s.ptrace ++ directByte s.cfg.pins 0 b d ∧ t.qlog = s.qlog ∧ t.strMem = s.strMem

/-- The same in SEQ with room in the queue (R77, R98): one word is pushed, the pins do not move. -/
def Obligations.OneByteRequestsCompleteInSeq : Prop :=
  ∀ (s : State) (w : ReqWord) (ws : List ReqWord) (rest : List Move) (word : CmdWord),
    s.cfg.backend = .seq → s.queue.length < s.cfg.qdepth → s.bound = true → s.fault = .none → s.busy = false →
    s.phase = .idle → s.requests = w :: ws → s.sched = [.fsm, .fsm, .fsm] ++ rest →
    (decodeRequest w = .clear ∧ word = 0x00FA00C1 ∨ decodeRequest w = .home ∧ word = 0x00C80141 ∨
      (∃ row col, decodeRequest w = .position row col ∧ row.toNat < 4 ∧
        word = byteWord 0 (0x80 ||| (ddramAddress row col).setWidth 8) 40)) →
    ∃ t, Host.Core.run Sys2Proof.core 3 s = .next t ∧ t.busy = false ∧ t.phase = .idle ∧ t.fault = .none ∧
      t.requests = ws ∧ t.sched = rest ∧ t.queue = s.queue ++ [word] ∧ t.qlog = s.qlog ++ [word] ∧
      t.ptrace = s.ptrace ∧ t.pins = s.pins

/-- INIT from acceptance to completion (R66, R67, R140), first or repeated, by moves of the FSM alone, in SEQ with room in
the queue for its eight words: the eight entries of `tlog`, in DIRECT their events, in SEQ their eight words. For every
QDEPTH, with XU moving between: RequestsLogTheSameUnderEverySchedule. -/
def Obligations.InitSendsTheEightSteps : Prop :=
  ∀ (s : State) (w : ReqWord) (ws : List ReqWord) (rest : List Move),
    s.fault = .none → s.busy = false → s.phase = .idle → s.requests = w :: ws → decodeRequest w = .init →
    s.sched = List.replicate 17 .fsm ++ rest →
    (s.cfg.backend = .seq → s.queue.length + 8 ≤ s.cfg.qdepth) →
    let ops : List TransportOp := [.nibble 0 0x3 4200, .nibble 0 0x3 100, .nibble 0 0x3 40, .nibble 0 0x2 40,
      .byte 0 0x28 40, .byte 0 0x0C 40, .byte 0 0x06 40, .byte 0 0x01 2000]
    let bind : List Event := if s.bound then [] else [.configureOutputs (maskAll s.cfg.pins)]
    ∃ t, Host.Core.run Sys2Proof.core 17 s = .next t ∧ t.busy = false ∧ t.step = 0 ∧ t.phase = .idle ∧
      t.bound = true ∧ t.fault = .none ∧ t.requests = ws ∧ t.sched = rest ∧ t.tlog = s.tlog ++ ops ∧
      (s.cfg.backend = .direct → t.ptrace = s.ptrace ++ bind ++ ops.flatMap (directEvents s.cfg.pins) ∧
        t.qlog = s.qlog) ∧
      (s.cfg.backend = .seq → t.ptrace = s.ptrace ++ bind ∧
        t.qlog = s.qlog ++ [0x00083407, 0x00003207, 0x00001407, 0x00001405, 0x00050445, 0x00050641, 0x00050341,
          0x00FA00C1])

/-- WRITE_STRING from acceptance to completion (R72, R73, R31) by moves of the FSM alone, in SEQ with room in the queue for
a word per character: for every string ended by the sentinel 0x00 (log 23), the empty one and one that wraps among them,
one character write each in order and nothing else in `tlog`, and in both backends `n + 1` reads, each after the write of
the character before. With less room, and with XU moving between: RequestsLogTheSameUnderEverySchedule. -/
def Obligations.WriteStringSendsEveryCharacter : Prop :=
  ∀ (s : State) (w : ReqWord) (ws : List ReqWord) (rest : List Move) (ptr : StrAddr) (cs : List Byte),
    s.bound = true → s.fault = .none → s.busy = false → s.phase = .idle → s.requests = w :: ws →
    decodeRequest w = .writeString ptr →
    s.sched = List.replicate (3 * cs.length + 2) .fsm ++ rest →
    (s.cfg.backend = .seq → s.queue.length + cs.length ≤ s.cfg.qdepth) →
    (∀ c ∈ cs, c ≠ 0) →
    (∀ k (h : k < cs.length), s.strMem.read (ptr + BitVec.ofNat 32 k).toNat = cs[k]) →
    s.strMem.read (ptr + BitVec.ofNat 32 cs.length).toNat = 0 →
    ∃ t, Host.Core.run Sys2Proof.core (3 * cs.length + 2) s = .next t ∧ t.busy = false ∧ t.phase = .idle ∧
      t.fault = .none ∧ t.requests = ws ∧ t.sched = rest ∧ t.strPtr = ptr + BitVec.ofNat 32 cs.length ∧
      t.tlog = s.tlog ++ cs.map (fun c => .byte 1 c 40) ∧ t.strMem = s.strMem ∧
      (s.cfg.backend = .direct → t.ptrace = s.ptrace ++ cs.flatMap (fun c => directByte s.cfg.pins 1 c 40) ∧
        t.hostLog = s.hostLog ++ (List.range (cs.length + 1)).map (fun k => .memRead (ptr + BitVec.ofNat 32 k))) ∧
      (s.cfg.backend = .seq → t.ptrace = s.ptrace ∧ t.qlog = s.qlog ++ cs.map (fun c => byteWord 1 c 40) ∧
        t.hostLog = s.hostLog ++
          cs.zipIdx.flatMap (fun c => [.memRead (ptr + BitVec.ofNat 32 c.2), .push (byteWord 1 c.1 40)]) ++
          [.memRead (ptr + BitVec.ofNat 32 cs.length)])

/-- Every request that raises no fault (R66, R68 to R70, R72, R73, R76, R77), under every schedule of FSM and XU moves and
every QDEPTH: until it is accepted nothing is issued; from then on `tlog` has grown by the first `k` of its operations,
and when it is complete by all of them, with all its reads, in SEQ all its words, in DIRECT their events. -/
def Obligations.RequestsLogTheSameUnderEverySchedule : Prop :=
  ∀ (s : State) (w : ReqWord) (ws : List ReqWord) (ops : List TransportOp) (reads : List StrAddr) (moves rest : List Move),
    Inv s → ready s = true → s.requests = w :: ws → Issues s (decodeRequest w) ops reads →
    (∀ m ∈ moves, m ∈ [.fsm, .xu, .xuWord]) → s.sched = moves ++ rest →
    ∃ t, Host.Core.run Sys2Proof.core moves.length s = .next t ∧ t.sched = rest ∧
      (t.requests = s.requests → ready t = true ∧ t.tlog = s.tlog ∧ t.qlog = s.qlog ∧ t.hostLog = s.hostLog) ∧
      (t.requests = ws → t.fault = .none ∧ t.bound = true ∧
        (∃ k, k ≤ ops.length ∧ t.tlog = s.tlog ++ ops.take k) ∧
        (t.busy = false →
          t.tlog = s.tlog ++ ops ∧
          t.hostLog.filterMap HostEvent.readAddr = s.hostLog.filterMap HostEvent.readAddr ++ reads ∧
          (s.cfg.backend = .seq → t.qlog = s.qlog ++ ops.map opWord) ∧
          (s.cfg.backend = .direct → t.ptrace = s.ptrace ++
            (if s.bound then [] else [.configureOutputs (maskAll s.cfg.pins)]) ++
            ops.flatMap (directEvents s.cfg.pins))))

/-- R152: under weak fairness of FSM and XU, QDEPTH at least 1 and without a reset, from every state with the invariant,
(1) a request at the port of a ready block is accepted, (2) a full queue that holds up the FSM gets space, and (3) an
accepted request that raised no fault completes, in SEQ through a full queue too, if a sentinel (log 23) stays in StrMem.
The end of a Wait is part of its agent's step (log 3). -/
def Obligations.RequestsCompleteUnderWeakFairness : Prop :=
  ∀ (moves : Nat → Move) (run : Nat → State), RunUnder moves run → WeaklyFair moves run → Inv (run 0) →
    0 < (run 0).cfg.qdepth → (∀ n, moves n ≠ .reset) →
    (∀ n, ready (run n) = true → (run n).requests ≠ [] → ∃ k, n ≤ k ∧ (run k).busy = true) ∧
    (∀ n, blocked (run n) = true → ∃ k, n ≤ k ∧ canPush (run k) = true) ∧
    (KeepsSentinel run → ∀ n, (run n).busy = true → (run n).fault = .none →
      ∃ k, n ≤ k ∧ (run k).busy = false ∧ (run k).fault = .none)

/-- R151: the pin-side minimum durations of the requests, from the events of their transport operations. -/
def Obligations.MinimumDurations : Prop :=
  ∀ (p : PinSet) (b : Byte) (cs : List Byte),
    waitTotal (directByte p 0 0x01 2000) = 2006 ∧ waitTotal (directByte p 0 0x02 1600) = 1606 ∧
    waitTotal (directByte p 0 b 40) = 46 ∧
    waitTotal (cs.flatMap fun c => directByte p 1 c 40) = 46 * cs.length ∧
    waitTotal (([.nibble 0 0x3 4200, .nibble 0 0x3 100, .nibble 0 0x3 40, .nibble 0 0x2 40, .byte 0 0x28 40,
      .byte 0 0x0C 40, .byte 0 0x06 40, .byte 0 0x01 2000] : List TransportOp).flatMap (directEvents p)) = 6536

/-! ### Invariants and rules of the whole machine -/

/-- The invariant holds after reset, whatever the configuration. That no pin outside the six is an output is the model's
choice (log 2). -/
def Obligations.InvariantsHoldAtReset : Prop :=
  ∀ c : Configuration, Inv (State.resetWith c) ∧ TraceInv (State.resetWith c)

/-- Every step keeps the invariant. -/
def Obligations.EveryStepKeepsTheInvariant : Prop :=
  ∀ s t : State, Inv s → step s = .next t → Inv t

/-- Every step keeps the agreement of the logs (R22, R40, R112). -/
def Obligations.EveryStepKeepsTheTraceInvariant : Prop :=
  ∀ s t : State, Inv s → TraceInv s → step s = .next t → TraceInv t

/-- R112: at quiescence the pin trace is the binding and then, for each entry of `tlog` in order, the events DIRECT
performs for it, in both backends. -/
def Obligations.QuiescentTraceIsTheSameInBothBackends : Prop :=
  ∀ s : State, Inv s → TraceInv s → Quiescent s →
    s.ptrace = (if s.bound then [.configureOutputs (maskAll s.cfg.pins)] else []) ++
      s.tlog.flatMap (directEvents s.cfg.pins)

/-- R55, R109, R115: no state with the invariant is refused a step; ordinary data never ends a run. -/
def Obligations.NoReachableStepIsRefused : Prop :=
  ∀ s : State, Inv s → ∃ t, step s = .next t

/-- R17, R119, R123, R122: once set, the fault is changed by reset alone, and so is `bound` (R16). -/
def Obligations.OnlyResetClearsFaultAndBound : Prop :=
  ∀ (s t : State), step s = .next t → (∀ rest, s.sched ≠ .reset :: rest) →
    (s.fault ≠ .none → t.fault = s.fault) ∧ (s.bound = true → t.bound = true)

/-- R135, R19, R30: no step changes the configuration; none changes a pin outside the PinSet but reset; none but the
host's write changes the string memory. -/
def Obligations.WhatNoStepChanges : Prop :=
  ∀ (s t : State), step s = .next t →
    t.cfg = s.cfg ∧
    ((∀ rest, s.sched ≠ .reset :: rest) → ∀ q : PinNum, pinLevel (maskAll s.cfg.pins) q = false →
      pinLevel t.pins q = pinLevel s.pins q) ∧
    ((∀ a b rest, s.sched ≠ .hostWrite a b :: rest) → t.strMem = s.strMem)

/-- R22: the logs only grow, until reset. -/
def Obligations.LogsOnlyGrow : Prop :=
  ∀ (s t : State), step s = .next t → (∀ rest, s.sched ≠ .reset :: rest) →
    s.tlog <+: t.tlog ∧ s.ptrace <+: t.ptrace ∧ s.qlog <+: t.qlog ∧ s.hostLog <+: t.hostLog

/-- R10, R129, R42: in SEQ after the binding the FSM drives no pin, touches no register of XU and shares with it the
queue alone, to which it appends at most one word a step. -/
def Obligations.SeqFsmDrivesNoPin : Prop :=
  ∀ (s t : State) (rest : List Move), s.cfg.backend = .seq → s.bound = true → s.sched = .fsm :: rest →
    step s = .next t →
    t.pins = s.pins ∧ t.oe = s.oe ∧ t.ptrace = s.ptrace ∧ t.xuRun = s.xuRun ∧ t.xuOsr = s.xuOsr ∧
    t.xuHave = s.xuHave ∧ t.xuWrites = s.xuWrites ∧
    (t.queue = s.queue ∧ t.qlog = s.qlog ∨ ∃ w, t.queue = s.queue ++ [w] ∧ t.qlog = s.qlog ++ [w])

/-- R10, R18, R110, R111, R122: XU touches nothing of the FSM's (its registers of 10_state.md section 3, its flags, its logs,
the transport handle), nothing of the host's, no output enable; it raises no fault, takes at most the head word off the
queue, and moves the same whatever the FSM's fault. -/
def Obligations.UnitTouchesNothingOfTheFsm : Prop :=
  ∀ (s t : State) (m : Move) (rest : List Move), m ∈ [.xu, .xuWord] → s.sched = m :: rest → step s = .next t →
    t.cfg = s.cfg ∧ t.reqOp = s.reqOp ∧ t.reqRow = s.reqRow ∧ t.reqCol = s.reqCol ∧ t.strPtr = s.strPtr ∧
    t.tRs = s.tRs ∧ t.tVal = s.tVal ∧ t.tDly = s.tDly ∧ t.busy = s.busy ∧ t.step = s.step ∧ t.phase = s.phase ∧
    t.bound = s.bound ∧ t.fault = s.fault ∧ t.progOffset = s.progOffset ∧ t.unitHandle = s.unitHandle ∧
    t.draws = s.draws ∧ t.tlog = s.tlog ∧ t.qlog = s.qlog ∧ t.hostLog = s.hostLog ∧ t.requests = s.requests ∧
    t.strMem = s.strMem ∧ t.sched = rest ∧ t.oe = s.oe ∧ t.xuRun = s.xuRun ∧
    (t.queue = s.queue ∨ t.queue = s.queue.tail) ∧
    ∀ c : Cause, step { s with fault := c } = .next { t with fault := c }

/-- R152, R99: FSM and XU never wait for each other: when the FSM waits for space in the queue, XU has a step, and once
XU has fetched a word the FSM's push goes through. -/
def Obligations.NoDeadlock : Prop :=
  ∀ s : State, Inv s → 0 < s.cfg.qdepth → blocked s = true →
    (xuAction s).isWait = false ∧
    ∀ w, xuAction s = .load w → canPush (xuLoad w s) = true
end

