-- ==== Sys2Proof/Laws/State.lean ====
section
/-!
SUPPORT. One lemma per field per update of State: what each operation of Machine/Flags.lean and Machine/Ops.lean does to
each field, so that no later proof unfolds a record update.
-/
namespace Sys2Proof.Machine

/-! ### accept -/

@[simp] theorem accept_cfg (op : BitVec 3) (s : State) : (accept op s).cfg = s.cfg := rfl
@[simp] theorem accept_reqOp (op : BitVec 3) (s : State) : (accept op s).reqOp = op := rfl
@[simp] theorem accept_reqRow (op : BitVec 3) (s : State) : (accept op s).reqRow = s.reqRow := rfl
@[simp] theorem accept_reqCol (op : BitVec 3) (s : State) : (accept op s).reqCol = s.reqCol := rfl
@[simp] theorem accept_strPtr (op : BitVec 3) (s : State) : (accept op s).strPtr = s.strPtr := rfl
@[simp] theorem accept_tRs (op : BitVec 3) (s : State) : (accept op s).tRs = s.tRs := rfl
@[simp] theorem accept_tVal (op : BitVec 3) (s : State) : (accept op s).tVal = s.tVal := rfl
@[simp] theorem accept_tDly (op : BitVec 3) (s : State) : (accept op s).tDly = s.tDly := rfl
@[simp] theorem accept_busy (op : BitVec 3) (s : State) : (accept op s).busy = true := rfl
@[simp] theorem accept_step (op : BitVec 3) (s : State) : (accept op s).step = s.step := rfl
@[simp] theorem accept_phase (op : BitVec 3) (s : State) : (accept op s).phase = s.phase := rfl
@[simp] theorem accept_bound (op : BitVec 3) (s : State) : (accept op s).bound = s.bound := rfl
@[simp] theorem accept_fault (op : BitVec 3) (s : State) : (accept op s).fault = s.fault := rfl
@[simp] theorem accept_progOffset (op : BitVec 3) (s : State) : (accept op s).progOffset = s.progOffset := rfl
@[simp] theorem accept_unitHandle (op : BitVec 3) (s : State) : (accept op s).unitHandle = s.unitHandle := rfl
@[simp] theorem accept_draws (op : BitVec 3) (s : State) : (accept op s).draws = s.draws := rfl
@[simp] theorem accept_pins (op : BitVec 3) (s : State) : (accept op s).pins = s.pins := rfl
@[simp] theorem accept_oe (op : BitVec 3) (s : State) : (accept op s).oe = s.oe := rfl
@[simp] theorem accept_queue (op : BitVec 3) (s : State) : (accept op s).queue = s.queue := rfl
@[simp] theorem accept_xuRun (op : BitVec 3) (s : State) : (accept op s).xuRun = s.xuRun := rfl
@[simp] theorem accept_xuOsr (op : BitVec 3) (s : State) : (accept op s).xuOsr = s.xuOsr := rfl
@[simp] theorem accept_xuHave (op : BitVec 3) (s : State) : (accept op s).xuHave = s.xuHave := rfl
@[simp] theorem accept_xuWrites (op : BitVec 3) (s : State) : (accept op s).xuWrites = s.xuWrites := rfl
@[simp] theorem accept_tlog (op : BitVec 3) (s : State) : (accept op s).tlog = s.tlog := rfl
@[simp] theorem accept_ptrace (op : BitVec 3) (s : State) : (accept op s).ptrace = s.ptrace := rfl
@[simp] theorem accept_qlog (op : BitVec 3) (s : State) : (accept op s).qlog = s.qlog := rfl
@[simp] theorem accept_hostLog (op : BitVec 3) (s : State) : (accept op s).hostLog = s.hostLog := rfl
@[simp] theorem accept_requests (op : BitVec 3) (s : State) : (accept op s).requests = s.requests := rfl
@[simp] theorem accept_strMem (op : BitVec 3) (s : State) : (accept op s).strMem = s.strMem := rfl
@[simp] theorem accept_sched (op : BitVec 3) (s : State) : (accept op s).sched = s.sched := rfl

/-! ### complete -/

@[simp] theorem complete_cfg (s : State) : (complete s).cfg = s.cfg := rfl
@[simp] theorem complete_reqOp (s : State) : (complete s).reqOp = s.reqOp := rfl
@[simp] theorem complete_reqRow (s : State) : (complete s).reqRow = s.reqRow := rfl
@[simp] theorem complete_reqCol (s : State) : (complete s).reqCol = s.reqCol := rfl
@[simp] theorem complete_strPtr (s : State) : (complete s).strPtr = s.strPtr := rfl
@[simp] theorem complete_tRs (s : State) : (complete s).tRs = s.tRs := rfl
@[simp] theorem complete_tVal (s : State) : (complete s).tVal = s.tVal := rfl
@[simp] theorem complete_tDly (s : State) : (complete s).tDly = s.tDly := rfl
@[simp] theorem complete_busy (s : State) : (complete s).busy = false := rfl
@[simp] theorem complete_step (s : State) : (complete s).step = 0 := rfl
@[simp] theorem complete_phase (s : State) : (complete s).phase = .idle := rfl
@[simp] theorem complete_bound (s : State) : (complete s).bound = s.bound := rfl
@[simp] theorem complete_fault (s : State) : (complete s).fault = s.fault := rfl
@[simp] theorem complete_progOffset (s : State) : (complete s).progOffset = s.progOffset := rfl
@[simp] theorem complete_unitHandle (s : State) : (complete s).unitHandle = s.unitHandle := rfl
@[simp] theorem complete_draws (s : State) : (complete s).draws = s.draws := rfl
@[simp] theorem complete_pins (s : State) : (complete s).pins = s.pins := rfl
@[simp] theorem complete_oe (s : State) : (complete s).oe = s.oe := rfl
@[simp] theorem complete_queue (s : State) : (complete s).queue = s.queue := rfl
@[simp] theorem complete_xuRun (s : State) : (complete s).xuRun = s.xuRun := rfl
@[simp] theorem complete_xuOsr (s : State) : (complete s).xuOsr = s.xuOsr := rfl
@[simp] theorem complete_xuHave (s : State) : (complete s).xuHave = s.xuHave := rfl
@[simp] theorem complete_xuWrites (s : State) : (complete s).xuWrites = s.xuWrites := rfl
@[simp] theorem complete_tlog (s : State) : (complete s).tlog = s.tlog := rfl
@[simp] theorem complete_ptrace (s : State) : (complete s).ptrace = s.ptrace := rfl
@[simp] theorem complete_qlog (s : State) : (complete s).qlog = s.qlog := rfl
@[simp] theorem complete_hostLog (s : State) : (complete s).hostLog = s.hostLog := rfl
@[simp] theorem complete_requests (s : State) : (complete s).requests = s.requests := rfl
@[simp] theorem complete_strMem (s : State) : (complete s).strMem = s.strMem := rfl
@[simp] theorem complete_sched (s : State) : (complete s).sched = s.sched := rfl

/-! ### setBound -/

@[simp] theorem setBound_cfg (s : State) : (setBound s).cfg = s.cfg := rfl
@[simp] theorem setBound_reqOp (s : State) : (setBound s).reqOp = s.reqOp := rfl
@[simp] theorem setBound_reqRow (s : State) : (setBound s).reqRow = s.reqRow := rfl
@[simp] theorem setBound_reqCol (s : State) : (setBound s).reqCol = s.reqCol := rfl
@[simp] theorem setBound_strPtr (s : State) : (setBound s).strPtr = s.strPtr := rfl
@[simp] theorem setBound_tRs (s : State) : (setBound s).tRs = s.tRs := rfl
@[simp] theorem setBound_tVal (s : State) : (setBound s).tVal = s.tVal := rfl
@[simp] theorem setBound_tDly (s : State) : (setBound s).tDly = s.tDly := rfl
@[simp] theorem setBound_busy (s : State) : (setBound s).busy = s.busy := rfl
@[simp] theorem setBound_step (s : State) : (setBound s).step = s.step := rfl
@[simp] theorem setBound_phase (s : State) : (setBound s).phase = s.phase := rfl
@[simp] theorem setBound_bound (s : State) : (setBound s).bound = true := rfl
@[simp] theorem setBound_fault (s : State) : (setBound s).fault = s.fault := rfl
@[simp] theorem setBound_progOffset (s : State) : (setBound s).progOffset = s.progOffset := rfl
@[simp] theorem setBound_unitHandle (s : State) : (setBound s).unitHandle = s.unitHandle := rfl
@[simp] theorem setBound_draws (s : State) : (setBound s).draws = s.draws := rfl
@[simp] theorem setBound_pins (s : State) : (setBound s).pins = s.pins := rfl
@[simp] theorem setBound_oe (s : State) : (setBound s).oe = s.oe := rfl
@[simp] theorem setBound_queue (s : State) : (setBound s).queue = s.queue := rfl
@[simp] theorem setBound_xuRun (s : State) : (setBound s).xuRun = s.xuRun := rfl
@[simp] theorem setBound_xuOsr (s : State) : (setBound s).xuOsr = s.xuOsr := rfl
@[simp] theorem setBound_xuHave (s : State) : (setBound s).xuHave = s.xuHave := rfl
@[simp] theorem setBound_xuWrites (s : State) : (setBound s).xuWrites = s.xuWrites := rfl
@[simp] theorem setBound_tlog (s : State) : (setBound s).tlog = s.tlog := rfl
@[simp] theorem setBound_ptrace (s : State) : (setBound s).ptrace = s.ptrace := rfl
@[simp] theorem setBound_qlog (s : State) : (setBound s).qlog = s.qlog := rfl
@[simp] theorem setBound_hostLog (s : State) : (setBound s).hostLog = s.hostLog := rfl
@[simp] theorem setBound_requests (s : State) : (setBound s).requests = s.requests := rfl
@[simp] theorem setBound_strMem (s : State) : (setBound s).strMem = s.strMem := rfl
@[simp] theorem setBound_sched (s : State) : (setBound s).sched = s.sched := rfl

/-! ### emit -/

@[simp] theorem emit_cfg (s : State) (e : Event) : (emit s e).cfg = s.cfg := rfl
@[simp] theorem emit_reqOp (s : State) (e : Event) : (emit s e).reqOp = s.reqOp := rfl
@[simp] theorem emit_reqRow (s : State) (e : Event) : (emit s e).reqRow = s.reqRow := rfl
@[simp] theorem emit_reqCol (s : State) (e : Event) : (emit s e).reqCol = s.reqCol := rfl
@[simp] theorem emit_strPtr (s : State) (e : Event) : (emit s e).strPtr = s.strPtr := rfl
@[simp] theorem emit_tRs (s : State) (e : Event) : (emit s e).tRs = s.tRs := rfl
@[simp] theorem emit_tVal (s : State) (e : Event) : (emit s e).tVal = s.tVal := rfl
@[simp] theorem emit_tDly (s : State) (e : Event) : (emit s e).tDly = s.tDly := rfl
@[simp] theorem emit_busy (s : State) (e : Event) : (emit s e).busy = s.busy := rfl
@[simp] theorem emit_step (s : State) (e : Event) : (emit s e).step = s.step := rfl
@[simp] theorem emit_phase (s : State) (e : Event) : (emit s e).phase = s.phase := rfl
@[simp] theorem emit_bound (s : State) (e : Event) : (emit s e).bound = s.bound := rfl
@[simp] theorem emit_fault (s : State) (e : Event) : (emit s e).fault = s.fault := rfl
@[simp] theorem emit_progOffset (s : State) (e : Event) : (emit s e).progOffset = s.progOffset := rfl
@[simp] theorem emit_unitHandle (s : State) (e : Event) : (emit s e).unitHandle = s.unitHandle := rfl
@[simp] theorem emit_draws (s : State) (e : Event) : (emit s e).draws = s.draws := rfl
@[simp] theorem emit_pins (s : State) (e : Event) : (emit s e).pins = pinsAfter s.pins e := rfl
@[simp] theorem emit_oe (s : State) (e : Event) : (emit s e).oe = oeAfter s.oe e := rfl
@[simp] theorem emit_queue (s : State) (e : Event) : (emit s e).queue = s.queue := rfl
@[simp] theorem emit_xuRun (s : State) (e : Event) : (emit s e).xuRun = s.xuRun := rfl
@[simp] theorem emit_xuOsr (s : State) (e : Event) : (emit s e).xuOsr = s.xuOsr := rfl
@[simp] theorem emit_xuHave (s : State) (e : Event) : (emit s e).xuHave = s.xuHave := rfl
@[simp] theorem emit_xuWrites (s : State) (e : Event) : (emit s e).xuWrites = s.xuWrites := rfl
@[simp] theorem emit_tlog (s : State) (e : Event) : (emit s e).tlog = s.tlog := rfl
@[simp] theorem emit_ptrace (s : State) (e : Event) : (emit s e).ptrace = s.ptrace ++ [e] := rfl
@[simp] theorem emit_qlog (s : State) (e : Event) : (emit s e).qlog = s.qlog := rfl
@[simp] theorem emit_hostLog (s : State) (e : Event) : (emit s e).hostLog = s.hostLog := rfl
@[simp] theorem emit_requests (s : State) (e : Event) : (emit s e).requests = s.requests := rfl
@[simp] theorem emit_strMem (s : State) (e : Event) : (emit s e).strMem = s.strMem := rfl
@[simp] theorem emit_sched (s : State) (e : Event) : (emit s e).sched = s.sched := rfl

/-! ### perform: the trace grows by the events, the pins follow them, nothing else changes -/

@[simp] theorem perform_cfg (es : List Event) (s : State) : (perform es s).cfg = s.cfg := by
  induction es generalizing s with
  | nil => rfl
  | cons e es ih => exact ih (emit s e)

@[simp] theorem perform_reqOp (es : List Event) (s : State) : (perform es s).reqOp = s.reqOp := by
  induction es generalizing s with
  | nil => rfl
  | cons e es ih => exact ih (emit s e)

@[simp] theorem perform_reqRow (es : List Event) (s : State) : (perform es s).reqRow = s.reqRow := by
  induction es generalizing s with
  | nil => rfl
  | cons e es ih => exact ih (emit s e)

@[simp] theorem perform_reqCol (es : List Event) (s : State) : (perform es s).reqCol = s.reqCol := by
  induction es generalizing s with
  | nil => rfl
  | cons e es ih => exact ih (emit s e)

@[simp] theorem perform_strPtr (es : List Event) (s : State) : (perform es s).strPtr = s.strPtr := by
  induction es generalizing s with
  | nil => rfl
  | cons e es ih => exact ih (emit s e)

@[simp] theorem perform_tRs (es : List Event) (s : State) : (perform es s).tRs = s.tRs := by
  induction es generalizing s with
  | nil => rfl
  | cons e es ih => exact ih (emit s e)

@[simp] theorem perform_tVal (es : List Event) (s : State) : (perform es s).tVal = s.tVal := by
  induction es generalizing s with
  | nil => rfl
  | cons e es ih => exact ih (emit s e)

@[simp] theorem perform_tDly (es : List Event) (s : State) : (perform es s).tDly = s.tDly := by
  induction es generalizing s with
  | nil => rfl
  | cons e es ih => exact ih (emit s e)

@[simp] theorem perform_busy (es : List Event) (s : State) : (perform es s).busy = s.busy := by
  induction es generalizing s with
  | nil => rfl
  | cons e es ih => exact ih (emit s e)

@[simp] theorem perform_step (es : List Event) (s : State) : (perform es s).step = s.step := by
  induction es generalizing s with
  | nil => rfl
  | cons e es ih => exact ih (emit s e)

@[simp] theorem perform_phase (es : List Event) (s : State) : (perform es s).phase = s.phase := by
  induction es generalizing s with
  | nil => rfl
  | cons e es ih => exact ih (emit s e)

@[simp] theorem perform_bound (es : List Event) (s : State) : (perform es s).bound = s.bound := by
  induction es generalizing s with
  | nil => rfl
  | cons e es ih => exact ih (emit s e)

@[simp] theorem perform_fault (es : List Event) (s : State) : (perform es s).fault = s.fault := by
  induction es generalizing s with
  | nil => rfl
  | cons e es ih => exact ih (emit s e)

@[simp] theorem perform_progOffset (es : List Event) (s : State) : (perform es s).progOffset = s.progOffset := by
  induction es generalizing s with
  | nil => rfl
  | cons e es ih => exact ih (emit s e)

@[simp] theorem perform_unitHandle (es : List Event) (s : State) : (perform es s).unitHandle = s.unitHandle := by
  induction es generalizing s with
  | nil => rfl
  | cons e es ih => exact ih (emit s e)

@[simp] theorem perform_draws (es : List Event) (s : State) : (perform es s).draws = s.draws := by
  induction es generalizing s with
  | nil => rfl
  | cons e es ih => exact ih (emit s e)

@[simp] theorem perform_pins (es : List Event) (s : State) : (perform es s).pins = es.foldl pinsAfter s.pins := by
  induction es generalizing s with
  | nil => rfl
  | cons e es ih => exact ih (emit s e)

@[simp] theorem perform_oe (es : List Event) (s : State) : (perform es s).oe = es.foldl oeAfter s.oe := by
  induction es generalizing s with
  | nil => rfl
  | cons e es ih => exact ih (emit s e)

@[simp] theorem perform_queue (es : List Event) (s : State) : (perform es s).queue = s.queue := by
  induction es generalizing s with
  | nil => rfl
  | cons e es ih => exact ih (emit s e)

@[simp] theorem perform_xuRun (es : List Event) (s : State) : (perform es s).xuRun = s.xuRun := by
  induction es generalizing s with
  | nil => rfl
  | cons e es ih => exact ih (emit s e)

@[simp] theorem perform_xuOsr (es : List Event) (s : State) : (perform es s).xuOsr = s.xuOsr := by
  induction es generalizing s with
  | nil => rfl
  | cons e es ih => exact ih (emit s e)

@[simp] theorem perform_xuHave (es : List Event) (s : State) : (perform es s).xuHave = s.xuHave := by
  induction es generalizing s with
  | nil => rfl
  | cons e es ih => exact ih (emit s e)

@[simp] theorem perform_xuWrites (es : List Event) (s : State) : (perform es s).xuWrites = s.xuWrites := by
  induction es generalizing s with
  | nil => rfl
  | cons e es ih => exact ih (emit s e)

@[simp] theorem perform_tlog (es : List Event) (s : State) : (perform es s).tlog = s.tlog := by
  induction es generalizing s with
  | nil => rfl
  | cons e es ih => exact ih (emit s e)

@[simp] theorem perform_ptrace (es : List Event) (s : State) : (perform es s).ptrace = s.ptrace ++ es := by
  induction es generalizing s with
  | nil => simp [perform]
  | cons e es ih => simpa [perform] using ih (emit s e)

@[simp] theorem perform_qlog (es : List Event) (s : State) : (perform es s).qlog = s.qlog := by
  induction es generalizing s with
  | nil => rfl
  | cons e es ih => exact ih (emit s e)

@[simp] theorem perform_hostLog (es : List Event) (s : State) : (perform es s).hostLog = s.hostLog := by
  induction es generalizing s with
  | nil => rfl
  | cons e es ih => exact ih (emit s e)

@[simp] theorem perform_requests (es : List Event) (s : State) : (perform es s).requests = s.requests := by
  induction es generalizing s with
  | nil => rfl
  | cons e es ih => exact ih (emit s e)

@[simp] theorem perform_strMem (es : List Event) (s : State) : (perform es s).strMem = s.strMem := by
  induction es generalizing s with
  | nil => rfl
  | cons e es ih => exact ih (emit s e)

@[simp] theorem perform_sched (es : List Event) (s : State) : (perform es s).sched = s.sched := by
  induction es generalizing s with
  | nil => rfl
  | cons e es ih => exact ih (emit s e)

/-! ### issueByte -/

@[simp] theorem issueByte_cfg (rs : Rs) (b : Byte) (d : Delay) (s : State) : (issueByte rs b d s).cfg = s.cfg := rfl
@[simp] theorem issueByte_reqOp (rs : Rs) (b : Byte) (d : Delay) (s : State) : (issueByte rs b d s).reqOp = s.reqOp := rfl
@[simp] theorem issueByte_reqRow (rs : Rs) (b : Byte) (d : Delay) (s : State) : (issueByte rs b d s).reqRow = s.reqRow := rfl
@[simp] theorem issueByte_reqCol (rs : Rs) (b : Byte) (d : Delay) (s : State) : (issueByte rs b d s).reqCol = s.reqCol := rfl
@[simp] theorem issueByte_strPtr (rs : Rs) (b : Byte) (d : Delay) (s : State) : (issueByte rs b d s).strPtr = s.strPtr := rfl
@[simp] theorem issueByte_tRs (rs : Rs) (b : Byte) (d : Delay) (s : State) : (issueByte rs b d s).tRs = rs := rfl
@[simp] theorem issueByte_tVal (rs : Rs) (b : Byte) (d : Delay) (s : State) : (issueByte rs b d s).tVal = b := rfl
@[simp] theorem issueByte_tDly (rs : Rs) (b : Byte) (d : Delay) (s : State) : (issueByte rs b d s).tDly = d := rfl
@[simp] theorem issueByte_busy (rs : Rs) (b : Byte) (d : Delay) (s : State) : (issueByte rs b d s).busy = s.busy := rfl
@[simp] theorem issueByte_step (rs : Rs) (b : Byte) (d : Delay) (s : State) : (issueByte rs b d s).step = s.step := rfl
@[simp] theorem issueByte_phase (rs : Rs) (b : Byte) (d : Delay) (s : State) : (issueByte rs b d s).phase = .opByte := rfl
@[simp] theorem issueByte_bound (rs : Rs) (b : Byte) (d : Delay) (s : State) : (issueByte rs b d s).bound = s.bound := rfl
@[simp] theorem issueByte_fault (rs : Rs) (b : Byte) (d : Delay) (s : State) : (issueByte rs b d s).fault = s.fault := rfl
@[simp] theorem issueByte_progOffset (rs : Rs) (b : Byte) (d : Delay) (s : State) : (issueByte rs b d s).progOffset = s.progOffset := rfl
@[simp] theorem issueByte_unitHandle (rs : Rs) (b : Byte) (d : Delay) (s : State) : (issueByte rs b d s).unitHandle = s.unitHandle := rfl
@[simp] theorem issueByte_draws (rs : Rs) (b : Byte) (d : Delay) (s : State) : (issueByte rs b d s).draws = s.draws := rfl
@[simp] theorem issueByte_pins (rs : Rs) (b : Byte) (d : Delay) (s : State) : (issueByte rs b d s).pins = s.pins := rfl
@[simp] theorem issueByte_oe (rs : Rs) (b : Byte) (d : Delay) (s : State) : (issueByte rs b d s).oe = s.oe := rfl
@[simp] theorem issueByte_queue (rs : Rs) (b : Byte) (d : Delay) (s : State) : (issueByte rs b d s).queue = s.queue := rfl
@[simp] theorem issueByte_xuRun (rs : Rs) (b : Byte) (d : Delay) (s : State) : (issueByte rs b d s).xuRun = s.xuRun := rfl
@[simp] theorem issueByte_xuOsr (rs : Rs) (b : Byte) (d : Delay) (s : State) : (issueByte rs b d s).xuOsr = s.xuOsr := rfl
@[simp] theorem issueByte_xuHave (rs : Rs) (b : Byte) (d : Delay) (s : State) : (issueByte rs b d s).xuHave = s.xuHave := rfl
@[simp] theorem issueByte_xuWrites (rs : Rs) (b : Byte) (d : Delay) (s : State) : (issueByte rs b d s).xuWrites = s.xuWrites := rfl
@[simp] theorem issueByte_tlog (rs : Rs) (b : Byte) (d : Delay) (s : State) : (issueByte rs b d s).tlog = s.tlog ++ [.byte rs b d] := rfl
@[simp] theorem issueByte_ptrace (rs : Rs) (b : Byte) (d : Delay) (s : State) : (issueByte rs b d s).ptrace = s.ptrace := rfl
@[simp] theorem issueByte_qlog (rs : Rs) (b : Byte) (d : Delay) (s : State) : (issueByte rs b d s).qlog = s.qlog := rfl
@[simp] theorem issueByte_hostLog (rs : Rs) (b : Byte) (d : Delay) (s : State) : (issueByte rs b d s).hostLog = s.hostLog := rfl
@[simp] theorem issueByte_requests (rs : Rs) (b : Byte) (d : Delay) (s : State) : (issueByte rs b d s).requests = s.requests := rfl
@[simp] theorem issueByte_strMem (rs : Rs) (b : Byte) (d : Delay) (s : State) : (issueByte rs b d s).strMem = s.strMem := rfl
@[simp] theorem issueByte_sched (rs : Rs) (b : Byte) (d : Delay) (s : State) : (issueByte rs b d s).sched = s.sched := rfl

/-! ### issueNibble -/

@[simp] theorem issueNibble_cfg (rs : Rs) (v : Nibble) (d : Delay) (s : State) : (issueNibble rs v d s).cfg = s.cfg := rfl
@[simp] theorem issueNibble_reqOp (rs : Rs) (v : Nibble) (d : Delay) (s : State) : (issueNibble rs v d s).reqOp = s.reqOp := rfl
@[simp] theorem issueNibble_reqRow (rs : Rs) (v : Nibble) (d : Delay) (s : State) : (issueNibble rs v d s).reqRow = s.reqRow := rfl
@[simp] theorem issueNibble_reqCol (rs : Rs) (v : Nibble) (d : Delay) (s : State) : (issueNibble rs v d s).reqCol = s.reqCol := rfl
@[simp] theorem issueNibble_strPtr (rs : Rs) (v : Nibble) (d : Delay) (s : State) : (issueNibble rs v d s).strPtr = s.strPtr := rfl
@[simp] theorem issueNibble_tRs (rs : Rs) (v : Nibble) (d : Delay) (s : State) : (issueNibble rs v d s).tRs = rs := rfl
@[simp] theorem issueNibble_tVal (rs : Rs) (v : Nibble) (d : Delay) (s : State) : (issueNibble rs v d s).tVal = (s.tVal &&& 0xF0#8) ||| v.setWidth 8 := rfl
@[simp] theorem issueNibble_tDly (rs : Rs) (v : Nibble) (d : Delay) (s : State) : (issueNibble rs v d s).tDly = d := rfl
@[simp] theorem issueNibble_busy (rs : Rs) (v : Nibble) (d : Delay) (s : State) : (issueNibble rs v d s).busy = s.busy := rfl
@[simp] theorem issueNibble_step (rs : Rs) (v : Nibble) (d : Delay) (s : State) : (issueNibble rs v d s).step = s.step := rfl
@[simp] theorem issueNibble_phase (rs : Rs) (v : Nibble) (d : Delay) (s : State) : (issueNibble rs v d s).phase = .opNibble := rfl
@[simp] theorem issueNibble_bound (rs : Rs) (v : Nibble) (d : Delay) (s : State) : (issueNibble rs v d s).bound = s.bound := rfl
@[simp] theorem issueNibble_fault (rs : Rs) (v : Nibble) (d : Delay) (s : State) : (issueNibble rs v d s).fault = s.fault := rfl
@[simp] theorem issueNibble_progOffset (rs : Rs) (v : Nibble) (d : Delay) (s : State) : (issueNibble rs v d s).progOffset = s.progOffset := rfl
@[simp] theorem issueNibble_unitHandle (rs : Rs) (v : Nibble) (d : Delay) (s : State) : (issueNibble rs v d s).unitHandle = s.unitHandle := rfl
@[simp] theorem issueNibble_draws (rs : Rs) (v : Nibble) (d : Delay) (s : State) : (issueNibble rs v d s).draws = s.draws := rfl
@[simp] theorem issueNibble_pins (rs : Rs) (v : Nibble) (d : Delay) (s : State) : (issueNibble rs v d s).pins = s.pins := rfl
@[simp] theorem issueNibble_oe (rs : Rs) (v : Nibble) (d : Delay) (s : State) : (issueNibble rs v d s).oe = s.oe := rfl
@[simp] theorem issueNibble_queue (rs : Rs) (v : Nibble) (d : Delay) (s : State) : (issueNibble rs v d s).queue = s.queue := rfl
@[simp] theorem issueNibble_xuRun (rs : Rs) (v : Nibble) (d : Delay) (s : State) : (issueNibble rs v d s).xuRun = s.xuRun := rfl
@[simp] theorem issueNibble_xuOsr (rs : Rs) (v : Nibble) (d : Delay) (s : State) : (issueNibble rs v d s).xuOsr = s.xuOsr := rfl
@[simp] theorem issueNibble_xuHave (rs : Rs) (v : Nibble) (d : Delay) (s : State) : (issueNibble rs v d s).xuHave = s.xuHave := rfl
@[simp] theorem issueNibble_xuWrites (rs : Rs) (v : Nibble) (d : Delay) (s : State) : (issueNibble rs v d s).xuWrites = s.xuWrites := rfl
@[simp] theorem issueNibble_tlog (rs : Rs) (v : Nibble) (d : Delay) (s : State) : (issueNibble rs v d s).tlog = s.tlog ++ [.nibble rs v d] := rfl
@[simp] theorem issueNibble_ptrace (rs : Rs) (v : Nibble) (d : Delay) (s : State) : (issueNibble rs v d s).ptrace = s.ptrace := rfl
@[simp] theorem issueNibble_qlog (rs : Rs) (v : Nibble) (d : Delay) (s : State) : (issueNibble rs v d s).qlog = s.qlog := rfl
@[simp] theorem issueNibble_hostLog (rs : Rs) (v : Nibble) (d : Delay) (s : State) : (issueNibble rs v d s).hostLog = s.hostLog := rfl
@[simp] theorem issueNibble_requests (rs : Rs) (v : Nibble) (d : Delay) (s : State) : (issueNibble rs v d s).requests = s.requests := rfl
@[simp] theorem issueNibble_strMem (rs : Rs) (v : Nibble) (d : Delay) (s : State) : (issueNibble rs v d s).strMem = s.strMem := rfl
@[simp] theorem issueNibble_sched (rs : Rs) (v : Nibble) (d : Delay) (s : State) : (issueNibble rs v d s).sched = s.sched := rfl

/-! ### gotoStep -/

@[simp] theorem gotoStep_cfg (n : BitVec 4) (s : State) : (gotoStep n s).cfg = s.cfg := rfl
@[simp] theorem gotoStep_reqOp (n : BitVec 4) (s : State) : (gotoStep n s).reqOp = s.reqOp := rfl
@[simp] theorem gotoStep_reqRow (n : BitVec 4) (s : State) : (gotoStep n s).reqRow = s.reqRow := rfl
@[simp] theorem gotoStep_reqCol (n : BitVec 4) (s : State) : (gotoStep n s).reqCol = s.reqCol := rfl
@[simp] theorem gotoStep_strPtr (n : BitVec 4) (s : State) : (gotoStep n s).strPtr = s.strPtr := rfl
@[simp] theorem gotoStep_tRs (n : BitVec 4) (s : State) : (gotoStep n s).tRs = s.tRs := rfl
@[simp] theorem gotoStep_tVal (n : BitVec 4) (s : State) : (gotoStep n s).tVal = s.tVal := rfl
@[simp] theorem gotoStep_tDly (n : BitVec 4) (s : State) : (gotoStep n s).tDly = s.tDly := rfl
@[simp] theorem gotoStep_busy (n : BitVec 4) (s : State) : (gotoStep n s).busy = s.busy := rfl
@[simp] theorem gotoStep_step (n : BitVec 4) (s : State) : (gotoStep n s).step = n := rfl
@[simp] theorem gotoStep_phase (n : BitVec 4) (s : State) : (gotoStep n s).phase = handshake n := rfl
@[simp] theorem gotoStep_bound (n : BitVec 4) (s : State) : (gotoStep n s).bound = s.bound := rfl
@[simp] theorem gotoStep_fault (n : BitVec 4) (s : State) : (gotoStep n s).fault = s.fault := rfl
@[simp] theorem gotoStep_progOffset (n : BitVec 4) (s : State) : (gotoStep n s).progOffset = s.progOffset := rfl
@[simp] theorem gotoStep_unitHandle (n : BitVec 4) (s : State) : (gotoStep n s).unitHandle = s.unitHandle := rfl
@[simp] theorem gotoStep_draws (n : BitVec 4) (s : State) : (gotoStep n s).draws = s.draws := rfl
@[simp] theorem gotoStep_pins (n : BitVec 4) (s : State) : (gotoStep n s).pins = s.pins := rfl
@[simp] theorem gotoStep_oe (n : BitVec 4) (s : State) : (gotoStep n s).oe = s.oe := rfl
@[simp] theorem gotoStep_queue (n : BitVec 4) (s : State) : (gotoStep n s).queue = s.queue := rfl
@[simp] theorem gotoStep_xuRun (n : BitVec 4) (s : State) : (gotoStep n s).xuRun = s.xuRun := rfl
@[simp] theorem gotoStep_xuOsr (n : BitVec 4) (s : State) : (gotoStep n s).xuOsr = s.xuOsr := rfl
@[simp] theorem gotoStep_xuHave (n : BitVec 4) (s : State) : (gotoStep n s).xuHave = s.xuHave := rfl
@[simp] theorem gotoStep_xuWrites (n : BitVec 4) (s : State) : (gotoStep n s).xuWrites = s.xuWrites := rfl
@[simp] theorem gotoStep_tlog (n : BitVec 4) (s : State) : (gotoStep n s).tlog = s.tlog := rfl
@[simp] theorem gotoStep_ptrace (n : BitVec 4) (s : State) : (gotoStep n s).ptrace = s.ptrace := rfl
@[simp] theorem gotoStep_qlog (n : BitVec 4) (s : State) : (gotoStep n s).qlog = s.qlog := rfl
@[simp] theorem gotoStep_hostLog (n : BitVec 4) (s : State) : (gotoStep n s).hostLog = s.hostLog := rfl
@[simp] theorem gotoStep_requests (n : BitVec 4) (s : State) : (gotoStep n s).requests = s.requests := rfl
@[simp] theorem gotoStep_strMem (n : BitVec 4) (s : State) : (gotoStep n s).strMem = s.strMem := rfl
@[simp] theorem gotoStep_sched (n : BitVec 4) (s : State) : (gotoStep n s).sched = s.sched := rfl

/-! ### claimUnit -/

@[simp] theorem claimUnit_cfg (s : State) : (claimUnit s).cfg = s.cfg := rfl
@[simp] theorem claimUnit_reqOp (s : State) : (claimUnit s).reqOp = s.reqOp := rfl
@[simp] theorem claimUnit_reqRow (s : State) : (claimUnit s).reqRow = s.reqRow := rfl
@[simp] theorem claimUnit_reqCol (s : State) : (claimUnit s).reqCol = s.reqCol := rfl
@[simp] theorem claimUnit_strPtr (s : State) : (claimUnit s).strPtr = s.strPtr := rfl
@[simp] theorem claimUnit_tRs (s : State) : (claimUnit s).tRs = s.tRs := rfl
@[simp] theorem claimUnit_tVal (s : State) : (claimUnit s).tVal = s.tVal := rfl
@[simp] theorem claimUnit_tDly (s : State) : (claimUnit s).tDly = s.tDly := rfl
@[simp] theorem claimUnit_busy (s : State) : (claimUnit s).busy = s.busy := rfl
@[simp] theorem claimUnit_step (s : State) : (claimUnit s).step = s.step := rfl
@[simp] theorem claimUnit_phase (s : State) : (claimUnit s).phase = s.phase := rfl
@[simp] theorem claimUnit_bound (s : State) : (claimUnit s).bound = s.bound := rfl
@[simp] theorem claimUnit_fault (s : State) : (claimUnit s).fault = s.fault := rfl
@[simp] theorem claimUnit_progOffset (s : State) : (claimUnit s).progOffset = Config.freeProgOffset s.draws := rfl
@[simp] theorem claimUnit_unitHandle (s : State) : (claimUnit s).unitHandle = Config.freeUnitHandle s.draws := rfl
@[simp] theorem claimUnit_draws (s : State) : (claimUnit s).draws = s.draws + 1 := rfl
@[simp] theorem claimUnit_pins (s : State) : (claimUnit s).pins = s.pins := rfl
@[simp] theorem claimUnit_oe (s : State) : (claimUnit s).oe = s.oe := rfl
@[simp] theorem claimUnit_queue (s : State) : (claimUnit s).queue = s.queue := rfl
@[simp] theorem claimUnit_xuRun (s : State) : (claimUnit s).xuRun = s.xuRun := rfl
@[simp] theorem claimUnit_xuOsr (s : State) : (claimUnit s).xuOsr = s.xuOsr := rfl
@[simp] theorem claimUnit_xuHave (s : State) : (claimUnit s).xuHave = s.xuHave := rfl
@[simp] theorem claimUnit_xuWrites (s : State) : (claimUnit s).xuWrites = s.xuWrites := rfl
@[simp] theorem claimUnit_tlog (s : State) : (claimUnit s).tlog = s.tlog := rfl
@[simp] theorem claimUnit_ptrace (s : State) : (claimUnit s).ptrace = s.ptrace := rfl
@[simp] theorem claimUnit_qlog (s : State) : (claimUnit s).qlog = s.qlog := rfl
@[simp] theorem claimUnit_hostLog (s : State) : (claimUnit s).hostLog = s.hostLog ++ [.loadProgram, .acquireUnit] := rfl
@[simp] theorem claimUnit_requests (s : State) : (claimUnit s).requests = s.requests := rfl
@[simp] theorem claimUnit_strMem (s : State) : (claimUnit s).strMem = s.strMem := rfl
@[simp] theorem claimUnit_sched (s : State) : (claimUnit s).sched = s.sched := rfl

/-! ### startUnit -/

@[simp] theorem startUnit_cfg (s : State) : (startUnit s).cfg = s.cfg := rfl
@[simp] theorem startUnit_reqOp (s : State) : (startUnit s).reqOp = s.reqOp := rfl
@[simp] theorem startUnit_reqRow (s : State) : (startUnit s).reqRow = s.reqRow := rfl
@[simp] theorem startUnit_reqCol (s : State) : (startUnit s).reqCol = s.reqCol := rfl
@[simp] theorem startUnit_strPtr (s : State) : (startUnit s).strPtr = s.strPtr := rfl
@[simp] theorem startUnit_tRs (s : State) : (startUnit s).tRs = s.tRs := rfl
@[simp] theorem startUnit_tVal (s : State) : (startUnit s).tVal = s.tVal := rfl
@[simp] theorem startUnit_tDly (s : State) : (startUnit s).tDly = s.tDly := rfl
@[simp] theorem startUnit_busy (s : State) : (startUnit s).busy = s.busy := rfl
@[simp] theorem startUnit_step (s : State) : (startUnit s).step = s.step := rfl
@[simp] theorem startUnit_phase (s : State) : (startUnit s).phase = s.phase := rfl
@[simp] theorem startUnit_bound (s : State) : (startUnit s).bound = s.bound := rfl
@[simp] theorem startUnit_fault (s : State) : (startUnit s).fault = s.fault := rfl
@[simp] theorem startUnit_progOffset (s : State) : (startUnit s).progOffset = s.progOffset := rfl
@[simp] theorem startUnit_unitHandle (s : State) : (startUnit s).unitHandle = s.unitHandle := rfl
@[simp] theorem startUnit_draws (s : State) : (startUnit s).draws = s.draws := rfl
@[simp] theorem startUnit_pins (s : State) : (startUnit s).pins = s.pins &&& ~~~maskAll s.cfg.pins := rfl
@[simp] theorem startUnit_oe (s : State) : (startUnit s).oe = s.oe ||| maskAll s.cfg.pins := rfl
@[simp] theorem startUnit_queue (s : State) : (startUnit s).queue = s.queue := rfl
@[simp] theorem startUnit_xuRun (s : State) : (startUnit s).xuRun = true := rfl
@[simp] theorem startUnit_xuOsr (s : State) : (startUnit s).xuOsr = s.xuOsr := rfl
@[simp] theorem startUnit_xuHave (s : State) : (startUnit s).xuHave = false := rfl
@[simp] theorem startUnit_xuWrites (s : State) : (startUnit s).xuWrites = s.xuWrites := rfl
@[simp] theorem startUnit_tlog (s : State) : (startUnit s).tlog = s.tlog := rfl
@[simp] theorem startUnit_ptrace (s : State) : (startUnit s).ptrace = s.ptrace ++ [.configureOutputs (maskAll s.cfg.pins)] := rfl
@[simp] theorem startUnit_qlog (s : State) : (startUnit s).qlog = s.qlog := rfl
@[simp] theorem startUnit_hostLog (s : State) : (startUnit s).hostLog = s.hostLog ++ [.start s.unitHandle s.progOffset s.cfg.pins.e s.cfg.pins.d0] := rfl
@[simp] theorem startUnit_requests (s : State) : (startUnit s).requests = s.requests := rfl
@[simp] theorem startUnit_strMem (s : State) : (startUnit s).strMem = s.strMem := rfl
@[simp] theorem startUnit_sched (s : State) : (startUnit s).sched = s.sched := rfl

/-! ### sendByte -/

@[simp] theorem sendByte_cfg (w : BitVec 9) (s : State) : (sendByte w s).cfg = s.cfg := rfl
@[simp] theorem sendByte_reqOp (w : BitVec 9) (s : State) : (sendByte w s).reqOp = s.reqOp := rfl
@[simp] theorem sendByte_reqRow (w : BitVec 9) (s : State) : (sendByte w s).reqRow = s.reqRow := rfl
@[simp] theorem sendByte_reqCol (w : BitVec 9) (s : State) : (sendByte w s).reqCol = s.reqCol := rfl
@[simp] theorem sendByte_strPtr (w : BitVec 9) (s : State) : (sendByte w s).strPtr = s.strPtr := rfl
@[simp] theorem sendByte_tRs (w : BitVec 9) (s : State) : (sendByte w s).tRs = s.tRs := rfl
@[simp] theorem sendByte_tVal (w : BitVec 9) (s : State) : (sendByte w s).tVal = s.tVal := rfl
@[simp] theorem sendByte_tDly (w : BitVec 9) (s : State) : (sendByte w s).tDly = s.tDly := rfl
@[simp] theorem sendByte_busy (w : BitVec 9) (s : State) : (sendByte w s).busy = s.busy := rfl
@[simp] theorem sendByte_step (w : BitVec 9) (s : State) : (sendByte w s).step = s.step := rfl
@[simp] theorem sendByte_phase (w : BitVec 9) (s : State) : (sendByte w s).phase = .send8 w := rfl
@[simp] theorem sendByte_bound (w : BitVec 9) (s : State) : (sendByte w s).bound = s.bound := rfl
@[simp] theorem sendByte_fault (w : BitVec 9) (s : State) : (sendByte w s).fault = s.fault := rfl
@[simp] theorem sendByte_progOffset (w : BitVec 9) (s : State) : (sendByte w s).progOffset = s.progOffset := rfl
@[simp] theorem sendByte_unitHandle (w : BitVec 9) (s : State) : (sendByte w s).unitHandle = s.unitHandle := rfl
@[simp] theorem sendByte_draws (w : BitVec 9) (s : State) : (sendByte w s).draws = s.draws := rfl
@[simp] theorem sendByte_pins (w : BitVec 9) (s : State) : (sendByte w s).pins = s.pins := rfl
@[simp] theorem sendByte_oe (w : BitVec 9) (s : State) : (sendByte w s).oe = s.oe := rfl
@[simp] theorem sendByte_queue (w : BitVec 9) (s : State) : (sendByte w s).queue = s.queue := rfl
@[simp] theorem sendByte_xuRun (w : BitVec 9) (s : State) : (sendByte w s).xuRun = s.xuRun := rfl
@[simp] theorem sendByte_xuOsr (w : BitVec 9) (s : State) : (sendByte w s).xuOsr = s.xuOsr := rfl
@[simp] theorem sendByte_xuHave (w : BitVec 9) (s : State) : (sendByte w s).xuHave = s.xuHave := rfl
@[simp] theorem sendByte_xuWrites (w : BitVec 9) (s : State) : (sendByte w s).xuWrites = s.xuWrites := rfl
@[simp] theorem sendByte_tlog (w : BitVec 9) (s : State) : (sendByte w s).tlog = s.tlog := rfl
@[simp] theorem sendByte_ptrace (w : BitVec 9) (s : State) : (sendByte w s).ptrace = s.ptrace := rfl
@[simp] theorem sendByte_qlog (w : BitVec 9) (s : State) : (sendByte w s).qlog = s.qlog := rfl
@[simp] theorem sendByte_hostLog (w : BitVec 9) (s : State) : (sendByte w s).hostLog = s.hostLog := rfl
@[simp] theorem sendByte_requests (w : BitVec 9) (s : State) : (sendByte w s).requests = s.requests := rfl
@[simp] theorem sendByte_strMem (w : BitVec 9) (s : State) : (sendByte w s).strMem = s.strMem := rfl
@[simp] theorem sendByte_sched (w : BitVec 9) (s : State) : (sendByte w s).sched = s.sched := rfl

/-! ### push -/

@[simp] theorem push_cfg (w : CmdWord) (s : State) : (push w s).cfg = s.cfg := rfl
@[simp] theorem push_reqOp (w : CmdWord) (s : State) : (push w s).reqOp = s.reqOp := rfl
@[simp] theorem push_reqRow (w : CmdWord) (s : State) : (push w s).reqRow = s.reqRow := rfl
@[simp] theorem push_reqCol (w : CmdWord) (s : State) : (push w s).reqCol = s.reqCol := rfl
@[simp] theorem push_strPtr (w : CmdWord) (s : State) : (push w s).strPtr = s.strPtr := rfl
@[simp] theorem push_tRs (w : CmdWord) (s : State) : (push w s).tRs = s.tRs := rfl
@[simp] theorem push_tVal (w : CmdWord) (s : State) : (push w s).tVal = s.tVal := rfl
@[simp] theorem push_tDly (w : CmdWord) (s : State) : (push w s).tDly = s.tDly := rfl
@[simp] theorem push_busy (w : CmdWord) (s : State) : (push w s).busy = s.busy := rfl
@[simp] theorem push_step (w : CmdWord) (s : State) : (push w s).step = s.step := rfl
@[simp] theorem push_phase (w : CmdWord) (s : State) : (push w s).phase = s.phase := rfl
@[simp] theorem push_bound (w : CmdWord) (s : State) : (push w s).bound = s.bound := rfl
@[simp] theorem push_fault (w : CmdWord) (s : State) : (push w s).fault = s.fault := rfl
@[simp] theorem push_progOffset (w : CmdWord) (s : State) : (push w s).progOffset = s.progOffset := rfl
@[simp] theorem push_unitHandle (w : CmdWord) (s : State) : (push w s).unitHandle = s.unitHandle := rfl
@[simp] theorem push_draws (w : CmdWord) (s : State) : (push w s).draws = s.draws := rfl
@[simp] theorem push_pins (w : CmdWord) (s : State) : (push w s).pins = s.pins := rfl
@[simp] theorem push_oe (w : CmdWord) (s : State) : (push w s).oe = s.oe := rfl
@[simp] theorem push_queue (w : CmdWord) (s : State) : (push w s).queue = s.queue ++ [w] := rfl
@[simp] theorem push_xuRun (w : CmdWord) (s : State) : (push w s).xuRun = s.xuRun := rfl
@[simp] theorem push_xuOsr (w : CmdWord) (s : State) : (push w s).xuOsr = s.xuOsr := rfl
@[simp] theorem push_xuHave (w : CmdWord) (s : State) : (push w s).xuHave = s.xuHave := rfl
@[simp] theorem push_xuWrites (w : CmdWord) (s : State) : (push w s).xuWrites = s.xuWrites := rfl
@[simp] theorem push_tlog (w : CmdWord) (s : State) : (push w s).tlog = s.tlog := rfl
@[simp] theorem push_ptrace (w : CmdWord) (s : State) : (push w s).ptrace = s.ptrace := rfl
@[simp] theorem push_qlog (w : CmdWord) (s : State) : (push w s).qlog = s.qlog ++ [w] := rfl
@[simp] theorem push_hostLog (w : CmdWord) (s : State) : (push w s).hostLog = s.hostLog ++ [.push w] := rfl
@[simp] theorem push_requests (w : CmdWord) (s : State) : (push w s).requests = s.requests := rfl
@[simp] theorem push_strMem (w : CmdWord) (s : State) : (push w s).strMem = s.strMem := rfl
@[simp] theorem push_sched (w : CmdWord) (s : State) : (push w s).sched = s.sched := rfl

/-! ### xuLoad -/

@[simp] theorem xuLoad_cfg (w : CmdWord) (s : State) : (xuLoad w s).cfg = s.cfg := rfl
@[simp] theorem xuLoad_reqOp (w : CmdWord) (s : State) : (xuLoad w s).reqOp = s.reqOp := rfl
@[simp] theorem xuLoad_reqRow (w : CmdWord) (s : State) : (xuLoad w s).reqRow = s.reqRow := rfl
@[simp] theorem xuLoad_reqCol (w : CmdWord) (s : State) : (xuLoad w s).reqCol = s.reqCol := rfl
@[simp] theorem xuLoad_strPtr (w : CmdWord) (s : State) : (xuLoad w s).strPtr = s.strPtr := rfl
@[simp] theorem xuLoad_tRs (w : CmdWord) (s : State) : (xuLoad w s).tRs = s.tRs := rfl
@[simp] theorem xuLoad_tVal (w : CmdWord) (s : State) : (xuLoad w s).tVal = s.tVal := rfl
@[simp] theorem xuLoad_tDly (w : CmdWord) (s : State) : (xuLoad w s).tDly = s.tDly := rfl
@[simp] theorem xuLoad_busy (w : CmdWord) (s : State) : (xuLoad w s).busy = s.busy := rfl
@[simp] theorem xuLoad_step (w : CmdWord) (s : State) : (xuLoad w s).step = s.step := rfl
@[simp] theorem xuLoad_phase (w : CmdWord) (s : State) : (xuLoad w s).phase = s.phase := rfl
@[simp] theorem xuLoad_bound (w : CmdWord) (s : State) : (xuLoad w s).bound = s.bound := rfl
@[simp] theorem xuLoad_fault (w : CmdWord) (s : State) : (xuLoad w s).fault = s.fault := rfl
@[simp] theorem xuLoad_progOffset (w : CmdWord) (s : State) : (xuLoad w s).progOffset = s.progOffset := rfl
@[simp] theorem xuLoad_unitHandle (w : CmdWord) (s : State) : (xuLoad w s).unitHandle = s.unitHandle := rfl
@[simp] theorem xuLoad_draws (w : CmdWord) (s : State) : (xuLoad w s).draws = s.draws := rfl
@[simp] theorem xuLoad_pins (w : CmdWord) (s : State) : (xuLoad w s).pins = s.pins := rfl
@[simp] theorem xuLoad_oe (w : CmdWord) (s : State) : (xuLoad w s).oe = s.oe := rfl
@[simp] theorem xuLoad_queue (w : CmdWord) (s : State) : (xuLoad w s).queue = s.queue.tail := rfl
@[simp] theorem xuLoad_xuRun (w : CmdWord) (s : State) : (xuLoad w s).xuRun = s.xuRun := rfl
@[simp] theorem xuLoad_xuOsr (w : CmdWord) (s : State) : (xuLoad w s).xuOsr = w := rfl
@[simp] theorem xuLoad_xuHave (w : CmdWord) (s : State) : (xuLoad w s).xuHave = true := rfl
@[simp] theorem xuLoad_xuWrites (w : CmdWord) (s : State) : (xuLoad w s).xuWrites = 0 := rfl
@[simp] theorem xuLoad_tlog (w : CmdWord) (s : State) : (xuLoad w s).tlog = s.tlog := rfl
@[simp] theorem xuLoad_ptrace (w : CmdWord) (s : State) : (xuLoad w s).ptrace = s.ptrace := rfl
@[simp] theorem xuLoad_qlog (w : CmdWord) (s : State) : (xuLoad w s).qlog = s.qlog := rfl
@[simp] theorem xuLoad_hostLog (w : CmdWord) (s : State) : (xuLoad w s).hostLog = s.hostLog := rfl
@[simp] theorem xuLoad_requests (w : CmdWord) (s : State) : (xuLoad w s).requests = s.requests := rfl
@[simp] theorem xuLoad_strMem (w : CmdWord) (s : State) : (xuLoad w s).strMem = s.strMem := rfl
@[simp] theorem xuLoad_sched (w : CmdWord) (s : State) : (xuLoad w s).sched = s.sched := rfl

/-! ### xuWrite -/

@[simp] theorem xuWrite_cfg (rs : Rs) (v : Nibble) (s : State) : (xuWrite rs v s).cfg = s.cfg := by simp [xuWrite]
@[simp] theorem xuWrite_reqOp (rs : Rs) (v : Nibble) (s : State) : (xuWrite rs v s).reqOp = s.reqOp := by simp [xuWrite]
@[simp] theorem xuWrite_reqRow (rs : Rs) (v : Nibble) (s : State) : (xuWrite rs v s).reqRow = s.reqRow := by simp [xuWrite]
@[simp] theorem xuWrite_reqCol (rs : Rs) (v : Nibble) (s : State) : (xuWrite rs v s).reqCol = s.reqCol := by simp [xuWrite]
@[simp] theorem xuWrite_strPtr (rs : Rs) (v : Nibble) (s : State) : (xuWrite rs v s).strPtr = s.strPtr := by simp [xuWrite]
@[simp] theorem xuWrite_tRs (rs : Rs) (v : Nibble) (s : State) : (xuWrite rs v s).tRs = s.tRs := by simp [xuWrite]
@[simp] theorem xuWrite_tVal (rs : Rs) (v : Nibble) (s : State) : (xuWrite rs v s).tVal = s.tVal := by simp [xuWrite]
@[simp] theorem xuWrite_tDly (rs : Rs) (v : Nibble) (s : State) : (xuWrite rs v s).tDly = s.tDly := by simp [xuWrite]
@[simp] theorem xuWrite_busy (rs : Rs) (v : Nibble) (s : State) : (xuWrite rs v s).busy = s.busy := by simp [xuWrite]
@[simp] theorem xuWrite_step (rs : Rs) (v : Nibble) (s : State) : (xuWrite rs v s).step = s.step := by simp [xuWrite]
@[simp] theorem xuWrite_phase (rs : Rs) (v : Nibble) (s : State) : (xuWrite rs v s).phase = s.phase := by simp [xuWrite]
@[simp] theorem xuWrite_bound (rs : Rs) (v : Nibble) (s : State) : (xuWrite rs v s).bound = s.bound := by simp [xuWrite]
@[simp] theorem xuWrite_fault (rs : Rs) (v : Nibble) (s : State) : (xuWrite rs v s).fault = s.fault := by simp [xuWrite]
@[simp] theorem xuWrite_progOffset (rs : Rs) (v : Nibble) (s : State) : (xuWrite rs v s).progOffset = s.progOffset := by simp [xuWrite]
@[simp] theorem xuWrite_unitHandle (rs : Rs) (v : Nibble) (s : State) : (xuWrite rs v s).unitHandle = s.unitHandle := by simp [xuWrite]
@[simp] theorem xuWrite_draws (rs : Rs) (v : Nibble) (s : State) : (xuWrite rs v s).draws = s.draws := by simp [xuWrite]
@[simp] theorem xuWrite_pins (rs : Rs) (v : Nibble) (s : State) : (xuWrite rs v s).pins = (nibbleEvents s.cfg.pins (consecutiveValue s.cfg.pins rs v)).foldl pinsAfter s.pins := by simp [xuWrite]
@[simp] theorem xuWrite_oe (rs : Rs) (v : Nibble) (s : State) : (xuWrite rs v s).oe = (nibbleEvents s.cfg.pins (consecutiveValue s.cfg.pins rs v)).foldl oeAfter s.oe := by simp [xuWrite]
@[simp] theorem xuWrite_queue (rs : Rs) (v : Nibble) (s : State) : (xuWrite rs v s).queue = s.queue := by simp [xuWrite]
@[simp] theorem xuWrite_xuRun (rs : Rs) (v : Nibble) (s : State) : (xuWrite rs v s).xuRun = s.xuRun := by simp [xuWrite]
@[simp] theorem xuWrite_xuOsr (rs : Rs) (v : Nibble) (s : State) : (xuWrite rs v s).xuOsr = s.xuOsr >>> 6 := by simp [xuWrite]
@[simp] theorem xuWrite_xuHave (rs : Rs) (v : Nibble) (s : State) : (xuWrite rs v s).xuHave = s.xuHave := by simp [xuWrite]
@[simp] theorem xuWrite_xuWrites (rs : Rs) (v : Nibble) (s : State) : (xuWrite rs v s).xuWrites = s.xuWrites + 1 := by simp [xuWrite]
@[simp] theorem xuWrite_tlog (rs : Rs) (v : Nibble) (s : State) : (xuWrite rs v s).tlog = s.tlog := by simp [xuWrite]
@[simp] theorem xuWrite_ptrace (rs : Rs) (v : Nibble) (s : State) : (xuWrite rs v s).ptrace = s.ptrace ++ nibbleEvents s.cfg.pins (consecutiveValue s.cfg.pins rs v) := by simp [xuWrite]
@[simp] theorem xuWrite_qlog (rs : Rs) (v : Nibble) (s : State) : (xuWrite rs v s).qlog = s.qlog := by simp [xuWrite]
@[simp] theorem xuWrite_hostLog (rs : Rs) (v : Nibble) (s : State) : (xuWrite rs v s).hostLog = s.hostLog := by simp [xuWrite]
@[simp] theorem xuWrite_requests (rs : Rs) (v : Nibble) (s : State) : (xuWrite rs v s).requests = s.requests := by simp [xuWrite]
@[simp] theorem xuWrite_strMem (rs : Rs) (v : Nibble) (s : State) : (xuWrite rs v s).strMem = s.strMem := by simp [xuWrite]
@[simp] theorem xuWrite_sched (rs : Rs) (v : Nibble) (s : State) : (xuWrite rs v s).sched = s.sched := by simp [xuWrite]

/-! ### xuDelay -/

@[simp] theorem xuDelay_cfg (d : Delay) (s : State) : (xuDelay d s).cfg = s.cfg := by simp [xuDelay]
@[simp] theorem xuDelay_reqOp (d : Delay) (s : State) : (xuDelay d s).reqOp = s.reqOp := by simp [xuDelay]
@[simp] theorem xuDelay_reqRow (d : Delay) (s : State) : (xuDelay d s).reqRow = s.reqRow := by simp [xuDelay]
@[simp] theorem xuDelay_reqCol (d : Delay) (s : State) : (xuDelay d s).reqCol = s.reqCol := by simp [xuDelay]
@[simp] theorem xuDelay_strPtr (d : Delay) (s : State) : (xuDelay d s).strPtr = s.strPtr := by simp [xuDelay]
@[simp] theorem xuDelay_tRs (d : Delay) (s : State) : (xuDelay d s).tRs = s.tRs := by simp [xuDelay]
@[simp] theorem xuDelay_tVal (d : Delay) (s : State) : (xuDelay d s).tVal = s.tVal := by simp [xuDelay]
@[simp] theorem xuDelay_tDly (d : Delay) (s : State) : (xuDelay d s).tDly = s.tDly := by simp [xuDelay]
@[simp] theorem xuDelay_busy (d : Delay) (s : State) : (xuDelay d s).busy = s.busy := by simp [xuDelay]
@[simp] theorem xuDelay_step (d : Delay) (s : State) : (xuDelay d s).step = s.step := by simp [xuDelay]
@[simp] theorem xuDelay_phase (d : Delay) (s : State) : (xuDelay d s).phase = s.phase := by simp [xuDelay]
@[simp] theorem xuDelay_bound (d : Delay) (s : State) : (xuDelay d s).bound = s.bound := by simp [xuDelay]
@[simp] theorem xuDelay_fault (d : Delay) (s : State) : (xuDelay d s).fault = s.fault := by simp [xuDelay]
@[simp] theorem xuDelay_progOffset (d : Delay) (s : State) : (xuDelay d s).progOffset = s.progOffset := by simp [xuDelay]
@[simp] theorem xuDelay_unitHandle (d : Delay) (s : State) : (xuDelay d s).unitHandle = s.unitHandle := by simp [xuDelay]
@[simp] theorem xuDelay_draws (d : Delay) (s : State) : (xuDelay d s).draws = s.draws := by simp [xuDelay]
@[simp] theorem xuDelay_pins (d : Delay) (s : State) : (xuDelay d s).pins = (settle d).foldl pinsAfter s.pins := by simp [xuDelay]
@[simp] theorem xuDelay_oe (d : Delay) (s : State) : (xuDelay d s).oe = (settle d).foldl oeAfter s.oe := by simp [xuDelay]
@[simp] theorem xuDelay_queue (d : Delay) (s : State) : (xuDelay d s).queue = s.queue := by simp [xuDelay]
@[simp] theorem xuDelay_xuRun (d : Delay) (s : State) : (xuDelay d s).xuRun = s.xuRun := by simp [xuDelay]
@[simp] theorem xuDelay_xuOsr (d : Delay) (s : State) : (xuDelay d s).xuOsr = s.xuOsr := by simp [xuDelay]
@[simp] theorem xuDelay_xuHave (d : Delay) (s : State) : (xuDelay d s).xuHave = false := by simp [xuDelay]
@[simp] theorem xuDelay_xuWrites (d : Delay) (s : State) : (xuDelay d s).xuWrites = s.xuWrites := by simp [xuDelay]
@[simp] theorem xuDelay_tlog (d : Delay) (s : State) : (xuDelay d s).tlog = s.tlog := by simp [xuDelay]
@[simp] theorem xuDelay_ptrace (d : Delay) (s : State) : (xuDelay d s).ptrace = s.ptrace ++ settle d := by simp [xuDelay]
@[simp] theorem xuDelay_qlog (d : Delay) (s : State) : (xuDelay d s).qlog = s.qlog := by simp [xuDelay]
@[simp] theorem xuDelay_hostLog (d : Delay) (s : State) : (xuDelay d s).hostLog = s.hostLog := by simp [xuDelay]
@[simp] theorem xuDelay_requests (d : Delay) (s : State) : (xuDelay d s).requests = s.requests := by simp [xuDelay]
@[simp] theorem xuDelay_strMem (d : Delay) (s : State) : (xuDelay d s).strMem = s.strMem := by simp [xuDelay]
@[simp] theorem xuDelay_sched (d : Delay) (s : State) : (xuDelay d s).sched = s.sched := by simp [xuDelay]

/-! ### hostWrite and presentRequest -/

@[simp] theorem hostWrite_cfg (a : StrAddr) (b : Byte) (s : State) : (hostWrite a b s).cfg = s.cfg := rfl
@[simp] theorem hostWrite_reqOp (a : StrAddr) (b : Byte) (s : State) : (hostWrite a b s).reqOp = s.reqOp := rfl
@[simp] theorem hostWrite_reqRow (a : StrAddr) (b : Byte) (s : State) : (hostWrite a b s).reqRow = s.reqRow := rfl
@[simp] theorem hostWrite_reqCol (a : StrAddr) (b : Byte) (s : State) : (hostWrite a b s).reqCol = s.reqCol := rfl
@[simp] theorem hostWrite_strPtr (a : StrAddr) (b : Byte) (s : State) : (hostWrite a b s).strPtr = s.strPtr := rfl
@[simp] theorem hostWrite_tRs (a : StrAddr) (b : Byte) (s : State) : (hostWrite a b s).tRs = s.tRs := rfl
@[simp] theorem hostWrite_tVal (a : StrAddr) (b : Byte) (s : State) : (hostWrite a b s).tVal = s.tVal := rfl
@[simp] theorem hostWrite_tDly (a : StrAddr) (b : Byte) (s : State) : (hostWrite a b s).tDly = s.tDly := rfl
@[simp] theorem hostWrite_busy (a : StrAddr) (b : Byte) (s : State) : (hostWrite a b s).busy = s.busy := rfl
@[simp] theorem hostWrite_step (a : StrAddr) (b : Byte) (s : State) : (hostWrite a b s).step = s.step := rfl
@[simp] theorem hostWrite_phase (a : StrAddr) (b : Byte) (s : State) : (hostWrite a b s).phase = s.phase := rfl
@[simp] theorem hostWrite_bound (a : StrAddr) (b : Byte) (s : State) : (hostWrite a b s).bound = s.bound := rfl
@[simp] theorem hostWrite_fault (a : StrAddr) (b : Byte) (s : State) : (hostWrite a b s).fault = s.fault := rfl
@[simp] theorem hostWrite_progOffset (a : StrAddr) (b : Byte) (s : State) : (hostWrite a b s).progOffset = s.progOffset := rfl
@[simp] theorem hostWrite_unitHandle (a : StrAddr) (b : Byte) (s : State) : (hostWrite a b s).unitHandle = s.unitHandle := rfl
@[simp] theorem hostWrite_draws (a : StrAddr) (b : Byte) (s : State) : (hostWrite a b s).draws = s.draws := rfl
@[simp] theorem hostWrite_pins (a : StrAddr) (b : Byte) (s : State) : (hostWrite a b s).pins = s.pins := rfl
@[simp] theorem hostWrite_oe (a : StrAddr) (b : Byte) (s : State) : (hostWrite a b s).oe = s.oe := rfl
@[simp] theorem hostWrite_queue (a : StrAddr) (b : Byte) (s : State) : (hostWrite a b s).queue = s.queue := rfl
@[simp] theorem hostWrite_xuRun (a : StrAddr) (b : Byte) (s : State) : (hostWrite a b s).xuRun = s.xuRun := rfl
@[simp] theorem hostWrite_xuOsr (a : StrAddr) (b : Byte) (s : State) : (hostWrite a b s).xuOsr = s.xuOsr := rfl
@[simp] theorem hostWrite_xuHave (a : StrAddr) (b : Byte) (s : State) : (hostWrite a b s).xuHave = s.xuHave := rfl
@[simp] theorem hostWrite_xuWrites (a : StrAddr) (b : Byte) (s : State) : (hostWrite a b s).xuWrites = s.xuWrites := rfl
@[simp] theorem hostWrite_tlog (a : StrAddr) (b : Byte) (s : State) : (hostWrite a b s).tlog = s.tlog := rfl
@[simp] theorem hostWrite_ptrace (a : StrAddr) (b : Byte) (s : State) : (hostWrite a b s).ptrace = s.ptrace := rfl
@[simp] theorem hostWrite_qlog (a : StrAddr) (b : Byte) (s : State) : (hostWrite a b s).qlog = s.qlog := rfl
@[simp] theorem hostWrite_hostLog (a : StrAddr) (b : Byte) (s : State) : (hostWrite a b s).hostLog = s.hostLog := rfl
@[simp] theorem hostWrite_requests (a : StrAddr) (b : Byte) (s : State) : (hostWrite a b s).requests = s.requests := rfl
@[simp] theorem hostWrite_strMem (a : StrAddr) (b : Byte) (s : State) : (hostWrite a b s).strMem = s.strMem.write a.toNat b := rfl
@[simp] theorem hostWrite_sched (a : StrAddr) (b : Byte) (s : State) : (hostWrite a b s).sched = s.sched := rfl

@[simp] theorem presentRequest_cfg (w : ReqWord) (s : State) : (presentRequest w s).cfg = s.cfg := rfl
@[simp] theorem presentRequest_reqOp (w : ReqWord) (s : State) : (presentRequest w s).reqOp = s.reqOp := rfl
@[simp] theorem presentRequest_reqRow (w : ReqWord) (s : State) : (presentRequest w s).reqRow = s.reqRow := rfl
@[simp] theorem presentRequest_reqCol (w : ReqWord) (s : State) : (presentRequest w s).reqCol = s.reqCol := rfl
@[simp] theorem presentRequest_strPtr (w : ReqWord) (s : State) : (presentRequest w s).strPtr = s.strPtr := rfl
@[simp] theorem presentRequest_tRs (w : ReqWord) (s : State) : (presentRequest w s).tRs = s.tRs := rfl
@[simp] theorem presentRequest_tVal (w : ReqWord) (s : State) : (presentRequest w s).tVal = s.tVal := rfl
@[simp] theorem presentRequest_tDly (w : ReqWord) (s : State) : (presentRequest w s).tDly = s.tDly := rfl
@[simp] theorem presentRequest_busy (w : ReqWord) (s : State) : (presentRequest w s).busy = s.busy := rfl
@[simp] theorem presentRequest_step (w : ReqWord) (s : State) : (presentRequest w s).step = s.step := rfl
@[simp] theorem presentRequest_phase (w : ReqWord) (s : State) : (presentRequest w s).phase = s.phase := rfl
@[simp] theorem presentRequest_bound (w : ReqWord) (s : State) : (presentRequest w s).bound = s.bound := rfl
@[simp] theorem presentRequest_fault (w : ReqWord) (s : State) : (presentRequest w s).fault = s.fault := rfl
@[simp] theorem presentRequest_progOffset (w : ReqWord) (s : State) : (presentRequest w s).progOffset = s.progOffset := rfl
@[simp] theorem presentRequest_unitHandle (w : ReqWord) (s : State) : (presentRequest w s).unitHandle = s.unitHandle := rfl
@[simp] theorem presentRequest_draws (w : ReqWord) (s : State) : (presentRequest w s).draws = s.draws := rfl
@[simp] theorem presentRequest_pins (w : ReqWord) (s : State) : (presentRequest w s).pins = s.pins := rfl
@[simp] theorem presentRequest_oe (w : ReqWord) (s : State) : (presentRequest w s).oe = s.oe := rfl
@[simp] theorem presentRequest_queue (w : ReqWord) (s : State) : (presentRequest w s).queue = s.queue := rfl
@[simp] theorem presentRequest_xuRun (w : ReqWord) (s : State) : (presentRequest w s).xuRun = s.xuRun := rfl
@[simp] theorem presentRequest_xuOsr (w : ReqWord) (s : State) : (presentRequest w s).xuOsr = s.xuOsr := rfl
@[simp] theorem presentRequest_xuHave (w : ReqWord) (s : State) : (presentRequest w s).xuHave = s.xuHave := rfl
@[simp] theorem presentRequest_xuWrites (w : ReqWord) (s : State) : (presentRequest w s).xuWrites = s.xuWrites := rfl
@[simp] theorem presentRequest_tlog (w : ReqWord) (s : State) : (presentRequest w s).tlog = s.tlog := rfl
@[simp] theorem presentRequest_ptrace (w : ReqWord) (s : State) : (presentRequest w s).ptrace = s.ptrace := rfl
@[simp] theorem presentRequest_qlog (w : ReqWord) (s : State) : (presentRequest w s).qlog = s.qlog := rfl
@[simp] theorem presentRequest_hostLog (w : ReqWord) (s : State) : (presentRequest w s).hostLog = s.hostLog := rfl
@[simp] theorem presentRequest_requests (w : ReqWord) (s : State) : (presentRequest w s).requests = s.requests ++ [w] := rfl
@[simp] theorem presentRequest_strMem (w : ReqWord) (s : State) : (presentRequest w s).strMem = s.strMem := rfl
@[simp] theorem presentRequest_sched (w : ReqWord) (s : State) : (presentRequest w s).sched = s.sched := rfl

/-! ### raiseFault: only `fault` changes -/

@[simp] theorem raiseFault_cfg (c : Cause) (s : State) : (raiseFault c s).cfg = s.cfg := by unfold raiseFault; split <;> simp_all
@[simp] theorem raiseFault_reqOp (c : Cause) (s : State) : (raiseFault c s).reqOp = s.reqOp := by unfold raiseFault; split <;> simp_all
@[simp] theorem raiseFault_reqRow (c : Cause) (s : State) : (raiseFault c s).reqRow = s.reqRow := by unfold raiseFault; split <;> simp_all
@[simp] theorem raiseFault_reqCol (c : Cause) (s : State) : (raiseFault c s).reqCol = s.reqCol := by unfold raiseFault; split <;> simp_all
@[simp] theorem raiseFault_strPtr (c : Cause) (s : State) : (raiseFault c s).strPtr = s.strPtr := by unfold raiseFault; split <;> simp_all
@[simp] theorem raiseFault_tRs (c : Cause) (s : State) : (raiseFault c s).tRs = s.tRs := by unfold raiseFault; split <;> simp_all
@[simp] theorem raiseFault_tVal (c : Cause) (s : State) : (raiseFault c s).tVal = s.tVal := by unfold raiseFault; split <;> simp_all
@[simp] theorem raiseFault_tDly (c : Cause) (s : State) : (raiseFault c s).tDly = s.tDly := by unfold raiseFault; split <;> simp_all
@[simp] theorem raiseFault_busy (c : Cause) (s : State) : (raiseFault c s).busy = s.busy := by unfold raiseFault; split <;> simp_all
@[simp] theorem raiseFault_step (c : Cause) (s : State) : (raiseFault c s).step = s.step := by unfold raiseFault; split <;> simp_all
@[simp] theorem raiseFault_phase (c : Cause) (s : State) : (raiseFault c s).phase = s.phase := by unfold raiseFault; split <;> simp_all
@[simp] theorem raiseFault_bound (c : Cause) (s : State) : (raiseFault c s).bound = s.bound := by unfold raiseFault; split <;> simp_all
@[simp] theorem raiseFault_fault (c : Cause) (s : State) : (raiseFault c s).fault = if s.fault = .none then c else s.fault := by unfold raiseFault; split <;> simp_all
@[simp] theorem raiseFault_progOffset (c : Cause) (s : State) : (raiseFault c s).progOffset = s.progOffset := by unfold raiseFault; split <;> simp_all
@[simp] theorem raiseFault_unitHandle (c : Cause) (s : State) : (raiseFault c s).unitHandle = s.unitHandle := by unfold raiseFault; split <;> simp_all
@[simp] theorem raiseFault_draws (c : Cause) (s : State) : (raiseFault c s).draws = s.draws := by unfold raiseFault; split <;> simp_all
@[simp] theorem raiseFault_pins (c : Cause) (s : State) : (raiseFault c s).pins = s.pins := by unfold raiseFault; split <;> simp_all
@[simp] theorem raiseFault_oe (c : Cause) (s : State) : (raiseFault c s).oe = s.oe := by unfold raiseFault; split <;> simp_all
@[simp] theorem raiseFault_queue (c : Cause) (s : State) : (raiseFault c s).queue = s.queue := by unfold raiseFault; split <;> simp_all
@[simp] theorem raiseFault_xuRun (c : Cause) (s : State) : (raiseFault c s).xuRun = s.xuRun := by unfold raiseFault; split <;> simp_all
@[simp] theorem raiseFault_xuOsr (c : Cause) (s : State) : (raiseFault c s).xuOsr = s.xuOsr := by unfold raiseFault; split <;> simp_all
@[simp] theorem raiseFault_xuHave (c : Cause) (s : State) : (raiseFault c s).xuHave = s.xuHave := by unfold raiseFault; split <;> simp_all
@[simp] theorem raiseFault_xuWrites (c : Cause) (s : State) : (raiseFault c s).xuWrites = s.xuWrites := by unfold raiseFault; split <;> simp_all
@[simp] theorem raiseFault_tlog (c : Cause) (s : State) : (raiseFault c s).tlog = s.tlog := by unfold raiseFault; split <;> simp_all
@[simp] theorem raiseFault_ptrace (c : Cause) (s : State) : (raiseFault c s).ptrace = s.ptrace := by unfold raiseFault; split <;> simp_all
@[simp] theorem raiseFault_qlog (c : Cause) (s : State) : (raiseFault c s).qlog = s.qlog := by unfold raiseFault; split <;> simp_all
@[simp] theorem raiseFault_hostLog (c : Cause) (s : State) : (raiseFault c s).hostLog = s.hostLog := by unfold raiseFault; split <;> simp_all
@[simp] theorem raiseFault_requests (c : Cause) (s : State) : (raiseFault c s).requests = s.requests := by unfold raiseFault; split <;> simp_all
@[simp] theorem raiseFault_strMem (c : Cause) (s : State) : (raiseFault c s).strMem = s.strMem := by unfold raiseFault; split <;> simp_all
@[simp] theorem raiseFault_sched (c : Cause) (s : State) : (raiseFault c s).sched = s.sched := by unfold raiseFault; split <;> simp_all

/-! ### finishOp: only the sequencing state changes -/

@[simp] theorem finishOp_cfg (s : State) : (finishOp s).cfg = s.cfg := by unfold finishOp; split <;> (try split) <;> rfl
@[simp] theorem finishOp_reqOp (s : State) : (finishOp s).reqOp = s.reqOp := by unfold finishOp; split <;> (try split) <;> rfl
@[simp] theorem finishOp_reqRow (s : State) : (finishOp s).reqRow = s.reqRow := by unfold finishOp; split <;> (try split) <;> rfl
@[simp] theorem finishOp_reqCol (s : State) : (finishOp s).reqCol = s.reqCol := by unfold finishOp; split <;> (try split) <;> rfl
@[simp] theorem finishOp_tRs (s : State) : (finishOp s).tRs = s.tRs := by unfold finishOp; split <;> (try split) <;> rfl
@[simp] theorem finishOp_tVal (s : State) : (finishOp s).tVal = s.tVal := by unfold finishOp; split <;> (try split) <;> rfl
@[simp] theorem finishOp_tDly (s : State) : (finishOp s).tDly = s.tDly := by unfold finishOp; split <;> (try split) <;> rfl
@[simp] theorem finishOp_bound (s : State) : (finishOp s).bound = s.bound := by unfold finishOp; split <;> (try split) <;> rfl
@[simp] theorem finishOp_fault (s : State) : (finishOp s).fault = s.fault := by unfold finishOp; split <;> (try split) <;> rfl
@[simp] theorem finishOp_progOffset (s : State) : (finishOp s).progOffset = s.progOffset := by unfold finishOp; split <;> (try split) <;> rfl
@[simp] theorem finishOp_unitHandle (s : State) : (finishOp s).unitHandle = s.unitHandle := by unfold finishOp; split <;> (try split) <;> rfl
@[simp] theorem finishOp_draws (s : State) : (finishOp s).draws = s.draws := by unfold finishOp; split <;> (try split) <;> rfl
@[simp] theorem finishOp_pins (s : State) : (finishOp s).pins = s.pins := by unfold finishOp; split <;> (try split) <;> rfl
@[simp] theorem finishOp_oe (s : State) : (finishOp s).oe = s.oe := by unfold finishOp; split <;> (try split) <;> rfl
@[simp] theorem finishOp_queue (s : State) : (finishOp s).queue = s.queue := by unfold finishOp; split <;> (try split) <;> rfl
@[simp] theorem finishOp_xuRun (s : State) : (finishOp s).xuRun = s.xuRun := by unfold finishOp; split <;> (try split) <;> rfl
@[simp] theorem finishOp_xuOsr (s : State) : (finishOp s).xuOsr = s.xuOsr := by unfold finishOp; split <;> (try split) <;> rfl
@[simp] theorem finishOp_xuHave (s : State) : (finishOp s).xuHave = s.xuHave := by unfold finishOp; split <;> (try split) <;> rfl
@[simp] theorem finishOp_xuWrites (s : State) : (finishOp s).xuWrites = s.xuWrites := by unfold finishOp; split <;> (try split) <;> rfl
@[simp] theorem finishOp_tlog (s : State) : (finishOp s).tlog = s.tlog := by unfold finishOp; split <;> (try split) <;> rfl
@[simp] theorem finishOp_ptrace (s : State) : (finishOp s).ptrace = s.ptrace := by unfold finishOp; split <;> (try split) <;> rfl
@[simp] theorem finishOp_qlog (s : State) : (finishOp s).qlog = s.qlog := by unfold finishOp; split <;> (try split) <;> rfl
@[simp] theorem finishOp_hostLog (s : State) : (finishOp s).hostLog = s.hostLog := by unfold finishOp; split <;> (try split) <;> rfl
@[simp] theorem finishOp_requests (s : State) : (finishOp s).requests = s.requests := by unfold finishOp; split <;> (try split) <;> rfl
@[simp] theorem finishOp_strMem (s : State) : (finishOp s).strMem = s.strMem := by unfold finishOp; split <;> (try split) <;> rfl
@[simp] theorem finishOp_sched (s : State) : (finishOp s).sched = s.sched := by unfold finishOp; split <;> (try split) <;> rfl

/-! ### readChar: only the sequencing state and the host-side log change -/

@[simp] theorem readChar_cfg (s : State) : (readChar s).cfg = s.cfg := by unfold readChar; dsimp only; split <;> rfl
@[simp] theorem readChar_reqOp (s : State) : (readChar s).reqOp = s.reqOp := by unfold readChar; dsimp only; split <;> rfl
@[simp] theorem readChar_reqRow (s : State) : (readChar s).reqRow = s.reqRow := by unfold readChar; dsimp only; split <;> rfl
@[simp] theorem readChar_reqCol (s : State) : (readChar s).reqCol = s.reqCol := by unfold readChar; dsimp only; split <;> rfl
@[simp] theorem readChar_strPtr (s : State) : (readChar s).strPtr = s.strPtr := by unfold readChar; dsimp only; split <;> rfl
@[simp] theorem readChar_tRs (s : State) : (readChar s).tRs = s.tRs := by unfold readChar; dsimp only; split <;> rfl
@[simp] theorem readChar_tVal (s : State) : (readChar s).tVal = s.tVal := by unfold readChar; dsimp only; split <;> rfl
@[simp] theorem readChar_tDly (s : State) : (readChar s).tDly = s.tDly := by unfold readChar; dsimp only; split <;> rfl
@[simp] theorem readChar_bound (s : State) : (readChar s).bound = s.bound := by unfold readChar; dsimp only; split <;> rfl
@[simp] theorem readChar_fault (s : State) : (readChar s).fault = s.fault := by unfold readChar; dsimp only; split <;> rfl
@[simp] theorem readChar_progOffset (s : State) : (readChar s).progOffset = s.progOffset := by unfold readChar; dsimp only; split <;> rfl
@[simp] theorem readChar_unitHandle (s : State) : (readChar s).unitHandle = s.unitHandle := by unfold readChar; dsimp only; split <;> rfl
@[simp] theorem readChar_draws (s : State) : (readChar s).draws = s.draws := by unfold readChar; dsimp only; split <;> rfl
@[simp] theorem readChar_pins (s : State) : (readChar s).pins = s.pins := by unfold readChar; dsimp only; split <;> rfl
@[simp] theorem readChar_oe (s : State) : (readChar s).oe = s.oe := by unfold readChar; dsimp only; split <;> rfl
@[simp] theorem readChar_queue (s : State) : (readChar s).queue = s.queue := by unfold readChar; dsimp only; split <;> rfl
@[simp] theorem readChar_xuRun (s : State) : (readChar s).xuRun = s.xuRun := by unfold readChar; dsimp only; split <;> rfl
@[simp] theorem readChar_xuOsr (s : State) : (readChar s).xuOsr = s.xuOsr := by unfold readChar; dsimp only; split <;> rfl
@[simp] theorem readChar_xuHave (s : State) : (readChar s).xuHave = s.xuHave := by unfold readChar; dsimp only; split <;> rfl
@[simp] theorem readChar_xuWrites (s : State) : (readChar s).xuWrites = s.xuWrites := by unfold readChar; dsimp only; split <;> rfl
@[simp] theorem readChar_tlog (s : State) : (readChar s).tlog = s.tlog := by unfold readChar; dsimp only; split <;> rfl
@[simp] theorem readChar_ptrace (s : State) : (readChar s).ptrace = s.ptrace := by unfold readChar; dsimp only; split <;> rfl
@[simp] theorem readChar_qlog (s : State) : (readChar s).qlog = s.qlog := by unfold readChar; dsimp only; split <;> rfl
@[simp] theorem readChar_hostLog (s : State) : (readChar s).hostLog = s.hostLog ++ [.memRead s.strPtr] := by unfold readChar; dsimp only; split <;> rfl
@[simp] theorem readChar_requests (s : State) : (readChar s).requests = s.requests := by unfold readChar; dsimp only; split <;> rfl
@[simp] theorem readChar_strMem (s : State) : (readChar s).strMem = s.strMem := by unfold readChar; dsimp only; split <;> rfl
@[simp] theorem readChar_sched (s : State) : (readChar s).sched = s.sched := by unfold readChar; dsimp only; split <;> rfl

/-! ### performThen and pushOrWait, as far as they change nothing -/

@[simp] theorem performThen_cfg (es : List Event) (s : State) : (performThen es s).cfg = s.cfg := by simp [performThen]
@[simp] theorem performThen_reqOp (es : List Event) (s : State) : (performThen es s).reqOp = s.reqOp := by simp [performThen]
@[simp] theorem performThen_reqRow (es : List Event) (s : State) : (performThen es s).reqRow = s.reqRow := by simp [performThen]
@[simp] theorem performThen_reqCol (es : List Event) (s : State) : (performThen es s).reqCol = s.reqCol := by simp [performThen]
@[simp] theorem performThen_tRs (es : List Event) (s : State) : (performThen es s).tRs = s.tRs := by simp [performThen]
@[simp] theorem performThen_tVal (es : List Event) (s : State) : (performThen es s).tVal = s.tVal := by simp [performThen]
@[simp] theorem performThen_tDly (es : List Event) (s : State) : (performThen es s).tDly = s.tDly := by simp [performThen]
@[simp] theorem performThen_bound (es : List Event) (s : State) : (performThen es s).bound = s.bound := by simp [performThen]
@[simp] theorem performThen_fault (es : List Event) (s : State) : (performThen es s).fault = s.fault := by simp [performThen]
@[simp] theorem performThen_progOffset (es : List Event) (s : State) : (performThen es s).progOffset = s.progOffset := by simp [performThen]
@[simp] theorem performThen_unitHandle (es : List Event) (s : State) : (performThen es s).unitHandle = s.unitHandle := by simp [performThen]
@[simp] theorem performThen_draws (es : List Event) (s : State) : (performThen es s).draws = s.draws := by simp [performThen]
@[simp] theorem performThen_pins (es : List Event) (s : State) : (performThen es s).pins = es.foldl pinsAfter s.pins := by simp [performThen]
@[simp] theorem performThen_oe (es : List Event) (s : State) : (performThen es s).oe = es.foldl oeAfter s.oe := by simp [performThen]
@[simp] theorem performThen_queue (es : List Event) (s : State) : (performThen es s).queue = s.queue := by simp [performThen]
@[simp] theorem performThen_xuRun (es : List Event) (s : State) : (performThen es s).xuRun = s.xuRun := by simp [performThen]
@[simp] theorem performThen_xuOsr (es : List Event) (s : State) : (performThen es s).xuOsr = s.xuOsr := by simp [performThen]
@[simp] theorem performThen_xuHave (es : List Event) (s : State) : (performThen es s).xuHave = s.xuHave := by simp [performThen]
@[simp] theorem performThen_xuWrites (es : List Event) (s : State) : (performThen es s).xuWrites = s.xuWrites := by simp [performThen]
@[simp] theorem performThen_tlog (es : List Event) (s : State) : (performThen es s).tlog = s.tlog := by simp [performThen]
@[simp] theorem performThen_ptrace (es : List Event) (s : State) : (performThen es s).ptrace = s.ptrace ++ es := by simp [performThen]
@[simp] theorem performThen_qlog (es : List Event) (s : State) : (performThen es s).qlog = s.qlog := by simp [performThen]
@[simp] theorem performThen_hostLog (es : List Event) (s : State) : (performThen es s).hostLog = s.hostLog := by simp [performThen]
@[simp] theorem performThen_requests (es : List Event) (s : State) : (performThen es s).requests = s.requests := by simp [performThen]
@[simp] theorem performThen_strMem (es : List Event) (s : State) : (performThen es s).strMem = s.strMem := by simp [performThen]
@[simp] theorem performThen_sched (es : List Event) (s : State) : (performThen es s).sched = s.sched := by simp [performThen]

@[simp] theorem pushOrWait_cfg (w : CmdWord) (s : State) : (pushOrWait w s).cfg = s.cfg := by unfold pushOrWait; split <;> simp
@[simp] theorem pushOrWait_reqOp (w : CmdWord) (s : State) : (pushOrWait w s).reqOp = s.reqOp := by unfold pushOrWait; split <;> simp
@[simp] theorem pushOrWait_reqRow (w : CmdWord) (s : State) : (pushOrWait w s).reqRow = s.reqRow := by unfold pushOrWait; split <;> simp
@[simp] theorem pushOrWait_reqCol (w : CmdWord) (s : State) : (pushOrWait w s).reqCol = s.reqCol := by unfold pushOrWait; split <;> simp
@[simp] theorem pushOrWait_tRs (w : CmdWord) (s : State) : (pushOrWait w s).tRs = s.tRs := by unfold pushOrWait; split <;> simp
@[simp] theorem pushOrWait_tVal (w : CmdWord) (s : State) : (pushOrWait w s).tVal = s.tVal := by unfold pushOrWait; split <;> simp
@[simp] theorem pushOrWait_tDly (w : CmdWord) (s : State) : (pushOrWait w s).tDly = s.tDly := by unfold pushOrWait; split <;> simp
@[simp] theorem pushOrWait_bound (w : CmdWord) (s : State) : (pushOrWait w s).bound = s.bound := by unfold pushOrWait; split <;> simp
@[simp] theorem pushOrWait_fault (w : CmdWord) (s : State) : (pushOrWait w s).fault = s.fault := by unfold pushOrWait; split <;> simp
@[simp] theorem pushOrWait_progOffset (w : CmdWord) (s : State) : (pushOrWait w s).progOffset = s.progOffset := by unfold pushOrWait; split <;> simp
@[simp] theorem pushOrWait_unitHandle (w : CmdWord) (s : State) : (pushOrWait w s).unitHandle = s.unitHandle := by unfold pushOrWait; split <;> simp
@[simp] theorem pushOrWait_draws (w : CmdWord) (s : State) : (pushOrWait w s).draws = s.draws := by unfold pushOrWait; split <;> simp
@[simp] theorem pushOrWait_pins (w : CmdWord) (s : State) : (pushOrWait w s).pins = s.pins := by unfold pushOrWait; split <;> simp
@[simp] theorem pushOrWait_oe (w : CmdWord) (s : State) : (pushOrWait w s).oe = s.oe := by unfold pushOrWait; split <;> simp
@[simp] theorem pushOrWait_xuRun (w : CmdWord) (s : State) : (pushOrWait w s).xuRun = s.xuRun := by unfold pushOrWait; split <;> simp
@[simp] theorem pushOrWait_xuOsr (w : CmdWord) (s : State) : (pushOrWait w s).xuOsr = s.xuOsr := by unfold pushOrWait; split <;> simp
@[simp] theorem pushOrWait_xuHave (w : CmdWord) (s : State) : (pushOrWait w s).xuHave = s.xuHave := by unfold pushOrWait; split <;> simp
@[simp] theorem pushOrWait_xuWrites (w : CmdWord) (s : State) : (pushOrWait w s).xuWrites = s.xuWrites := by unfold pushOrWait; split <;> simp
@[simp] theorem pushOrWait_tlog (w : CmdWord) (s : State) : (pushOrWait w s).tlog = s.tlog := by unfold pushOrWait; split <;> simp
@[simp] theorem pushOrWait_ptrace (w : CmdWord) (s : State) : (pushOrWait w s).ptrace = s.ptrace := by unfold pushOrWait; split <;> simp
@[simp] theorem pushOrWait_requests (w : CmdWord) (s : State) : (pushOrWait w s).requests = s.requests := by unfold pushOrWait; split <;> simp
@[simp] theorem pushOrWait_strMem (w : CmdWord) (s : State) : (pushOrWait w s).strMem = s.strMem := by unfold pushOrWait; split <;> simp
@[simp] theorem pushOrWait_sched (w : CmdWord) (s : State) : (pushOrWait w s).sched = s.sched := by unfold pushOrWait; split <;> simp

/-! ### bindTransport, as far as it changes nothing in either backend -/

@[simp] theorem bindTransport_cfg (s : State) : (bindTransport s).cfg = s.cfg := by unfold bindTransport; split <;> (try split) <;> simp_all
@[simp] theorem bindTransport_reqOp (s : State) : (bindTransport s).reqOp = s.reqOp := by unfold bindTransport; split <;> (try split) <;> simp_all
@[simp] theorem bindTransport_reqRow (s : State) : (bindTransport s).reqRow = s.reqRow := by unfold bindTransport; split <;> (try split) <;> simp_all
@[simp] theorem bindTransport_reqCol (s : State) : (bindTransport s).reqCol = s.reqCol := by unfold bindTransport; split <;> (try split) <;> simp_all
@[simp] theorem bindTransport_strPtr (s : State) : (bindTransport s).strPtr = s.strPtr := by unfold bindTransport; split <;> (try split) <;> simp_all
@[simp] theorem bindTransport_tRs (s : State) : (bindTransport s).tRs = s.tRs := by unfold bindTransport; split <;> (try split) <;> simp_all
@[simp] theorem bindTransport_tVal (s : State) : (bindTransport s).tVal = s.tVal := by unfold bindTransport; split <;> (try split) <;> simp_all
@[simp] theorem bindTransport_tDly (s : State) : (bindTransport s).tDly = s.tDly := by unfold bindTransport; split <;> (try split) <;> simp_all
@[simp] theorem bindTransport_busy (s : State) : (bindTransport s).busy = s.busy := by unfold bindTransport; split <;> (try split) <;> simp_all
@[simp] theorem bindTransport_step (s : State) : (bindTransport s).step = s.step := by unfold bindTransport; split <;> (try split) <;> simp_all
@[simp] theorem bindTransport_phase (s : State) : (bindTransport s).phase = s.phase := by unfold bindTransport; split <;> (try split) <;> simp_all
@[simp] theorem bindTransport_bound (s : State) : (bindTransport s).bound = true := by unfold bindTransport; split <;> (try split) <;> simp_all
@[simp] theorem bindTransport_fault (s : State) : (bindTransport s).fault = s.fault := by unfold bindTransport; split <;> (try split) <;> simp_all
@[simp] theorem bindTransport_queue (s : State) : (bindTransport s).queue = s.queue := by unfold bindTransport; split <;> (try split) <;> simp_all
@[simp] theorem bindTransport_xuOsr (s : State) : (bindTransport s).xuOsr = s.xuOsr := by unfold bindTransport; split <;> (try split) <;> simp_all
@[simp] theorem bindTransport_xuWrites (s : State) : (bindTransport s).xuWrites = s.xuWrites := by unfold bindTransport; split <;> (try split) <;> simp_all
@[simp] theorem bindTransport_tlog (s : State) : (bindTransport s).tlog = s.tlog := by unfold bindTransport; split <;> (try split) <;> simp_all
@[simp] theorem bindTransport_qlog (s : State) : (bindTransport s).qlog = s.qlog := by unfold bindTransport; split <;> (try split) <;> simp_all
@[simp] theorem bindTransport_requests (s : State) : (bindTransport s).requests = s.requests := by unfold bindTransport; split <;> (try split) <;> simp_all
@[simp] theorem bindTransport_strMem (s : State) : (bindTransport s).strMem = s.strMem := by unfold bindTransport; split <;> (try split) <;> simp_all
@[simp] theorem bindTransport_sched (s : State) : (bindTransport s).sched = s.sched := by unfold bindTransport; split <;> (try split) <;> simp_all

end Sys2Proof.Machine
end

