-- ==== Sys2Proof/Laws/Ops.lean ====
section
/-!
SUPPORT. What each shared operation can do, one lemma per case of it, and the pins: cite these instead of unfolding.
-/
namespace Sys2Proof.Machine

/-! ### Fault entry, binding, reading, pushing: the cases -/

theorem raiseFault_of_none {c : Cause} {s : State} (h : s.fault = .none) : raiseFault c s = { s with fault := c } :=
  if_pos h

theorem raiseFault_of_faulted {c : Cause} {s : State} (h : s.fault ≠ .none) : raiseFault c s = s := if_neg h

theorem ifBound_of_bound {k : State → State} {s : State} (h : s.bound = true) : ifBound k s = k s := if_pos h

theorem ifBound_of_unbound {k : State → State} {s : State} (h : s.bound = false) :
    ifBound k s = raiseFault .notInitialised s := if_neg (by simp [h])

theorem bindTransport_of_bound {s : State} (h : s.bound = true) : bindTransport s = s := if_pos h

theorem bindTransport_direct {s : State} (h : s.bound = false) (hb : s.cfg.backend = .direct) :
    bindTransport s = setBound (emit s (.configureOutputs (maskAll s.cfg.pins))) := by
  simp [bindTransport, h, hb]

theorem bindTransport_seq {s : State} (h : s.bound = false) (hb : s.cfg.backend = .seq) :
    bindTransport s = setBound (startUnit (claimUnit s)) := by
  simp [bindTransport, h, hb]

theorem readChar_sentinel {s : State} (h : s.strMem.read s.strPtr.toNat = sentinel) :
    readChar s = complete { s with hostLog := s.hostLog ++ [.memRead s.strPtr] } := if_pos h

theorem readChar_char {s : State} (h : s.strMem.read s.strPtr.toNat ≠ sentinel) :
    readChar s = { s with
      hostLog := s.hostLog ++ [.memRead s.strPtr], phase := .send8 (dataOut (s.strMem.read s.strPtr.toNat)) } :=
  if_neg h

theorem canPush_iff {s : State} : canPush s = true ↔ s.queue.length < s.cfg.qdepth := by simp [canPush]

theorem pushOrWait_room {w : CmdWord} {s : State} (h : s.queue.length < s.cfg.qdepth) :
    pushOrWait w s = finishOp (push w s) := if_pos (canPush_iff.2 h)

theorem pushOrWait_full {w : CmdWord} {s : State} (h : s.cfg.qdepth ≤ s.queue.length) : pushOrWait w s = s :=
  if_neg (by simp [canPush_iff, h])

/-! ### After an operation: the four ways a request goes on (R72, R75, R77, R78) -/

theorem finishOp_init_next {s : State} (h : s.reqOp = 0#3) (hs : s.step.toNat < 8) :
    finishOp s = gotoStep (s.step + 1) s := by
  unfold finishOp
  rw [if_pos h, if_pos hs]

theorem finishOp_init_last {s : State} (h : s.reqOp = 0#3) (hs : ¬ s.step.toNat < 8) : finishOp s = complete s := by
  unfold finishOp
  rw [if_pos h, if_neg hs]

theorem finishOp_string {s : State} (h : s.reqOp = 4#3) :
    finishOp s = { s with strPtr := s.strPtr + 1, phase := .fetchChar } := by
  unfold finishOp
  rw [if_neg (by rw [h]; decide), if_pos h]

theorem finishOp_single {s : State} (h : s.reqOp ≠ 0#3) (h' : s.reqOp ≠ 4#3) : finishOp s = complete s := by
  unfold finishOp
  rw [if_neg h, if_neg h']

/-! ### Events -/

theorem perform_append (es es' : List Event) (s : State) : perform (es ++ es') s = perform es' (perform es s) :=
  List.foldl_append

theorem settle_zero : settle 0 = [] := rfl

theorem settle_pos {d : Delay} (h : d ≠ 0) : settle d = [.wait d.toNat] := if_neg h

@[simp] theorem settle_pins (d : Delay) (pins : PinWord) : (settle d).foldl pinsAfter pins = pins := by
  unfold settle
  split <;> rfl

@[simp] theorem settle_oe (d : Delay) (oe : PinWord) : (settle d).foldl oeAfter oe = oe := by
  unfold settle
  split <;> rfl

@[simp] theorem nibbleEvents_oe (ps : PinSet) (value : PinWord) (oe : PinWord) :
    (nibbleEvents ps value).foldl oeAfter oe = oe := rfl

@[simp] theorem directNibble_oe (ps : PinSet) (rs : Rs) (v : Nibble) (d : Delay) (oe : PinWord) :
    (directNibble ps rs v d).foldl oeAfter oe = oe := by
  simp [directNibble]

@[simp] theorem directByte_oe (ps : PinSet) (rs : Rs) (b : Byte) (d : Delay) (oe : PinWord) :
    (directByte ps rs b d).foldl oeAfter oe = oe := by
  simp [directByte]

/-! ### Pin levels -/

theorem pinBit_level (p q : PinNum) : pinLevel (pinBit p) q = decide (p = q) := by
  revert p q
  decide

theorem or_level (a b : PinWord) (q : PinNum) : pinLevel (a ||| b) q = (pinLevel a q || pinLevel b q) := by
  simp [pinLevel]

theorem and_level (a b : PinWord) (q : PinNum) : pinLevel (a &&& b) q = (pinLevel a q && pinLevel b q) := by
  simp [pinLevel]

theorem not_level (a : PinWord) (q : PinNum) : pinLevel (~~~a) q = !pinLevel a q := by
  simp [pinLevel, q.isLt]

theorem zero_level (q : PinNum) : pinLevel 0#32 q = false := by
  simp [pinLevel]

theorem bitOnPin_level (b : Bool) (p q : PinNum) : pinLevel (bitOnPin b p) q = (b && decide (p = q)) := by
  cases b <;> simp [bitOnPin, pinBit_level, zero_level]

/-- The seven events move the enable line down and, of the other pins, those of the mask alone. -/
theorem nibbleEvents_enable_low (ps : PinSet) (value pins : PinWord) :
    pinLevel ((nibbleEvents ps value).foldl pinsAfter pins) ps.e = false := by
  simp [nibbleEvents, pinsAfter, or_level, and_level, not_level, bitOnPin_level, pinBit_level]

theorem nibbleEvents_outside (ps : PinSet) (value pins : PinWord) {q : PinNum}
    (h : pinLevel (maskAll ps) q = false) :
    pinLevel ((nibbleEvents ps value).foldl pinsAfter pins) q = pinLevel pins q := by
  simp only [maskAll, or_level, pinBit_level, Bool.or_eq_false_iff, decide_eq_false_iff_not] at h
  simp [nibbleEvents, pinsAfter, or_level, and_level, not_level, bitOnPin_level, pinBit_level, h.1, h.2]

end Sys2Proof.Machine
end

