-- ==== Sys2Proof/Laws/Decode.lean ====
section
/-!
SUPPORT. Decoding the words the machine itself forms: the latches, the values it sends, the words it pushes.
-/
namespace Sys2Proof.Machine

theorem decodeNibbleOp_latches (s : State) :
    decodeNibbleOp (nibbleLatches s) = .writeNibble s.tRs (lowNibble s.tVal) s.tDly := by
  simp only [decodeNibbleOp, nibbleLatches, Instr.writeNibble.injEq]
  refine ⟨?_, ?_, ?_⟩ <;>
  · ext i hi
    simp [hi]
    try (interval_cases i <;> simp)

theorem decodeByteOp_latches (s : State) : decodeByteOp (byteLatches s) = .writeByte s.tRs s.tVal s.tDly := by
  simp only [decodeByteOp, byteLatches, Instr.writeByte.injEq]
  refine ⟨?_, ?_, ?_⟩ <;>
  · ext i hi
    simp [hi]
    try (interval_cases i <;> simp)

theorem decodeOutByte_data (c : Byte) : decodeOutByte (dataOut c) = .ok (.outData c) := by
  revert c
  decide

theorem decodeOutByte_setDdram (a : BitVec 7) : decodeOutByte (setDdramOut a) = .ok (.outSetDdramAddr a) := by
  revert a
  decide

theorem dataOut_ne_sentinel {c : Byte} (h : c ≠ sentinel) : dataOut c ≠ dataOut sentinel := by
  revert c
  decide

theorem setDdramOut_ne_sentinel (a : BitVec 7) : setDdramOut a ≠ dataOut sentinel := by
  revert a
  decide

theorem decodeOutNibble_cases {w : BitVec 5} {i : Instr} (h : decodeOutNibble w = .ok i) :
    (w = 0x03#5 ∧ i = .outWakeNibble) ∨ (w = 0x02#5 ∧ i = .outMode4Nibble) := by
  unfold decodeOutNibble at h
  (repeat' split at h) <;> cases h
  · exact .inl ⟨by assumption, rfl⟩
  · exact .inr ⟨by assumption, rfl⟩

/-! ### The four shapes of a command word (R54, R55) -/

theorem decodeCommandWord_delay {w : CmdWord} (h0 : w.getLsbD 0 = false) :
    decodeCommandWord w = .cwDelayOnly (w.extractLsb' 1 19) :=
  if_neg (by rw [firstMarker, h0]; decide)

theorem decodeCommandWord_nibble {w : CmdWord} (h0 : w.getLsbD 0 = true) (h6 : w.getLsbD 6 = false) :
    decodeCommandWord w = .cwNibble (w.extractLsb' 5 1) (w.extractLsb' 1 4) (w.extractLsb' 7 19) :=
  (if_pos h0).trans (if_neg (by rw [secondMarker, h6]; decide))

theorem decodeCommandWord_byte {w : CmdWord} (h0 : w.getLsbD 0 = true) (h6 : w.getLsbD 6 = true)
    (h12 : w.getLsbD 12 = false) :
    decodeCommandWord w = .cwByte (w.extractLsb' 5 1) (w.extractLsb' 1 4) (w.extractLsb' 11 1) (w.extractLsb' 7 4)
      (w.extractLsb' 13 19) :=
  (if_pos h0).trans ((if_pos h6).trans (if_neg (by rw [thirdMarker, h12]; decide)))

theorem decodeCommandWord_malformed {w : CmdWord} (h0 : w.getLsbD 0 = true) (h6 : w.getLsbD 6 = true)
    (h12 : w.getLsbD 12 = true) : decodeCommandWord w = .cwMalformed w :=
  (if_pos h0).trans ((if_pos h6).trans (if_pos h12))

/-! ### The words pushed -/

theorem opWord_not_malformed (op : TransportOp) : isMalformed (opWord op) = false := by
  cases op <;>
    simp [opWord, nibbleWord, byteWord, addWriteCmd, addDelayCmd, isMalformed, firstMarker, secondMarker, thirdMarker]

/-! ### The segments of a word -/

theorem decodeWriteSegment_low {osr : CmdWord} (h : osr.getLsbD 0 = true) :
    decodeWriteSegment (osr.extractLsb' 0 6) = .ok (.segWrite (osr.extractLsb' 5 1) (osr.extractLsb' 1 4)) := by
  unfold decodeWriteSegment
  rw [if_pos (by simpa using h)]
  simp only [Decoded.ok.injEq, Instr.segWrite.injEq]
  refine ⟨?_, ?_⟩ <;>
  · ext i hi
    simp
    try omega

theorem decodeDelaySegment_low {osr : CmdWord} (h : osr.getLsbD 0 = false) :
    decodeDelaySegment (osr.extractLsb' 0 20) = .ok (.segDelay (osr.extractLsb' 1 19)) := by
  unfold decodeDelaySegment
  rw [if_neg (by simpa using h)]
  simp only [Decoded.ok.injEq, Instr.segDelay.injEq]
  ext i hi
  simp
  try omega

end Sys2Proof.Machine
end

