-- ==== Sys2Proof/Laws/Memory.lean ====
section
/-!
SUPPORT. The string memory: every operation keeps the canonical form, and a write is read back at its address and
nowhere else.
-/
namespace Sys2Proof.Machine

theorem Memory.wfFrom_cons {lo : Nat} {c : Host.Cell} {rest : Memory} :
    Memory.wfFrom lo (c :: rest) = true ↔
      lo ≤ c.1 ∧ c.1 < Memory.size ∧ c.2 ≠ Memory.unlisted ∧ Memory.wfFrom (c.1 + 1) rest = true := by
  simp [Memory.wfFrom, and_assoc]

theorem Memory.wfFrom_weaken {lo lo' : Nat} (h : lo ≤ lo') :
    ∀ {m : Memory}, Memory.wfFrom lo' m = true → Memory.wfFrom lo m = true
  | [], _ => rfl
  | _ :: _, hm => by
    rw [Memory.wfFrom_cons] at hm ⊢
    exact ⟨Nat.le_trans h hm.1, hm.2⟩

/-- A write keeps the canonical form. -/
theorem Memory.write_wfFrom {a : Nat} {b : Byte} (ha : a < Memory.size) :
    ∀ {m : Memory} {lo : Nat}, lo ≤ a → Memory.wfFrom lo m = true → Memory.wfFrom lo (m.write a b) = true
  | [], lo, hlo, _ => by
    unfold Memory.write
    split
    · rfl
    · simp_all [Memory.wfFrom]
  | c :: rest, lo, hlo, hm => by
    rw [Memory.wfFrom_cons] at hm
    obtain ⟨h1, h2, h3, h4⟩ := hm
    unfold Memory.write
    split
    · rw [Memory.wfFrom_cons]
      exact ⟨h1, h2, h3, Memory.write_wfFrom ha (by omega) h4⟩
    · split
      · split
        · exact Memory.wfFrom_weaken (by omega) h4
        · rw [Memory.wfFrom_cons]
          refine ⟨hlo, ha, by assumption, ?_⟩
          have : c.1 = a := by assumption
          exact this ▸ h4
      · split
        · exact Memory.wfFrom_cons.2 ⟨h1, h2, h3, h4⟩
        · rw [Memory.wfFrom_cons, Memory.wfFrom_cons]
          exact ⟨hlo, ha, by assumption, by simp only; omega, h2, h3, h4⟩

theorem Memory.write_wf {m : Memory} {a : Nat} {b : Byte} (ha : a < Memory.size) (hm : m.wf = true) :
    (m.write a b).wf = true :=
  Memory.write_wfFrom ha (Nat.zero_le a) hm

theorem Memory.empty_wf : Memory.wf [] = true := rfl

/-- Below its first address a canonical memory lists nothing. -/
theorem Memory.read_below {a : Nat} : ∀ {m : Memory} {lo : Nat}, a < lo → Memory.wfFrom lo m = true →
    m.read a = Memory.unlisted
  | [], _, _, _ => rfl
  | c :: rest, lo, h, hm => by
    rw [Memory.wfFrom_cons] at hm
    unfold Memory.read
    rw [if_neg (by omega)]
    exact Memory.read_below (lo := c.1 + 1) (by omega) hm.2.2.2

theorem Memory.read_write_same {a : Nat} {b : Byte} :
    ∀ {m : Memory} {lo : Nat}, Memory.wfFrom lo m = true → (m.write a b).read a = b
  | [], _, _ => by
    unfold Memory.write
    split <;> simp_all [Memory.read]
  | c :: rest, lo, hm => by
    rw [Memory.wfFrom_cons] at hm
    unfold Memory.write
    split
    · rw [Memory.read, if_neg (by omega)]
      exact Memory.read_write_same hm.2.2.2
    · split
      · split
        · rw [Memory.read_below (lo := c.1 + 1) (by omega) hm.2.2.2]
          exact Eq.symm (by assumption)
        · simp [Memory.read]
      · split
        · rw [Memory.read_below (lo := c.1) (by omega) (Memory.wfFrom_cons.2 ⟨Nat.le_refl _, hm.2⟩)]
          exact Eq.symm (by assumption)
        · simp [Memory.read]

theorem Memory.read_write_other {a a' : Nat} {b : Byte} (h : a' ≠ a) :
    ∀ {m : Memory} {lo : Nat}, Memory.wfFrom lo m = true → (m.write a b).read a' = m.read a'
  | [], _, _ => by
    unfold Memory.write
    split <;> simp [Memory.read, Ne.symm h]
  | c :: rest, lo, hm => by
    rw [Memory.wfFrom_cons] at hm
    unfold Memory.write
    split
    · rw [Memory.read, Memory.read, Memory.read_write_other h hm.2.2.2]
    · split
      · split
        · rw [Memory.read, if_neg (by omega)]
        · rw [Memory.read, Memory.read, if_neg (by simpa using Ne.symm h), if_neg (by omega)]
      · split
        · rfl
        · rw [Memory.read, if_neg (by simpa using Ne.symm h)]

end Sys2Proof.Machine
end

