-- ==== Sys2Proof/Laws/PerInstr.lean ====
section
/-!
SUPPORT. Families stated per instruction. FixedBits: the word of a well-formed instruction has the format and the fixed
bits (columns "format", "mask", "match") its row of opcode_table.json has, whatever its operands.
-/
namespace Sys2Proof.Laws.FixedBits

def Req (i : Instr) (value : ReqWord) : Prop := ∃ w, encode i = .req w ∧ w &&& 0x700000000#35 = value
def Cw (i : Instr) (mask value : CmdWord) : Prop := ∃ w, encode i = .cw w ∧ w &&& mask = value
def Out8 (i : Instr) (mask value : BitVec 9) : Prop := ∃ w, encode i = .out8 w ∧ w &&& mask = value
def Out4 (i : Instr) (value : BitVec 5) : Prop := ∃ w, encode i = .out4 w ∧ w &&& 0x1F#5 = value

def Statement (i : Instr) : Prop :=
  WellFormed i →
    match i with
    | .init => Req i 0x000000000#35
    | .clear => Req i 0x100000000#35
    | .home => Req i 0x200000000#35
    | .position _ _ => Req i 0x300000000#35
    | .writeString _ => Req i 0x400000000#35
    | .reserved5 => Req i 0x500000000#35
    | .reserved6 => Req i 0x600000000#35
    | .reserved7 => Req i 0x700000000#35
    | .cwNibble _ _ _ => Cw i 0x00000041#32 0x00000001#32
    | .cwByte _ _ _ _ _ => Cw i 0x00001041#32 0x00000041#32
    | .cwDelayOnly _ => Cw i 0x00000001#32 0x00000000#32
    | .cwMalformed _ => Cw i 0x00001041#32 0x00001041#32
    | .segWrite _ _ => ∃ w, encode i = .seg6 w ∧ w &&& 0x01#6 = 0x01#6
    | .segDelay _ => ∃ w, encode i = .seg20 w ∧ w &&& 0x00001#20 = 0x00000#20
    | .writeNibble _ _ _ => ∃ w, encode i = .top24 w
    | .writeByte _ _ _ => ∃ w, encode i = .top28 w
    | .outFunctionSet => Out8 i 0x1FF#9 0x028#9
    | .outDisplayControl => Out8 i 0x1FF#9 0x00C#9
    | .outEntryMode => Out8 i 0x1FF#9 0x006#9
    | .outClear => Out8 i 0x1FF#9 0x001#9
    | .outHome => Out8 i 0x1FF#9 0x002#9
    | .outSetDdramAddr _ => Out8 i 0x180#9 0x080#9
    | .outData _ => Out8 i 0x100#9 0x100#9
    | .outWakeNibble => Out4 i 0x03#5
    | .outMode4Nibble => Out4 i 0x02#5

/-- A word is the match under the mask when it is so bit by bit. -/
theorem of_bits {n : Nat} {w mask value : BitVec n}
    (h : ∀ k (_ : k < n), (w.getLsbD k && mask.getLsbD k) = value.getLsbD k) : w &&& mask = value := by
  apply BitVec.eq_of_getLsbD_eq
  intro k hk
  rw [BitVec.getLsbD_and]
  exact h k hk

theorem requestWord_op (op : BitVec 3) (arg : BitVec 32) :
    requestWord op arg &&& 0x700000000#35 = op.setWidth 35 <<< 32 := by
  refine of_bits fun k hk => ?_
  have e : (0x700000000#35) = (7#3).setWidth 35 <<< 32 := by decide
  rw [e]
  simp only [requestWord, BitVec.getLsbD_or, BitVec.getLsbD_shiftLeft, BitVec.getLsbD_setWidth]
  by_cases h : k < 32
  · simp [h]
  · have e7 : (7#3).getLsbD (k - 32) = true := by
      have : k = 32 ∨ k = 33 ∨ k = 34 := by omega
      rcases this with rfl | rfl | rfl <;> rfl
    have e8 : k - 32 < 35 := by omega
    simp [e7, e8, hk, h, BitVec.getLsbD_of_ge arg k (by omega)]

/-- A word under a mask with one bit set. -/
theorem and_bit (w : CmdWord) (n : Nat) (hn : n < 32) :
    w &&& 1#32 <<< n = if w.getLsbD n then 1#32 <<< n else 0#32 := by
  refine of_bits fun k hk => ?_
  by_cases h : k = n
  · subst h
    cases hw : w.getLsbD k <;> simp [hk]
  · have : (1#32 <<< n).getLsbD k = false := by
      by_cases hkn : k < n
      · simp [hkn]
      · simp [show k - n ≠ 0 by omega]
    rw [this]
    split
    · rw [this, Bool.and_false]
    · simp

theorem mask_two (w : CmdWord) : w &&& 0x41#32 = w &&& 1#32 <<< 0 ||| w &&& 1#32 <<< 6 := by
  rw [← BitVec.and_or_distrib_left]
  rfl

theorem mask_three (w : CmdWord) : w &&& 0x1041#32 = w &&& 1#32 <<< 0 ||| w &&& 1#32 <<< 6 ||| w &&& 1#32 <<< 12 := by
  rw [← BitVec.and_or_distrib_left, ← BitVec.and_or_distrib_left]
  rfl

theorem init : Statement .init := fun _ => ⟨_, rfl, requestWord_op 0 0⟩
theorem clear : Statement .clear := fun _ => ⟨_, rfl, requestWord_op 1 0⟩
theorem home : Statement .home := fun _ => ⟨_, rfl, requestWord_op 2 0⟩
theorem position (row col : Byte) : Statement (.position row col) := fun _ => ⟨_, rfl, requestWord_op 3 _⟩
theorem writeString (ptr : StrAddr) : Statement (.writeString ptr) := fun _ => ⟨_, rfl, requestWord_op 4 ptr⟩
theorem reserved5 : Statement .reserved5 := fun _ => ⟨_, rfl, requestWord_op 5 0⟩
theorem reserved6 : Statement .reserved6 := fun _ => ⟨_, rfl, requestWord_op 6 0⟩
theorem reserved7 : Statement .reserved7 := fun _ => ⟨_, rfl, requestWord_op 7 0⟩
theorem cwNibble (rs : Rs) (v : Nibble) (d : Delay) : Statement (.cwNibble rs v d) := by
  refine fun _ => ⟨_, rfl, ?_⟩
  rw [mask_two, and_bit _ 0 (by decide), and_bit _ 6 (by decide)]
  simp
theorem cwByte (rsHigh : Rs) (high : Nibble) (rsLow : Rs) (low : Nibble) (d : Delay) :
    Statement (.cwByte rsHigh high rsLow low d) := by
  refine fun _ => ⟨_, rfl, ?_⟩
  rw [mask_three, and_bit _ 0 (by decide), and_bit _ 6 (by decide), and_bit _ 12 (by decide)]
  simp
theorem cwDelayOnly (d : Delay) : Statement (.cwDelayOnly d) := by
  refine fun _ => ⟨_, rfl, ?_⟩
  have h := and_bit (d.setWidth 32 <<< 1) 0 (by decide)
  exact h.trans (if_neg (by simp))
theorem cwMalformed (w : CmdWord) : Statement (.cwMalformed w) := by
  intro h
  have h : (w.getLsbD 0 = true ∧ w.getLsbD 6 = true) ∧ w.getLsbD 12 = true := by
    simpa [WellFormed, Instr.wellFormed, isMalformed, firstMarker, secondMarker, thirdMarker] using h
  refine ⟨_, rfl, ?_⟩
  rw [mask_three, and_bit _ 0 (by decide), and_bit _ 6 (by decide), and_bit _ 12 (by decide), if_pos h.1.1,
    if_pos h.1.2, if_pos h.2]
  rfl
theorem segWrite (rs : Rs) (v : Nibble) : Statement (.segWrite rs v) := fun _ => ⟨_, rfl, by revert rs v; decide⟩
theorem segDelay (d : Delay) : Statement (.segDelay d) := by
  refine fun _ => ⟨_, rfl, of_bits fun k hk => ?_⟩
  by_cases h : k = 0
  · subst h
    simp
  · simp [h]
theorem writeNibble (rs : Rs) (v : Nibble) (d : Delay) : Statement (.writeNibble rs v d) := fun _ => ⟨_, rfl⟩
theorem writeByte (rs : Rs) (b : Byte) (d : Delay) : Statement (.writeByte rs b d) := fun _ => ⟨_, rfl⟩
theorem outFunctionSet : Statement .outFunctionSet := fun _ => ⟨_, rfl, rfl⟩
theorem outDisplayControl : Statement .outDisplayControl := fun _ => ⟨_, rfl, rfl⟩
theorem outEntryMode : Statement .outEntryMode := fun _ => ⟨_, rfl, rfl⟩
theorem outClear : Statement .outClear := fun _ => ⟨_, rfl, rfl⟩
theorem outHome : Statement .outHome := fun _ => ⟨_, rfl, rfl⟩
theorem outSetDdramAddr (a : BitVec 7) : Statement (.outSetDdramAddr a) := fun _ => ⟨_, rfl, by revert a; decide⟩
theorem outData (c : Byte) : Statement (.outData c) := fun _ => ⟨_, rfl, by revert c; decide⟩
theorem outWakeNibble : Statement .outWakeNibble := fun _ => ⟨_, rfl, rfl⟩
theorem outMode4Nibble : Statement .outMode4Nibble := fun _ => ⟨_, rfl, rfl⟩

end Sys2Proof.Laws.FixedBits
end

