-- ==== Sys2Proof/Laws/Step.lean ====
section
/-!
SUPPORT. What one step can do, said once: `FsmStep` for the FSM's moves, `UnitStep` for XU's, and the inversions of an
agent's move and of `step`. Invariants are derived from these.
-/
namespace Sys2Proof.Machine

/-! ### The FSM -/

/-- A request the FSM accepts, and the state the acceptance leaves (R65 to R72, R121). -/
inductive Accepted (s : State) : State → Prop
  | init : Accepted s (gotoStep 1 (bindTransport (accept 0 s)))
  | clear : Accepted s (ifBound (sendByte 0x01#9) (accept 1 s))
  | home : Accepted s (ifBound (sendByte 0x02#9) (accept 2 s))
  | position (row col : Byte) : Accepted s (ifBound positionBody { accept 3 s with reqRow := row, reqCol := col })
  | writeString (ptr : StrAddr) :
    Accepted s (ifBound (fun t => { t with phase := .fetchChar }) { accept 4 s with strPtr := ptr })
  | reserved (op : BitVec 3) (h : op = 5 ∨ op = 6 ∨ op = 7) : Accepted s (raiseFault .illegalRequest (accept op s))

/-- Everything one move of the FSM can do. -/
inductive FsmStep (s : State) : State → Prop
  | wait : FsmStep s s
  | request (w : ReqWord) (ws : List ReqWord) (t : State) (hf : s.fault = .none) (hp : s.phase = .idle)
      (hb : s.busy = false) (hr : s.requests = w :: ws) (ha : Accepted { s with requests := ws } t) : FsmStep s t
  | read (hf : s.fault = .none) (hp : s.phase = .fetchChar) : FsmStep s (readChar s)
  | issueByte (w : BitVec 9) (rs : Rs) (b : Byte) (d : Delay) (hf : s.fault = .none) (hp : s.phase = .send8 w) :
    FsmStep s (issueByte rs b d s)
  | issueNibble (w : BitVec 5) (rs : Rs) (v : Nibble) (d : Delay) (hf : s.fault = .none) (hp : s.phase = .send4 w) :
    FsmStep s (issueNibble rs v d s)
  | directNibble (hf : s.fault = .none) (hp : s.phase = .opNibble) (hd : s.cfg.backend = .direct) :
    FsmStep s (performThen (directNibble s.cfg.pins s.tRs (lowNibble s.tVal) s.tDly) s)
  | directByte (hf : s.fault = .none) (hp : s.phase = .opByte) (hd : s.cfg.backend = .direct) :
    FsmStep s (performThen (directByte s.cfg.pins s.tRs s.tVal s.tDly) s)
  | pushNibble (hf : s.fault = .none) (hp : s.phase = .opNibble) (hd : s.cfg.backend = .seq)
      (hq : s.queue.length < s.cfg.qdepth) :
    FsmStep s (finishOp (push (nibbleWord s.tRs (lowNibble s.tVal) s.tDly) s))
  | pushByte (hf : s.fault = .none) (hp : s.phase = .opByte) (hd : s.cfg.backend = .seq)
      (hq : s.queue.length < s.cfg.qdepth) : FsmStep s (finishOp (push (byteWord s.tRs s.tVal s.tDly) s))

theorem exec_request {w : ReqWord} {s : State} : ∃ t, exec (decodeRequest w) s = .next t ∧ Accepted s t := by
  unfold decodeRequest
  split
  · exact ⟨_, rfl, .init⟩
  · exact ⟨_, rfl, .clear⟩
  · exact ⟨_, rfl, .home⟩
  · exact ⟨_, rfl, .position _ _⟩
  · exact ⟨_, rfl, .writeString _⟩
  · exact ⟨_, rfl, .reserved 5 (.inl rfl)⟩
  · exact ⟨_, rfl, .reserved 6 (.inr (.inl rfl))⟩
  · exact ⟨_, rfl, .reserved 7 (.inr (.inr rfl))⟩

theorem exec_outByte {w : BitVec 9} {i : Instr} {s : State} (h : decodeOutByte w = .ok i) :
    ∃ rs b d, exec i s = .next (issueByte rs b d s) := by
  unfold decodeOutByte at h
  (repeat' split at h) <;> cases h <;> exact ⟨_, _, _, rfl⟩

theorem exec_outNibble {w : BitVec 5} {i : Instr} {s : State} (h : decodeOutNibble w = .ok i) :
    ∃ rs v d, exec i s = .next (issueNibble rs v d s) := by
  unfold decodeOutNibble at h
  (repeat' split at h) <;> cases h <;> exact ⟨_, _, _, rfl⟩

/-- The FSM's move never stops on what it may send, and is one of FsmStep's. -/
theorem fsm_step {s : State} (hs : s.fault = .none → Sendable s.phase) :
    ∃ t, act (fsmAction s) s = .next t ∧ FsmStep s t := by
  by_cases hf : s.fault = .none
  · have hs := hs hf
    cases hp : s.phase with
    | idle =>
      cases hr : s.requests with
      | nil => exact ⟨s, by simp [fsmAction, hf, hp, hr, act], .wait⟩
      | cons w ws =>
        cases hb : s.busy with
        | true => exact ⟨s, by simp [fsmAction, hf, hp, hr, hb, act], .wait⟩
        | false =>
          obtain ⟨t, ht, ha⟩ := exec_request (w := w) (s := { s with requests := ws })
          exact ⟨t, by simpa [fsmAction, hf, hp, hr, hb, act, runWord, decode] using ht, .request w ws t hf hp hb hr ha⟩
    | fetchChar => exact ⟨_, by simp [fsmAction, hf, hp, act], .read hf hp⟩
    | send8 w =>
      rw [hp] at hs
      cases hd : decodeOutByte w with
      | rejected e => simp [Sendable, hd, Decoded.toOption] at hs
      | ok i =>
        obtain ⟨rs, b, d, he⟩ := exec_outByte (s := s) hd
        exact ⟨_, by simpa [fsmAction, hf, hp, act, runWord, decode, hd] using he, .issueByte w rs b d hf hp⟩
    | send4 w =>
      rw [hp] at hs
      cases hd : decodeOutNibble w with
      | rejected e => simp [Sendable, hd, Decoded.toOption] at hs
      | ok i =>
        obtain ⟨rs, b, d, he⟩ := exec_outNibble (s := s) hd
        exact ⟨_, by simpa [fsmAction, hf, hp, act, runWord, decode, hd] using he, .issueNibble w rs b d hf hp⟩
    | opNibble =>
      have ha : act (fsmAction s) s = exec (.writeNibble s.tRs (lowNibble s.tVal) s.tDly) s := by
        simp [fsmAction, hf, hp, act, runWord, decode, decodeNibbleOp_latches]
      cases hb : s.cfg.backend with
      | direct => exact ⟨_, by rw [ha]; simp [exec, execWriteNibble, hb], .directNibble hf hp hb⟩
      | seq =>
        by_cases hq : s.queue.length < s.cfg.qdepth
        · exact ⟨_, by rw [ha]; simp [exec, execWriteNibble, hb, pushOrWait_room hq], .pushNibble hf hp hb hq⟩
        · exact ⟨s, by rw [ha]; simp [exec, execWriteNibble, hb, pushOrWait_full (Nat.le_of_not_lt hq)], .wait⟩
    | opByte =>
      have ha : act (fsmAction s) s = exec (.writeByte s.tRs s.tVal s.tDly) s := by
        simp [fsmAction, hf, hp, act, runWord, decode, decodeByteOp_latches]
      cases hb : s.cfg.backend with
      | direct => exact ⟨_, by rw [ha]; simp [exec, execWriteByte, hb], .directByte hf hp hb⟩
      | seq =>
        by_cases hq : s.queue.length < s.cfg.qdepth
        · exact ⟨_, by rw [ha]; simp [exec, execWriteByte, hb, pushOrWait_room hq], .pushByte hf hp hb hq⟩
        · exact ⟨s, by rw [ha]; simp [exec, execWriteByte, hb, pushOrWait_full (Nat.le_of_not_lt hq)], .wait⟩
  · exact ⟨s, by simp [fsmAction, hf, act], .wait⟩

/-- The same for a move that did answer a next state, whatever stands in `phase`. -/
theorem fsm_step_cases {s t : State} (h : act (fsmAction s) s = .next t) : FsmStep s t := by
  by_cases hs : s.fault = .none → Sendable s.phase
  · obtain ⟨t', h', hf⟩ := fsm_step hs
    rw [h'] at h
    cases h
    exact hf
  · simp only [Classical.not_imp] at hs
    obtain ⟨hf, hs⟩ := hs
    cases hp : s.phase with
    | send8 w =>
      cases hd : decodeOutByte w with
      | rejected e => simp [fsmAction, hf, hp, act, runWord, decode, hd] at h
      | ok i =>
        obtain ⟨rs, b, d, he⟩ := exec_outByte (s := s) hd
        simp [fsmAction, hf, hp, act, runWord, decode, hd, he] at h
        exact h ▸ .issueByte w rs b d hf hp
    | send4 w =>
      cases hd : decodeOutNibble w with
      | rejected e => simp [fsmAction, hf, hp, act, runWord, decode, hd] at h
      | ok i =>
        obtain ⟨rs, b, d, he⟩ := exec_outNibble (s := s) hd
        simp [fsmAction, hf, hp, act, runWord, decode, hd, he] at h
        exact h ▸ .issueNibble w rs b d hf hp
    | idle => simp [Sendable, hp] at hs
    | fetchChar => simp [Sendable, hp] at hs
    | opNibble => simp [Sendable, hp] at hs
    | opByte => simp [Sendable, hp] at hs

/-! ### XU -/

/-- Everything one fine move of XU can do. -/
inductive UnitStep (s : State) : State → Prop
  | wait : UnitStep s s
  | load (w : CmdWord) (q : List CmdWord) (hr : s.xuRun = true) (hh : s.xuHave = false) (hq : s.queue = w :: q) :
    UnitStep s (xuLoad w s)
  | write (hr : s.xuRun = true) (hh : s.xuHave = true) (hm : s.xuOsr.getLsbD 0 = true) (hn : s.xuWrites < 2) :
    UnitStep s (xuWrite (s.xuOsr.extractLsb' 5 1) (s.xuOsr.extractLsb' 1 4) s)
  | delay (hr : s.xuRun = true) (hh : s.xuHave = true) (hm : s.xuOsr.getLsbD 0 = false) :
    UnitStep s (xuDelay (s.xuOsr.extractLsb' 1 19) s)

/-- One fine move after another: a whole word is a few of them. -/
inductive UnitSteps (s : State) : State → Prop
  | refl : UnitSteps s s
  | tail {t u : State} (h : UnitSteps s t) (h' : UnitStep t u) : UnitSteps s u

theorem UnitSteps.single {s t : State} (h : UnitStep s t) : UnitSteps s t := .tail .refl h

theorem UnitSteps.trans {s t u : State} (h : UnitSteps s t) (h' : UnitSteps t u) : UnitSteps s u := by
  induction h' with
  | refl => exact h
  | tail _ h2 ih => exact .tail ih h2

/-- The segment at the low end of the shift register, executed. -/
theorem act_segment {s : State} :
    runWord (segmentOf s.xuOsr) s =
      if s.xuOsr.getLsbD 0 then exec (.segWrite (s.xuOsr.extractLsb' 5 1) (s.xuOsr.extractLsb' 1 4)) s
      else exec (.segDelay (s.xuOsr.extractLsb' 1 19)) s := by
  unfold segmentOf
  split
  · rename_i h
    simp [runWord, decode, decodeWriteSegment_low h]
  · rename_i h
    simp [runWord, decode, decodeDelaySegment_low (Bool.eq_false_of_not_eq_true h)]

theorem unit_segment_cases {s t : State} (hr : s.xuRun = true) (hh : s.xuHave = true)
    (h : runWord (segmentOf s.xuOsr) s = .next t) : UnitStep s t := by
  rw [act_segment] at h
  split at h
  · rename_i hm
    by_cases hn : s.xuWrites < 2
    · simp [exec, execSegWrite, hn] at h
      exact h ▸ .write hr hh hm hn
    · simp [exec, execSegWrite, hn] at h
  · rename_i hm
    simp [exec, execSegDelay] at h
    exact h ▸ .delay hr hh (Bool.eq_false_of_not_eq_true hm)

/-- XU's fine move is one of UnitStep's. -/
theorem unit_step_cases {s t : State} (h : act (xuAction s) s = .next t) : UnitStep s t := by
  unfold xuAction at h
  split at h
  · cases h
    exact .wait
  · rename_i hr
    have hr : s.xuRun = true := by simpa using hr
    split at h
    · rename_i hh
      exact unit_segment_cases hr hh h
    · rename_i hh
      split at h
      · cases h
        exact .wait
      · rename_i w q hq
        cases h
        exact .load w q hr (by simpa using hh) hq

/-- A whole word replayed is fine moves one after the other (R108). -/
theorem unit_word_cases {s t : State} (h : act (xuWordAction s) s = .next t) : UnitSteps s t := by
  unfold xuWordAction at h
  split at h
  · cases h
    exact .refl
  · rename_i hr
    have hr : s.xuRun = true := by simpa using hr
    split at h
    · rename_i hh
      exact .single (unit_segment_cases hr hh h)
    · rename_i hh
      split at h
      · cases h
        exact .refl
      · rename_i w q hq
        have hload : UnitSteps s (xuLoad w s) := .single (.load w q hr (by simpa using hh) hq)
        have sh6 : ∀ i, (w >>> 6).getLsbD i = w.getLsbD (6 + i) := fun i => BitVec.getLsbD_ushiftRight ..
        have h : exec (decodeCommandWord w) (xuLoad w s) = .next t := h
        have e1 : ∀ n m, (w >>> 6).extractLsb' n m = w.extractLsb' (n + 6) m := by
          intro n m
          ext i hi
          simp only [BitVec.getElem_extractLsb', sh6]
          congr 1
          omega
        by_cases h0 : w.getLsbD 0 = true
        · have hw1 : UnitStep (xuLoad w s) (xuWrite (w.extractLsb' 5 1) (w.extractLsb' 1 4) (xuLoad w s)) :=
            UnitStep.write (s := xuLoad w s) (by simpa using hr) rfl h0 (by simp)
          by_cases h6 : w.getLsbD 6 = true
          · by_cases h12 : w.getLsbD 12 = true
            · rw [decodeCommandWord_malformed h0 h6 h12] at h
              cases h
            · rw [decodeCommandWord_byte h0 h6 (by simpa using h12)] at h
              cases h
              have hw2 := UnitStep.write (s := xuWrite (w.extractLsb' 5 1) (w.extractLsb' 1 4) (xuLoad w s))
                (by simpa using hr) (by simp) (by simpa [sh6] using h6) (by simp)
              simp only [xuWrite_xuOsr, xuLoad_xuOsr, e1] at hw2
              have hd := UnitStep.delay (s := xuWrite (w.extractLsb' 11 1) (w.extractLsb' 7 4)
                  (xuWrite (w.extractLsb' 5 1) (w.extractLsb' 1 4) (xuLoad w s)))
                (by simpa using hr) (by simp) (by simpa using h12)
              have e2 : (w >>> 6 >>> 6).extractLsb' 1 19 = w.extractLsb' 13 19 := by
                ext i hi
                simp only [BitVec.getElem_extractLsb', BitVec.getLsbD_ushiftRight]
                congr 1
                omega
              simp only [xuWrite_xuOsr, xuLoad_xuOsr, e2] at hd
              exact ((hload.tail hw1).tail hw2).tail hd
          · rw [decodeCommandWord_nibble h0 (by simpa using h6)] at h
            cases h
            have hd := UnitStep.delay (s := xuWrite (w.extractLsb' 5 1) (w.extractLsb' 1 4) (xuLoad w s))
              (by simpa using hr) (by simp) (by simpa [sh6] using h6)
            simp only [xuWrite_xuOsr, xuLoad_xuOsr, e1] at hd
            exact (hload.tail hw1).tail hd
        · rw [decodeCommandWord_delay (by simpa using h0)] at h
          cases h
          exact hload.tail (UnitStep.delay (s := xuLoad w s) (by simpa using hr) rfl (by simpa using h0))

/-! ### The step -/

/-- What a step that answers a next state is: a move of one agent, or of the host. `u` is `s` less the move taken. -/
theorem step_cases {s t : State} (h : step s = .next t) :
    ∃ rest, let u := { s with sched := rest }
      (s.sched = [] ∧ rest = [] ∧ (FsmStep u t ∨ UnitStep u t)) ∨
      (s.sched = .fsm :: rest ∧ FsmStep u t) ∨ (s.sched = .xu :: rest ∧ UnitStep u t) ∨
      (s.sched = .xuWord :: rest ∧ UnitSteps u t) ∨ (s.sched = .reset :: rest ∧ t = applyReset u) ∨
      (∃ a b, s.sched = .hostWrite a b :: rest ∧ t = hostWrite a b u) ∨
      (∃ w, s.sched = .present w :: rest ∧ t = presentRequest w u) := by
  unfold step at h
  split at h
  · rename_i hs
    have e : s = { s with sched := [] } := by rw [← hs]
    refine ⟨[], .inl ⟨hs, rfl, ?_⟩⟩
    unfold unscheduledAction at h
    split at h
    · exact .inr (e ▸ unit_step_cases h)
    · exact .inl (e ▸ fsm_step_cases h)
  · rename_i m rest hs
    refine ⟨rest, .inr ?_⟩
    cases m with
    | fsm => exact .inl ⟨hs, fsm_step_cases h⟩
    | xu => exact .inr (.inl ⟨hs, unit_step_cases h⟩)
    | xuWord => exact .inr (.inr (.inl ⟨hs, unit_word_cases h⟩))
    | reset => cases h; exact .inr (.inr (.inr (.inl ⟨hs, rfl⟩)))
    | hostWrite a b => cases h; exact .inr (.inr (.inr (.inr (.inl ⟨a, b, hs, rfl⟩))))
    | present w => cases h; exact .inr (.inr (.inr (.inr (.inr ⟨w, hs, rfl⟩))))

end Sys2Proof.Machine
end

