-- ==== Sys2Proof/Laws/Progress.lean ====
section
/-!
SUPPORT. Runs: one step of a finite and of an infinite run, what of a state decides whether an agent has a step, and the
reads of the host-side log. Cite these instead of unfolding.
-/
namespace Sys2Proof.Machine

/-- One step of a finite run. -/
theorem run_succ {s t : State} {k : Nat} (h : step s = .next t) :
    Host.Core.run Sys2Proof.core (k + 1) s = Host.Core.run Sys2Proof.core k t := by
  have h' : Sys2Proof.core.step s = .next t := h
  simp only [Host.Core.run, h']

/-- A run that stops at its first step. -/
theorem run_refused {s : State} {r : Refusal} {k : Nat} (h : step s = .refused r) :
    Host.Core.run Sys2Proof.core (k + 1) s = .refused r := by
  have h' : Sys2Proof.core.step s = .refused r := h
  simp only [Host.Core.run, h']

/-- One step of an infinite run is its move made. -/
theorem runUnder_move {moves : Nat → Move} {run : Nat → State} (h : RunUnder moves run) (n : Nat) :
    makeMove (moves n) { run n with sched := [] } = .next (run (n + 1)) := h n

/-- The moves a state lists do not decide whether the FSM has a step. -/
@[simp] theorem fsmAction_isWait_sched (s : State) (l : List Move) :
    (fsmAction { s with sched := l }).isWait = (fsmAction s).isWait := by
  unfold fsmAction
  simp only
  (repeat' split) <;> rfl

@[simp] theorem fsmEnabled_sched (s : State) (l : List Move) : fsmEnabled { s with sched := l } = fsmEnabled s := by
  unfold fsmEnabled
  rw [fsmAction_isWait_sched]
  rfl

@[simp] theorem xuEnabled_sched (s : State) (l : List Move) : xuEnabled { s with sched := l } = xuEnabled s := by
  unfold xuEnabled xuAction
  simp only
  (repeat' split) <;> rfl

/-- XU has a step exactly when it runs and holds or finds a word. -/
theorem xuEnabled_iff {s : State} :
    xuEnabled s = true ↔ s.xuRun = true ∧ (s.xuHave = true ∨ s.queue ≠ []) := by
  unfold xuEnabled xuAction
  (repeat' split) <;> simp_all [Action.isWait]

/-- What a blocked FSM is: in SEQ, an operation in the latches and no room. -/
theorem blocked_iff {s : State} : blocked s = true ↔
    s.cfg.backend = .seq ∧ s.cfg.qdepth ≤ s.queue.length ∧ (s.phase = .opNibble ∨ s.phase = .opByte) := by
  simp [blocked, canPush, and_assoc]

@[simp] theorem readAddr_memRead (a : StrAddr) : (HostEvent.memRead a).readAddr = some a := rfl
@[simp] theorem readAddr_push (w : CmdWord) : (HostEvent.push w).readAddr = none := rfl
@[simp] theorem readAddr_loadProgram : HostEvent.loadProgram.readAddr = none := rfl
@[simp] theorem readAddr_acquireUnit : HostEvent.acquireUnit.readAddr = none := rfl
@[simp] theorem readAddr_start (h o : Nat) (e d : PinNum) : (HostEvent.start h o e d).readAddr = none := rfl

end Sys2Proof.Machine
end

