-- ==== Sys2Proof/Tests/Slice0.lean ====
section
/-!
SUPPORT. Tests: expected values from 95_test_vectors.md (S, V, P numbers) and from the encodings of 30_encoding.md and
opcode_table.json, and, for every statement with hypotheses, a state and operands that meet them (`witness_...`).
-/
namespace Sys2Proof.Tests
open Sys2Proof Sys2Proof.Machine

/-! ### WellFormed: each marker of a malformed word is asked for (R55 b) -/

theorem wellFormed_accepts_three_markers : (Instr.cwMalformed 0b00000000000000000001000001000001).wellFormed = true := by decide
theorem wellFormed_refuses_clear_bit0 : (Instr.cwMalformed 0b00000000000000000001000001000000).wellFormed = false := by decide
theorem wellFormed_refuses_clear_bit6 : (Instr.cwMalformed 0b00000000000000000001000000000001).wellFormed = false := by decide
theorem wellFormed_refuses_clear_bit12 : (Instr.cwMalformed 0b00000000000000000000000001000001).wellFormed = false := by decide

/-! ### Decoding, a word of every row written out bit by bit from its encoding -/

theorem decode_init : decode (.req 0b00000000000000000000000000000000000) = .ok .init := by decide
theorem decode_clear : decode (.req 0b00100000000000000000000000000000000) = .ok .clear := by decide
theorem decode_home : decode (.req 0b01000000000000000000000000000000000) = .ok .home := by decide
/-- V18: the ignored bits hold 0xABCD. -/
theorem decode_position : decode (.req 0b01110101011110011010000000100000000) = .ok (.position 1 0) := by decide
theorem decode_position_fields : decode (.req 0b01100000000000000000000001000010011) = .ok (.position 2 19) := by decide
theorem decode_writeString : decode (.req 0b10010000000000000000000000000000001) = .ok (.writeString 0x80000001) := by decide
theorem decode_reserved5 : decode (.req 0b10111111111111111111111111111111111) = .ok .reserved5 := by decide
theorem decode_reserved6 : decode (.req 0b11000000000000000000000000000000000) = .ok .reserved6 := by decide
theorem decode_reserved7 : decode (.req 0b11100000000000000000000000000000000) = .ok .reserved7 := by decide
/-- V39. -/
theorem decode_cwNibble : decode (.cw 0b00000000000000000000000010110101) = .ok (.cwNibble 1 0xA 1) := by decide
/-- V30. -/
theorem decode_cwByte : decode (.cw 0b00000000000001010000010001000101) = .ok (.cwByte 0 0x2 0 0x8 40) := by decide
/-- V35: every field at its maximum. -/
theorem decode_cwByte_max : decode (.cw 0b11111111111111111110111111111111) = .ok (.cwByte 1 0xF 1 0xF 524287) := by decide
/-- V52. -/
theorem decode_cwDelayOnly : decode (.cw 0b00000000000000000000000001010000) = .ok (.cwDelayOnly 40) := by decide
/-- V53. -/
theorem decode_cwMalformed : decode (.cw 0b00000000000000000001000001000001) = .ok (.cwMalformed 0x1041) := by decide
theorem decode_segWrite : decode (.seg6 0b110101) = .ok (.segWrite 1 0xA) := by decide
theorem decode_segWrite_marker : decode (.seg6 0b110100) = .rejected .writeMarkerClear := by decide
theorem decode_segDelay : decode (.seg20 0b00000000000001010000) = .ok (.segDelay 40) := by decide
theorem decode_segDelay_marker : decode (.seg20 0b00000000000001010001) = .rejected .delayMarkerSet := by decide
theorem decode_writeNibble : decode (.top24 0b100110000001000001101000) = .ok (.writeNibble 1 0x3 4200) := by decide
theorem decode_writeByte : decode (.top28 0b1010010000000000000000101000) = .ok (.writeByte 1 0x48 40) := by decide
theorem decode_outFunctionSet : decode (.out8 0b000101000) = .ok .outFunctionSet := by decide
theorem decode_outDisplayControl : decode (.out8 0b000001100) = .ok .outDisplayControl := by decide
theorem decode_outEntryMode : decode (.out8 0b000000110) = .ok .outEntryMode := by decide
theorem decode_outClear : decode (.out8 0b000000001) = .ok .outClear := by decide
theorem decode_outHome : decode (.out8 0b000000010) = .ok .outHome := by decide
theorem decode_outSetDdramAddr : decode (.out8 0b010011000) = .ok (.outSetDdramAddr 0x18) := by decide
theorem decode_outData : decode (.out8 0b101001000) = .ok (.outData 0x48) := by decide
theorem decode_outByte_other : decode (.out8 0b000000100) = .rejected .byteNeverSent := by decide
theorem decode_outWakeNibble : decode (.out4 0b00011) = .ok .outWakeNibble := by decide
theorem decode_outMode4Nibble : decode (.out4 0b00010) = .ok .outMode4Nibble := by decide
theorem decode_outNibble_other : decode (.out4 0b10011) = .rejected .nibbleNeverSent := by decide

/-- The encoder builds the words of the table (V3, V46, V47, V53). -/
theorem encode_words :
    encode (.position 2 4) = .req 0x300000204 ∧ encode (.cwNibble 0 0x3 4200) = .cw 0x00083407 ∧
    encode (.cwByte 0 0x2 0 0x8 40) = .cw 0x00050445 ∧ encode (.cwMalformed 0x1041) = .cw 0x1041 ∧
    encode (.segWrite 1 0xA) = .seg6 0b110101 ∧ encode (.segDelay 40) = .seg20 0x50 ∧
    encode (.outSetDdramAddr 0x18) = .out8 0x098 ∧ encode (.outData 0x48) = .out8 0x148 := by decide

/-! ### The host's two questions, on the words of the table (log 19) -/

theorem tableWord_requests :
    decodeTableWord 40 0x000000000 = some .init ∧ decodeTableWord 40 0x300000204 = some (.position 2 4) ∧
    decodeTableWord 40 0x700000000 = some .reserved7 := by decide
theorem tableWord_commandWords :
    decodeTableWord 32 0x00083407 = some (.cwNibble 0 0x3 4200) ∧ decodeTableWord 32 0x00000041 = some (.cwByte 0 0 0 0 0) ∧
    decodeTableWord 32 0x00000000 = some (.cwDelayOnly 0) ∧ decodeTableWord 32 0x00001041 = some (.cwMalformed 0x1041) := by decide
theorem tableWord_segments :
    decodeTableWord 8 0x01 = some (.segWrite 0 0) ∧ decodeTableWord 24 0x00 = some (.segDelay 0) := by decide
theorem tableWord_outputs :
    decodeTableWord 16 0x028 = some .outFunctionSet ∧ decodeTableWord 16 0x00C = some .outDisplayControl ∧
    decodeTableWord 16 0x006 = some .outEntryMode ∧ decodeTableWord 16 0x001 = some .outClear ∧
    decodeTableWord 16 0x002 = some .outHome ∧ decodeTableWord 16 0x080 = some (.outSetDdramAddr 0) ∧
    decodeTableWord 16 0x100 = some (.outData 0) ∧ decodeTableWord 8 0x03 = some .outWakeNibble ∧
    decodeTableWord 8 0x02 = some .outMode4Nibble := by decide

/-! ### States for the tests -/

/-- DIRECT on PS-B, INIT done. -/
def direct : State :=
  { State.resetWith { backend := .direct, pins := .psB, qdepth := 4 } with bound := true, oe := 0x14A9 }

/-- SEQ on PS-A, INIT done, XU running. -/
def seq : State := { State.resetWith .standard with bound := true, oe := 0x3F0000, xuRun := true }

/-- SEQ on PS-A, before the first INIT. -/
def fresh : State := State.resetWith .standard

/-- A property of the next state; false if the step stops. -/
def next (o : Host.Outcome State Fault Refusal) (p : State → Prop) [∀ s, Decidable (p s)] : Bool :=
  match o with
  | .next s => decide (p s)
  | .fault _ | .refused _ => false

/-- The step refuses, and why. -/
def refusal : Host.Outcome State Fault Refusal → Option Refusal
  | .refused r => some r
  | .next _ | .fault _ => none

/-! ### One step each -/

theorem test_init_binds_direct : next (step ({ direct with bound := false, oe := 0 }.withFetchWord 40 0x000000000))
    (fun t => t.busy = true ∧ t.step = 1 ∧ t.bound = true ∧ t.oe = 0x14A9 ∧ t.ptrace = [.configureOutputs 0x14A9]) = true := by decide
/-- V58: no second binding. -/
theorem test_init_twice : next (step (direct.withFetchWord 40 0x000000000))
    (fun t => t.busy = true ∧ t.step = 1 ∧ t.phase = .send4 0x03 ∧ t.ptrace = []) = true := by decide
theorem test_clear : next (step (direct.withFetchWord 40 0x100000000)) (fun t => t.phase = .send8 0x001 ∧ t.busy = true) = true := by decide
/-- V54. -/
theorem test_clear_before_init : next (step (fresh.withFetchWord 40 0x100000000))
    (fun t => t.fault.code = 4 ∧ t.busy = true ∧ t.tlog = [] ∧ t.ptrace = [] ∧ t.qlog = []) = true := by decide
theorem test_home : next (step (direct.withFetchWord 40 0x200000000)) (fun t => t.phase = .send8 0x002 ∧ t.reqOp = 2) = true := by decide
/-- V12: the sum passes 8 bits. -/
theorem test_position : next (step (direct.withFetchWord 40 0x3000003FF)) (fun t => t.phase = .send8 0x0D3 ∧ t.fault = .none) = true := by decide
/-- V16. -/
theorem test_position_row4 : next (step (direct.withFetchWord 40 0x300000400)) (fun t => t.fault.code = 3 ∧ t.tlog = [] ∧ ready t = false) = true := by decide
theorem test_writeString : next (step (direct.withFetchWord 40 0x400001000)) (fun t => t.strPtr = 0x1000 ∧ t.phase = .fetchChar ∧ t.hostLog = []) = true := by decide
/-- S6: 'H'. -/
theorem test_readChar : next (step { direct with phase := .fetchChar, strPtr := 0x1000, strMem := [(0x1000, 0x48)], sched := [.fsm] })
    (fun t => t.phase = .send8 0x148 ∧ t.strPtr = 0x1000) = true := by decide
theorem test_reserved5 : next (step (direct.withFetchWord 40 0x500000000)) (fun t => t.fault.code = 5 ∧ t.tlog = []) = true := by decide
/-- V55. -/
theorem test_reserved6 : next (step (direct.withFetchWord 40 0x600000000)) (fun t => t.fault.code = 5 ∧ t.reqOp = 6) = true := by decide
/-- R122: code 5 is tested before code 4. -/
theorem test_reserved7_unbound : next (step (fresh.withFetchWord 40 0x700000000)) (fun t => t.fault.code = 5 ∧ t.reqOp = 7) = true := by decide

theorem test_outFunctionSet : next (step (direct.withFetchWord 16 0x028)) (fun t => t.tlog = [.byte 0 0x28 40] ∧ t.phase = .opByte) = true := by decide
theorem test_outDisplayControl : next (step (direct.withFetchWord 16 0x00C)) (fun t => t.tlog = [.byte 0 0x0C 40]) = true := by decide
theorem test_outEntryMode : next (step (direct.withFetchWord 16 0x006)) (fun t => t.tlog = [.byte 0 0x06 40]) = true := by decide
theorem test_outClear : next (step (direct.withFetchWord 16 0x001)) (fun t => t.tlog = [.byte 0 0x01 2000]) = true := by decide
theorem test_outHome : next (step (direct.withFetchWord 16 0x002)) (fun t => t.tlog = [.byte 0 0x02 1600]) = true := by decide
theorem test_outSetDdramAddr : next (step (direct.withFetchWord 16 0x0D3)) (fun t => t.tlog = [.byte 0 0xD3 40] ∧ t.tRs = 0) = true := by decide
theorem test_outData : next (step (direct.withFetchWord 16 0x1FF)) (fun t => t.tlog = [.byte 1 0xFF 40] ∧ t.tRs = 1) = true := by decide
theorem test_outWakeNibble : next (step (direct.withFetchWord 8 0x03)) (fun t => t.tlog = [.nibble 0 0x3 4200] ∧ t.phase = .opNibble) = true := by decide
theorem test_outMode4Nibble : next (step (direct.withFetchWord 8 0x02)) (fun t => t.tlog = [.nibble 0 0x2 40]) = true := by decide

/-- V20. -/
theorem test_writeNibble_direct : next (step { direct with tRs := 0, tVal := 0x03, tDly := 4200, busy := true, phase := .opNibble, sched := [.fsm] })
    (fun t => t.ptrace = [.writeMasked 0x10A9 0xA0, .setLevel 10 false, .wait 1, .setLevel 10 true, .wait 1,
      .setLevel 10 false, .wait 1, .wait 4200]) = true := by decide
/-- V37. -/
theorem test_writeNibble_seq : next (step { seq with tRs := 1, tVal := 0x0F, tDly := 524287, busy := true, phase := .opNibble, sched := [.fsm] })
    (fun t => t.queue = [0x03FFFFBF] ∧ t.qlog = [0x03FFFFBF] ∧ t.ptrace = []) = true := by decide
/-- V23. -/
theorem test_writeByte_direct : next (step { direct with tRs := 1, tVal := 0xA5, tDly := 40, busy := true, phase := .opByte, sched := [.fsm] })
    (fun t => t.ptrace = [.writeMasked 0x10A9 0x0029, .setLevel 10 false, .wait 1, .setLevel 10 true, .wait 1,
      .setLevel 10 false, .wait 1, .writeMasked 0x10A9 0x1088, .setLevel 10 false, .wait 1, .setLevel 10 true, .wait 1,
      .setLevel 10 false, .wait 1, .wait 40]) = true := by decide
/-- V30. -/
theorem test_writeByte_seq : next (step { seq with tRs := 0, tVal := 0x28, tDly := 40, busy := true, phase := .opByte, sched := [.fsm] })
    (fun t => t.queue = [0x00050445] ∧ t.pins = 0) = true := by decide

/-- V46. -/
theorem test_cwNibble : next (step (seq.withFetchWord 32 0x00083407))
    (fun t => t.ptrace = [.writeMasked 0x1F0000 0x030000, .setLevel 21 false, .wait 1, .setLevel 21 true, .wait 1,
      .setLevel 21 false, .wait 1, .wait 4200] ∧ t.queue = [] ∧ t.xuHave = false) = true := by decide
/-- V47. -/
theorem test_cwByte : next (step (seq.withFetchWord 32 0x00050445))
    (fun t => t.ptrace = [.writeMasked 0x1F0000 0x020000, .setLevel 21 false, .wait 1, .setLevel 21 true, .wait 1,
      .setLevel 21 false, .wait 1, .writeMasked 0x1F0000 0x080000, .setLevel 21 false, .wait 1, .setLevel 21 true, .wait 1,
      .setLevel 21 false, .wait 1, .wait 40]) = true := by decide
/-- V52. -/
theorem test_cwDelayOnly : next (step (seq.withFetchWord 32 0x00000050)) (fun t => t.ptrace = [.wait 40] ∧ t.xuHave = false) = true := by decide
/-- V53. -/
theorem test_cwMalformed : refusal (step (seq.withFetchWord 32 0x00001041)) = some .malformedCommandWord := by decide
/-- V49, the first segment: rs = 1, nibble 4. -/
theorem test_segWrite : next (step { seq with xuOsr := 0x00050C69, xuHave := true, sched := [.xu] })
    (fun t => t.pins = 0x140000 ∧ t.xuOsr = 0x00001431 ∧ t.xuWrites = 1 ∧ t.xuHave = true) = true := by decide
theorem test_segDelay : next (step (seq.withFetchWord 24 0x50)) (fun t => t.ptrace = [.wait 40] ∧ t.xuHave = false) = true := by decide

/-- The word placed by withFetchWord is run as the first instruction after reset, in every format. -/
theorem reset_runs_requests :
    next (step (State.reset.withFetchWord 40 0x000000000)) (fun t => t.bound = true ∧ t.xuRun = true ∧ t.requests = []) = true ∧
    next (step (State.reset.withFetchWord 40 0x400000000)) (fun t => t.fault = .notInitialised ∧ t.reqOp = 4) = true := by decide
theorem reset_runs_words :
    next (step (State.reset.withFetchWord 32 0x00000041)) (fun t => t.ptrace.length = 14 ∧ t.queue = []) = true ∧
    next (step (State.reset.withFetchWord 8 0x01)) (fun t => t.ptrace.length = 7 ∧ t.xuWrites = 1) = true ∧
    next (step (State.reset.withFetchWord 24 0x00)) (fun t => t.ptrace = [] ∧ t.xuHave = false) = true ∧
    next (step (State.reset.withFetchWord 16 0x100)) (fun t => t.tlog = [.byte 1 0x00 40]) = true ∧
    next (step (State.reset.withFetchWord 8 0x03)) (fun t => t.tlog = [.nibble 0 0x3 4200]) = true := by decide

/-! ### Configurations (V40 to V45) -/

theorem test_config_gap : (configCause { backend := .seq, pins := ⟨22, 21, 16, 17, 18, 19⟩, qdepth := 1 }).code = 2 := by decide
theorem test_config_order : (configCause { backend := .seq, pins := ⟨22, 20, 17, 16, 18, 19⟩, qdepth := 1 }).code = 2 := by decide
theorem test_config_overlap : (configCause { backend := .seq, pins := ⟨16, 20, 16, 17, 18, 19⟩, qdepth := 1 }).code = 1 := by decide
theorem test_config_psB : (configCause { backend := .direct, pins := .psB, qdepth := 1 }).code = 0 := by decide
theorem test_config_overlap_direct : (configCause { backend := .direct, pins := ⟨10, 3, 7, 5, 3, 0⟩, qdepth := 1 }).code = 1 := by decide
theorem test_config_top : (configCause { backend := .seq, pins := ⟨0, 31, 27, 28, 29, 30⟩, qdepth := 1 }).code = 0 := by decide

theorem test_masks : maskDataRs .psB = 0x10A9 ∧ maskAll .psB = 0x14A9 ∧ maskAll .psA = 0x3F0000 ∧ maskAll .psC = 0xFC := by decide

/-! ### Witnesses: states and operands that meet the hypotheses of each statement, clause by clause -/

theorem witness_DecodeOfEncode : WellFormed (.cwMalformed 0x1041) ∧ WellFormed (.position 255 255) ∧
    WellFormed (.cwByte 1 0xF 1 0xF 524287) := by decide
theorem witness_DecodedWellFormed : decode (.cw 0x1041) = .ok (.cwMalformed 0x1041) := by decide
/-- Opcodes 3, 4 and another, the ignored bits different. -/
theorem witness_IgnoredBits :
    ((0x3ABCD0100 : ReqWord).extractLsb' 32 3 = 3 ∧ (0x3ABCD0100 : ReqWord) ≠ 0x300000100 ∧
      (0x3ABCD0100 : ReqWord).extractLsb' 0 16 = (0x300000100 : ReqWord).extractLsb' 0 16) ∧
    ((0x4FFFFFFFF : ReqWord).extractLsb' 32 3 = 4 ∧
      (0x4FFFFFFFF : ReqWord).extractLsb' 0 32 = (0x4FFFFFFFF : ReqWord).extractLsb' 0 32) ∧
    ((0x1FFFFFFFF : ReqWord).extractLsb' 32 3 = (0x100000000 : ReqWord).extractLsb' 32 3 ∧
      (0x1FFFFFFFF : ReqWord).extractLsb' 32 3 ≠ 3 ∧ (0x1FFFFFFFF : ReqWord).extractLsb' 32 3 ≠ 4) := by decide
theorem witness_ResetLeaves : { seq with sched := [.reset] }.sched = .reset :: [] := by decide

theorem psB_distinct : PinsDistinct .psB := by unfold PinsDistinct; decide
theorem psA_distinct : PinsDistinct .psA := by unfold PinsDistinct; decide
theorem psA_consecutive : PinsConsecutive .psA := by unfold PinsConsecutive; decide
/-- V45: the top of the pin space. -/
theorem psTop_consecutive : PinsConsecutive ⟨0, 31, 27, 28, 29, 30⟩ := by unfold PinsConsecutive; decide
/-- V44, V43, V45, V40. -/
theorem witness_ConfigurationCheck :
    ¬ PinsDistinct ⟨10, 3, 7, 5, 3, 0⟩ ∧ PinsDistinct .psB ∧
    (PinsDistinct ⟨0, 31, 27, 28, 29, 30⟩ ∧ PinsConsecutive ⟨0, 31, 27, 28, 29, 30⟩) ∧
    (PinsDistinct ⟨22, 21, 16, 17, 18, 19⟩ ∧ ¬ PinsConsecutive ⟨22, 21, 16, 17, 18, 19⟩) :=
  ⟨fun h => h.2.2.2.2.2.2.2.1 rfl, psB_distinct, ⟨by unfold PinsDistinct; decide, psTop_consecutive⟩,
    by unfold PinsDistinct; decide, fun h => absurd h.2.2.2 (by decide)⟩

theorem witness_Init : direct.bound = true ∧
    ({ direct with bound := false }.bound = false ∧ direct.cfg.backend = .direct) ∧
    (fresh.bound = false ∧ fresh.cfg.backend = .seq) := by decide
theorem witness_ClearHome_WriteString : direct.bound = true ∧ seq.bound = true := by decide
theorem witness_Position : direct.bound = true ∧
    ((0#8, 0x00) ∈ [(0#8, 0x00), (1#8, 0x40), (2#8, 0x14), (3#8, 0x54)]) ∧
    ((3#8, 0x54) ∈ [(0#8, 0x00), (1#8, 0x40), (2#8, 0x14), (3#8, 0x54)]) := by decide
theorem witness_PositionRange : direct.bound = true ∧ direct.fault = .none ∧ 4 ≤ (4#8).toNat ∧ 4 ≤ (255#8).toNat := by decide
theorem witness_BeforeInit : fresh.bound = false ∧ fresh.fault = .none := by decide
theorem witness_Reserved : fresh.fault = .none ∧ direct.fault = .none := by decide
theorem witness_OutNibbles :
    (({ direct with step := 1 }.step, 4200#19) ∈ [(1#4, 4200#19), (2#4, 100#19), (3#4, 40#19)]) ∧
    (({ direct with step := 3 }.step, 40#19) ∈ [(1#4, 4200#19), (2#4, 100#19), (3#4, 40#19)]) := by decide
theorem witness_DirectTransport : direct.cfg.backend = .direct ∧ PinsDistinct direct.cfg.pins := ⟨by decide, psB_distinct⟩
/-- Room for exactly one more word. -/
theorem witness_SeqPushes : { seq with queue := [1, 1, 1] }.cfg.backend = .seq ∧
    { seq with queue := [1, 1, 1] }.queue.length < seq.cfg.qdepth := by decide
theorem witness_SeqWaits : { seq with queue := [1, 1, 1, 1] }.cfg.backend = .seq ∧
    seq.cfg.qdepth ≤ { seq with queue := [1, 1, 1, 1] }.queue.length := by decide
/-- INIT steps 1, 7 and 8, WRITE_STRING, POSITION. -/
theorem witness_Finished :
    Instr.writeNibble 0 0x3 4200 ∈ [Instr.writeNibble 0 0x3 4200, .writeByte 0 0 4200] ∧
    (seq.cfg.backend = .seq → seq.queue.length < seq.cfg.qdepth) ∧
    ({ seq with step := 1 }.reqOp = 0 ∧ (1#4, Phase.send4 0x03#5) ∈ [(1#4, Phase.send4 0x03#5), (7#4, .send8 0x001#9)]) ∧
    ({ seq with step := 7 }.reqOp = 0 ∧ (7#4, Phase.send8 0x001#9) ∈ [(1#4, Phase.send4 0x03#5), (7#4, .send8 0x001#9)]) ∧
    ({ seq with step := 8 }.reqOp = 0 ∧ { seq with step := 8 }.step = 8) ∧ { seq with reqOp := 4 }.reqOp = 4 ∧
    ({ seq with reqOp := 3 }.reqOp ≠ 0 ∧ { seq with reqOp := 3 }.reqOp ≠ 4) := by decide
theorem witness_SegWrite : seq.xuWrites < 2 ∧ { seq with xuWrites := 1 }.xuWrites < 2 ∧ 2 ≤ { seq with xuWrites := 2 }.xuWrites := by decide
/-- V52, V46, V47, V53 at the head of the queue. -/
theorem witness_WholeWord : seq.xuRun = true ∧ seq.xuHave = false ∧ { seq with queue := [0x50] }.queue = 0x50 :: [] ∧
    (0x00000050#32).getLsbD 0 = false ∧
    ((0x00083407#32).getLsbD 0 = true ∧ (0x00083407#32).getLsbD 6 = false) ∧
    ((0x00050445#32).getLsbD 0 = true ∧ (0x00050445#32).getLsbD 6 = true ∧ (0x00050445#32).getLsbD 12 = false) ∧
    ((0x00001041#32).getLsbD 0 = true ∧ (0x00001041#32).getLsbD 6 = true ∧ (0x00001041#32).getLsbD 12 = true) := by decide
theorem witness_MaskedWrite : PinsDistinct .psA ∧ PinsDistinct .psB := ⟨psA_distinct, psB_distinct⟩
theorem witness_UnitPinValue : PinsConsecutive .psA ∧ PinsConsecutive ⟨0, 31, 27, 28, 29, 30⟩ :=
  ⟨psA_consecutive, psTop_consecutive⟩
theorem witness_Latches : PinsDistinct .psB ∧ pinLevel 0xFFFFFBFF PinSet.psB.e = false := ⟨psB_distinct, by decide⟩
theorem witness_ColumnMod128 : (255#8).toNat % 128 = (127#8).toNat % 128 := by decide

theorem witness_FsmStep :
    ({ direct with sched := [.fsm] }.sched = .fsm :: [] ∧ direct.fault = .none) ∧
    (direct.phase = .idle ∧ direct.busy = false ∧ { direct with requests := [0x300000400] }.requests = 0x300000400 :: [] ∧
      decode (.req 0x300000400) = .ok (.position 4 0)) ∧
    ({ direct with phase := .send8 0x001 }.phase = .send8 0x001 ∧ decode (.out8 0x001) = .ok .outClear) ∧
    ({ direct with phase := .send4 0x02 }.phase = .send4 0x02 ∧ decode (.out4 0x02) = .ok .outMode4Nibble) ∧
    ({ direct with phase := .opNibble }.phase = .opNibble ∧ decode (.top24 0) = .ok (.writeNibble 0 0 0)) ∧
    ({ direct with phase := .opByte }.phase = .opByte ∧ decode (.top28 0) = .ok (.writeByte 0 0 0)) := by decide
theorem witness_UnitStep :
    (seq.xuRun = true ∧ { seq with sched := [.xuWord] }.sched = .xuWord :: []) ∧
    ({ seq with xuHave := true, xuOsr := 0xC69 }.xuHave = true ∧ (0xC69#32).getLsbD 0 = true ∧
      decode (.seg6 ((0xC69#32).extractLsb' 0 6)) = .ok (.segWrite 1 4)) ∧
    ((0x50#32).getLsbD 0 = false ∧ decode (.seg20 ((0x50#32).extractLsb' 0 20)) = .ok (.segDelay 40)) ∧
    (seq.xuHave = false ∧ { seq with queue := [0x50] }.queue = 0x50 :: [] ∧ decode (.cw 0x50) = .ok (.cwDelayOnly 40)) := by decide
/-- The sentinel and the largest byte. -/
theorem witness_CharacterFetch :
    { direct with sched := [.fsm], phase := .fetchChar }.sched = .fsm :: [] ∧ direct.fault = .none ∧
    { direct with phase := .fetchChar }.phase = .fetchChar ∧ direct.strMem.read direct.strPtr.toNat = 0 ∧
    { direct with strMem := [(0, 0xFF)] }.strMem.read direct.strPtr.toNat ≠ 0 := by decide
theorem witness_Waiting :
    ({ direct with fault := .rowRange }.fault ≠ .none ∧ { direct with sched := [.fsm] }.sched = .fsm :: []) ∧
    (direct.phase = .idle ∧ direct.requests = [] ∧ { direct with busy := true }.busy = true) ∧
    ({ seq with sched := [.xu] }.sched = .xu :: [] ∧ fresh.xuRun = false ∧ seq.xuHave = false ∧ seq.queue = []) := by decide
theorem witness_Unscheduled : seq.sched = [] := by decide
theorem witness_HostWrite : { seq with sched := [.hostWrite 0xFFFFFFFF 0x41], strMem := [(0, 0x48)] }.sched =
    .hostWrite 0xFFFFFFFF 0x41 :: [] ∧ { seq with strMem := [(0, 0x48)] }.strMem.wf = true := by decide

/-- One request at the port of a ready block, and enough moves of the FSM. -/
def ready1 (s : State) (w : ReqWord) (n : Nat) : State := { s with requests := [w], sched := List.replicate n .fsm }

theorem witness_OneByteRequests :
    ((ready1 direct 0x100000000 3).cfg.backend = .direct ∧ (ready1 direct 0x100000000 3).bound = true ∧
      (ready1 direct 0x100000000 3).fault = .none ∧ (ready1 direct 0x100000000 3).busy = false ∧
      (ready1 direct 0x100000000 3).phase = .idle ∧ (ready1 direct 0x100000000 3).requests = 0x100000000 :: [] ∧
      (ready1 direct 0x100000000 3).sched = [.fsm, .fsm, .fsm] ++ []) ∧
    decodeRequest 0x100000000 = .clear ∧ decodeRequest 0x200000000 = .home ∧
    (decodeRequest 0x3000003FF = .position 3 255 ∧ (3#8).toNat < 4) ∧
    ((ready1 seq 0x200000000 3).cfg.backend = .seq ∧ seq.queue.length < seq.cfg.qdepth ∧ seq.bound = true ∧
      seq.fault = .none ∧ seq.busy = false ∧ seq.phase = .idle) := by decide
/-- Not bound in SEQ with room for exactly eight words; bound in DIRECT. -/
theorem witness_InitSends :
    (fresh.fault = .none ∧ fresh.busy = false ∧ fresh.phase = .idle ∧ decodeRequest 0x000000000 = .init ∧
      (ready1 fresh 0 17).sched = List.replicate 17 .fsm ++ [] ∧ (ready1 fresh 0 17).requests = 0 :: []) ∧
    ({ fresh with cfg := { backend := .seq, pins := .psA, qdepth := 8 } }.queue.length + 8 ≤ 8) ∧
    (direct.bound = true ∧ (direct.cfg.backend = .seq → direct.queue.length + 8 ≤ direct.cfg.qdepth)) := by decide
/-- "Hi" ended by the unlisted 0x00, at the top of the address space so that the pointer wraps; and the empty string. -/
def hi : State := { direct with
  strMem := [(0, 0x69), (4294967295, 0x48)], requests := [0x4FFFFFFFF], sched := List.replicate 8 .fsm }
theorem witness_WriteString :
    hi.bound = true ∧ hi.fault = .none ∧ hi.busy = false ∧ hi.phase = .idle ∧ hi.requests = 0x4FFFFFFFF :: [] ∧
    decodeRequest 0x4FFFFFFFF = .writeString 0xFFFFFFFF ∧ hi.sched = List.replicate (3 * [0x48#8, 0x69#8].length + 2) .fsm ++ [] ∧
    (hi.cfg.backend = .seq → hi.queue.length + 2 ≤ hi.cfg.qdepth) ∧ (∀ c ∈ [0x48#8, 0x69#8], c ≠ 0) ∧
    hi.strMem.read (0xFFFFFFFF#32 + 0#32).toNat = 0x48 ∧ hi.strMem.read (0xFFFFFFFF#32 + 1#32).toNat = 0x69 ∧
    hi.strMem.read (0xFFFFFFFF#32 + 2#32).toNat = 0 ∧ (∀ k (h : k < [0x48#8, 0x69#8].length),
      hi.strMem.read (0xFFFFFFFF#32 + BitVec.ofNat 32 k).toNat = [0x48#8, 0x69#8][k]) := by decide

/-- SEQ with the queue full: four words of INIT waiting, the fifth operation in the latches, nothing replayed. -/
def full : State := { seq with
  busy := true, step := 5, phase := .opByte, tVal := 0x28, tDly := 40, sched := [.xu],
  queue := [0x00083407, 0x00003207, 0x00001407, 0x00001405], qlog := [0x00083407, 0x00003207, 0x00001407, 0x00001405],
  tlog := [.nibble 0 0x3 4200, .nibble 0 0x3 100, .nibble 0 0x3 40, .nibble 0 0x2 40, .byte 0 0x28 40],
  ptrace := [.configureOutputs 0x3F0000] }

/-- A state with the invariant in which everything is in motion. -/
theorem witness_Inv_full : Inv full where
  memory := by decide
  queueBound := by decide
  queueWords w hw := by
    have : w = 0x00083407 ∨ w = 0x00003207 ∨ w = 0x00001407 ∨ w = 0x00001405 := by simpa [full] using hw
    rcases this with rfl | rfl | rfl | rfl
    · exact ⟨.nibble 0 0x3 4200, by decide⟩
    · exact ⟨.nibble 0 0x3 100, by decide⟩
    · exact ⟨.nibble 0 0x3 40, by decide⟩
    · exact ⟨.nibble 0 0x2 40, by decide⟩
  osr h := absurd h (by decide)
  have_run := by decide
  run_bound := by decide
  direct_queue := by decide
  inProgress := by decide
  idle_busy := by decide
  sending := trivial
  step_le := by decide
  step_init := by decide
  init_step := by decide
  badConfig := by decide
  bound_valid := by decide
  outputs := by decide
  enable_low := by decide

theorem witness_TraceInv_full : TraceInv full where
  nibble_issued h := absurd h (by decide)
  byte_issued _ := ⟨[.nibble 0 0x3 4200, .nibble 0 0x3 100, .nibble 0 0x3 40, .nibble 0 0x2 40], by decide⟩
  unbound := by decide
  direct := by decide
  pushes := by decide
  replay _ := ⟨[], [.nibble 0 0x3 4200, .nibble 0 0x3 100, .nibble 0 0x3 40, .nibble 0 0x2 40], by decide, by decide, by decide⟩

/-- XU moves from `full`: it takes the head word. The step is no reset. -/
theorem witness_EveryStep :
    next (step full) (fun t => t.xuHave = true ∧ t.xuOsr = 0x00083407 ∧ t.queue.length = 3) = true ∧
    full.sched = .xu :: [] ∧ Move.xu ∈ [Move.xu, .xuWord] ∧ full.bound = true := by decide
theorem witness_NotReset : ∀ rest, full.sched ≠ .reset :: rest := by
  intro rest h
  cases h
theorem witness_NotHostWrite : ∀ a b rest, full.sched ≠ .hostWrite a b :: rest := by
  intro a b rest h
  cases h
theorem witness_FaultedStep : next (step { seq with fault := .rowRange, busy := true, sched := [.fsm] })
    (fun t => t.fault = .rowRange) = true ∧ { seq with fault := .rowRange }.fault ≠ .none := by decide
theorem witness_OutsidePin : pinLevel (maskAll full.cfg.pins) 0 = false ∧ pinLevel (maskAll full.cfg.pins) 31 = false := by decide
theorem witness_SeqFsm : full.cfg.backend = .seq ∧ full.bound = true ∧ { full with queue := [], sched := [.fsm] }.sched = .fsm :: [] ∧
    next (step { full with queue := [], sched := [.fsm] }) (fun t => t.queue = [0x00050445]) = true := by decide
theorem witness_NoDeadlock : 0 < full.cfg.qdepth ∧ blocked full = true ∧ xuAction full = .load 0x00083407 := by decide

/-- SEQ at quiescence, one CLEAR of the past replayed. -/
def quiet : State := { seq with
  tlog := [.byte 0 0x01 2000], qlog := [0x00FA00C1],
  ptrace := .configureOutputs 0x3F0000 :: directByte .psA 0 0x01 2000 }
theorem witness_Quiescent : Quiescent quiet := ⟨rfl, rfl, rfl⟩
theorem witness_Inv_quiet : Inv quiet where
  memory := by decide
  queueBound := by decide
  queueWords _ h := by cases h
  osr h := absurd h (by decide)
  have_run := by decide
  run_bound := by decide
  direct_queue := by decide
  inProgress := by decide
  idle_busy := by decide
  sending := trivial
  step_le := by decide
  step_init := by decide
  init_step := by decide
  badConfig := by decide
  bound_valid := by decide
  outputs := by decide
  enable_low := by decide
theorem witness_TraceInv_quiet : TraceInv quiet where
  nibble_issued h := absurd h (by decide)
  byte_issued h := absurd h (by decide)
  unbound := by decide
  direct := by decide
  pushes := by decide
  replay _ := ⟨[.byte 0 0x01 2000], [], by decide, by decide, by decide⟩

/-! ### Witnesses: a request under any schedule (R66 to R73), and a weakly fair run (R152) -/

/-- A ready block in SEQ with QDEPTH 4, "Hi" at the top of the string memory, and one request at the port. -/
def asked (w : ReqWord) : State := { quiet with
  strMem := [(0, 0x69), (4294967295, 0x48)], requests := [w], sched := [.fsm, .fsm, .xu, .fsm, .xuWord] }

theorem witness_Inv_asked (w : ReqWord) : Inv (asked w) where
  memory := by
    change Memory.wf [(0, 0x69), (4294967295, 0x48)] = true
    decide
  queueBound := witness_Inv_quiet.queueBound
  queueWords := witness_Inv_quiet.queueWords
  osr := witness_Inv_quiet.osr
  have_run := witness_Inv_quiet.have_run
  run_bound := witness_Inv_quiet.run_bound
  direct_queue := witness_Inv_quiet.direct_queue
  inProgress := witness_Inv_quiet.inProgress
  idle_busy := witness_Inv_quiet.idle_busy
  sending := witness_Inv_quiet.sending
  step_le := witness_Inv_quiet.step_le
  step_init := witness_Inv_quiet.step_init
  init_step := witness_Inv_quiet.init_step
  badConfig := witness_Inv_quiet.badConfig
  bound_valid := witness_Inv_quiet.bound_valid
  outputs := witness_Inv_quiet.outputs
  enable_low := witness_Inv_quiet.enable_low

theorem witness_asked : ready (asked 0) = true ∧ (asked 0).requests = 0 :: [] ∧
    (asked 0).sched = [.fsm, .fsm, .xu, .fsm] ++ [.xuWord] ∧
    (∀ m ∈ [Move.fsm, .fsm, .xu, .fsm], m ∈ [Move.fsm, .xu, .xuWord]) := by decide

/-- INIT with eight words and room for four. -/
theorem witness_Issues_init : Issues (asked 0) (decodeRequest 0) initOps [] ∧ (asked 0).cfg.qdepth < initOps.length :=
  ⟨.init, by decide⟩
theorem witness_Issues_clear :
    Issues (asked 0x100000000) (decodeRequest 0x100000000) [.byte 0 0x01 2000] [] := .clear rfl
theorem witness_Issues_home :
    Issues (asked 0x200000000) (decodeRequest 0x200000000) [.byte 0 0x02 1600] [] := .home rfl
/-- V12. -/
theorem witness_Issues_position :
    Issues (asked 0x3000003FF) (decodeRequest 0x3000003FF) [.byte 0 0xD3 40] [] := .position 3 255 rfl (by decide)
/-- S6, the pointer wrapping after the first character. -/
theorem witness_Issues_writeString :
    Issues (asked 0x4FFFFFFFF) (decodeRequest 0x4FFFFFFFF) [.byte 1 0x48 40, .byte 1 0x69 40]
      [0xFFFFFFFF, 0x00000000, 0x00000001] :=
  .writeString 0xFFFFFFFF [0x48, 0x69] rfl (by decide)
    (by
      change ∀ k (hk : k < [0x48#8, 0x69#8].length), Memory.read [(0, 0x69), (4294967295, 0x48)]
        (0xFFFFFFFF#32 + BitVec.ofNat 32 k).toNat = [0x48#8, 0x69#8][k]
      decide)
    (by
      change Memory.read [(0, 0x69), (4294967295, 0x48)] (0xFFFFFFFF#32 + BitVec.ofNat 32 2).toNat = 0
      decide)

/-- SEQ with QDEPTH 1 and the queue full: CLEAR held up at its push, HOME at the port. -/
def crowded : State := { State.resetWith { backend := .seq, pins := .psA, qdepth := 1 } with
  bound := true, oe := 0x3F0000, xuRun := true, queue := [0x00FA00C1], reqOp := 1, busy := true, phase := .opByte,
  tVal := 0x01, tDly := 2000, requests := [0x200000000] }

/-- XU and the FSM by turns. -/
def turns (n : Nat) : Move := if n % 2 = 0 then .xu else .fsm

/-- The next state, or the same if the step stops. -/
def nextOr (s : State) : Host.Outcome State Fault Refusal → State
  | .next t => t
  | .fault _ | .refused _ => s

/-- The run from `crowded` under `turns`. -/
def crowdedRun : Nat → State
  | 0 => crowded
  | n + 1 => nextOr (crowdedRun n) (step { crowdedRun n with sched := [turns n] })

/-- Where nothing is left to do, either agent waits. -/
theorem waits_when_done {s : State} (h : s.sched = [] ∧ s.phase = .idle ∧ s.requests = [] ∧ s.fault = .none ∧
    s.xuHave = false ∧ s.queue = [] ∧ s.xuRun = true) (n : Nat) : step { s with sched := [turns n] } = .next s := by
  obtain ⟨h1, h2, h3, h4, h5, h6, h7⟩ := h
  have e : { s with sched := [] } = s := by rw [← h1]
  unfold turns
  split
  · change act (xuAction { s with sched := [] }) { s with sched := [] } = _
    rw [e, show xuAction s = .wait by simp [xuAction, h5, h6, h7]]
    rfl
  · change act (fsmAction { s with sched := [] }) { s with sched := [] } = _
    rw [e, show fsmAction s = .wait by simp [fsmAction, h2, h3, h4]]
    rfl

/-- From move 23 on nothing is left to do: both requests are complete and all words replayed. -/
theorem crowded_done : (crowdedRun 23).sched = [] ∧ (crowdedRun 23).phase = .idle ∧ (crowdedRun 23).requests = [] ∧
    (crowdedRun 23).fault = .none ∧ (crowdedRun 23).xuHave = false ∧ (crowdedRun 23).queue = [] ∧
    (crowdedRun 23).xuRun = true := by
  decide +kernel

theorem crowded_stays (k : Nat) : crowdedRun (23 + k) = crowdedRun 23 := by
  induction k with
  | zero => rfl
  | succ k ih =>
    change nextOr (crowdedRun (23 + k)) (step { crowdedRun (23 + k) with sched := [turns (23 + k)] }) = _
    rw [ih, waits_when_done crowded_done]
    rfl

theorem nextOr_of_next {s : State} {o : Host.Outcome State Fault Refusal} (h : next o (fun _ => True) = true) :
    o = .next (nextOr s o) := by
  cases o with
  | next t => rfl
  | fault r => cases h
  | refused r => cases h

theorem witness_RunUnder : RunUnder turns crowdedRun := by
  intro n
  by_cases h : n < 23
  · have : ∀ n < 23, next (step { crowdedRun n with sched := [turns n] }) (fun _ => True) = true := by decide
    exact nextOr_of_next (this n h)
  · obtain ⟨k, rfl⟩ : ∃ k, n = 23 + k := ⟨n - 23, by omega⟩
    rw [Nat.add_assoc, crowded_stays k, crowded_stays (k + 1)]
    exact waits_when_done crowded_done _

theorem witness_WeaklyFair : WeaklyFair turns crowdedRun where
  fsm n _ := ⟨2 * n + 1, by omega, by simp [turns, Nat.add_mod]⟩
  xu n _ := ⟨2 * n, by omega, by simp [turns, Move.isXu]⟩

theorem witness_Inv_crowded : Inv (crowdedRun 0) where
  memory := by decide
  queueBound := by decide
  queueWords w hw := by
    have : w = 0x00FA00C1 := by simpa [crowdedRun, crowded] using hw
    exact ⟨.byte 0 0x01 2000, this.trans (by decide)⟩
  osr h := absurd h (by decide)
  have_run := by decide
  run_bound := by decide
  direct_queue := by decide
  inProgress := by decide
  idle_busy := by decide
  sending := trivial
  step_le := by decide
  step_init := by decide
  init_step := by decide
  badConfig := by decide
  bound_valid := by decide
  outputs := by decide
  enable_low := by decide

theorem witness_NoReset : ∀ n, turns n ≠ .reset := by
  intro n h
  unfold turns at h
  split at h <;> cases h

theorem witness_KeepsSentinel : KeepsSentinel crowdedRun := by
  refine ⟨0, fun n => ?_⟩
  have h : ∀ n < 24, (crowdedRun n).strMem.read 0 = sentinel := by decide
  by_cases hn : n < 24
  · exact h n hn
  · obtain ⟨k, rfl⟩ : ∃ k, n = 23 + k := ⟨n - 23, by omega⟩
    rw [crowded_stays]
    exact h 23 (by decide)

/-- Each clause: blocked with a full queue and a request in progress; ready with a request at the port. -/
theorem witness_Progress : 0 < (crowdedRun 0).cfg.qdepth ∧
    (blocked (crowdedRun 0) = true ∧ (crowdedRun 0).busy = true ∧ (crowdedRun 0).fault = .none) ∧
    (ready (crowdedRun 2) = true ∧ (crowdedRun 2).requests ≠ []) := by decide

end Sys2Proof.Tests
end

section
/-!
PROOFS. The DDRAM address, the command byte that carries it, and POSITION with a legal row (R13, R57, R70, R71).
-/
namespace Sys2Proof.Machine

/-! ### The address and its command byte -/

theorem ddramAddress_toNat (row col : Byte) :
    (ddramAddress row col).toNat = ((rowStart (row.setWidth 2)).toNat + col.toNat) % 128 := by
  have mask_eq_mod (n : Nat) : n &&& 0x7F = n % 128 := Nat.and_two_pow_sub_one_eq_mod n 7
  simp [ddramAddress, mask_eq_mod]

/-- Widened to a byte, the address is the whole sum under the mask: nothing of the sum reaches bit 7. -/
theorem ddramAddress_setWidth (row col : Byte) :
    (ddramAddress row col).setWidth 8 =
      BitVec.ofNat 8 (((rowStart (row.setWidth 2)).toNat + col.toNat) &&& 0x7F) := by
  have mask_lt : ((rowStart (row.setWidth 2)).toNat + col.toNat) &&& 0x7F < 2 ^ 7 := Nat.and_lt_two_pow _ (by decide)
  rw [ddramAddress, BitVec.setWidth_ofNat_of_le_of_lt (by decide) mask_lt]

theorem setDdramByte_low (a : BitVec 7) : (setDdramByte a).extractLsb' 0 7 = a := by
  ext i hi
  interval_cases i <;> simp [setDdramByte]

theorem setDdramByte_bit7 (a : BitVec 7) : (setDdramByte a).getLsbD 7 = true := by
  simp [setDdramByte]

/-- The value to send is the command byte with register select 0 above it (R56). -/
theorem setDdramOut_eq_byte (a : BitVec 7) : setDdramOut a = (setDdramByte a).setWidth 9 := by
  simp [setDdramOut, setDdramByte, BitVec.setWidth_or]

/-- Settles O36: the mask is the sum modulo 128, and the command byte keeps the 7 bits apart from bit 7. -/
theorem ddramAddressIsPlacedUnderBitSeven : Obligations.DdramAddressIsPlacedUnderBitSeven := by
  intro row col
  refine ⟨ddramAddress_toNat row col, ?_, setDdramByte_bit7 _⟩
  rw [setDdramByte_low, ddramAddress_toNat]

/-! ### POSITION with a legal row -/

theorem exec_position (row col : Byte) (s : State) : exec (.position row col) s = execPosition row col s := rfl

theorem positionBody_legal {s : State} (hr : s.reqRow.toNat < 4) :
    positionBody s = sendByte (setDdramOut (ddramAddress s.reqRow s.reqCol)) s := if_neg (Nat.not_le.2 hr)

theorem execPosition_legal {s : State} {row : Byte} (col : Byte) (hb : s.bound = true) (hr : row.toNat < 4) :
    execPosition row col s = .next { s with
      reqOp := 3, busy := true, reqRow := row, reqCol := col, phase := .send8 (setDdramOut (ddramAddress row col)) } := by
  rw [execPosition, ifBound_of_bound, positionBody_legal]
  · rfl
  · exact hr
  · exact hb

/-- The table of R13 written out: its rows are the legal ones, each with its row start. -/
theorem rowStart_of_mem_table {row : Byte} {base : Nat}
    (h : (row, base) ∈ [(0#8, 0x00), (1#8, 0x40), (2#8, 0x14), (3#8, 0x54)]) :
    row.toNat < 4 ∧ (rowStart (row.setWidth 2)).toNat = base := by
  simp only [List.mem_cons, List.not_mem_nil, or_false, Prod.mk.injEq] at h
  obtain ⟨rfl, rfl⟩ | ⟨rfl, rfl⟩ | ⟨rfl, rfl⟩ | ⟨rfl, rfl⟩ := h <;> decide

/-- Settles O11: a legal row passes the range test, and the value sent is the masked sum under bit 7. -/
theorem positionSendsTheAddressCommand : Obligations.PositionSendsTheAddressCommand := by
  intro s row col base hb hmem
  obtain ⟨hr, hbase⟩ := rowStart_of_mem_table hmem
  rw [exec_position, execPosition_legal col hb hr, setDdramOut_eq_byte, setDdramByte, ddramAddress_setWidth, hbase]

end Sys2Proof.Machine
end

section
/-!
PROOFS. The transport operations in DIRECT (R85, R86, R90): the whole operation is one step (log 3).
-/
namespace Sys2Proof.Machine

theorem exec_writeNibble_direct {s : State} (h : s.cfg.backend = .direct) (rs : Rs) (v : Nibble) (d : Delay) :
    exec (.writeNibble rs v d) s = .next (performThen (directNibble s.cfg.pins rs v d) s) := by
  simp only [exec, execWriteNibble, h]

theorem exec_writeByte_direct {s : State} (h : s.cfg.backend = .direct) (rs : Rs) (b : Byte) (d : Delay) :
    exec (.writeByte rs b d) s = .next (performThen (directByte s.cfg.pins rs b d) s) := by
  simp only [exec, execWriteByte, h]

/-- Settles O19: each operation is `performThen` of its events, whose frame is everything but the pins and the
sequencing state, once the events leave the output enables as they are. -/
theorem directTransportPerformsItsEvents : Obligations.DirectTransportPerformsItsEvents := by
  intro s rs v b d hdirect p pulse last keeps
  have performThen_keeps (es : List Event) (hoe : es.foldl oeAfter s.oe = s.oe) : keeps (performThen es s) := by
    simp [keeps, hoe]
  have nibbleEvents_eq (value : PinWord) : nibbleEvents p value = .writeMasked (maskDataRs p) value :: pulse := rfl
  have settle_eq : settle d = last := rfl
  refine ⟨⟨_, exec_writeNibble_direct hdirect rs v d, performThen_keeps _ (directNibble_oe ..), ?_⟩,
    ⟨_, exec_writeByte_direct hdirect rs b d, performThen_keeps _ (directByte_oe ..), ?_⟩⟩
  · rw [performThen_ptrace, directNibble, nibbleEvents_eq, settle_eq, List.append_assoc]
  · rw [performThen_ptrace, directByte, nibbleEvents_eq, nibbleEvents_eq, settle_eq, highNibble, lowNibble]
    simp only [p, List.append_assoc]

end Sys2Proof.Machine
end

section
/-!
PROOFS. The transport operations in SEQ with room in the queue (R97, R98): one push of the word the encoder helpers
build.
-/
namespace Sys2Proof.Machine

theorem exec_writeNibble_seq_room {s : State} (h : s.cfg.backend = .seq) (hroom : s.queue.length < s.cfg.qdepth)
    (rs : Rs) (v : Nibble) (d : Delay) :
    exec (.writeNibble rs v d) s = .next (finishOp (push (nibbleWord rs v d) s)) := by
  simp only [exec, execWriteNibble, h, pushOrWait_room hroom]

theorem exec_writeByte_seq_room {s : State} (h : s.cfg.backend = .seq) (hroom : s.queue.length < s.cfg.qdepth)
    (rs : Rs) (b : Byte) (d : Delay) :
    exec (.writeByte rs b d) s = .next (finishOp (push (byteWord rs b d) s)) := by
  simp only [exec, execWriteByte, h, pushOrWait_room hroom]

/-- R96 shifts what the word held before by a whole segment, so its lowest segment is the one just added. -/
theorem addWriteCmd_lowest_segment (cmd : CmdWord) (rs : Rs) (v : Nibble) :
    (addWriteCmd cmd rs v).extractLsb' 0 6 = (addWriteCmd 0 rs v).extractLsb' 0 6 := by
  ext i hi
  have shifted_out : (cmd <<< 6).getLsbD i = false := by simp [BitVec.getLsbD_shiftLeft, hi]
  simp [addWriteCmd, shifted_out]

/-- Settles O22: each operation is `finishOp` after `push`, and `finishOp` changes the sequencing state alone. -/
theorem seqOperationsPushTheHelpersWord : Obligations.SeqOperationsPushTheHelpersWord := by
  refine ⟨?_, by decide⟩
  intro s rs v b d hseq hroom pushed byteW
  have finishOp_push_pushed (w : CmdWord) : pushed (finishOp (push w s)) w := by simp [pushed]
  exact ⟨⟨_, exec_writeNibble_seq_room hseq hroom rs v d, finishOp_push_pushed _⟩,
    ⟨_, exec_writeByte_seq_room hseq hroom rs b d, finishOp_push_pushed _⟩,
    addWriteCmd_lowest_segment _ rs _⟩

end Sys2Proof.Machine
end

section
/-!
PROOFS. POSITION with a row of 4 or more: the fault ROW_RANGE in place of the address command (R65, R70, R118, R119).
-/
namespace Sys2Proof.Machine

theorem positionBody_illegal {s : State} (hr : 4 ≤ s.reqRow.toNat) : positionBody s = raiseFault .rowRange s := if_pos hr

/-- A row of 4 or more fails the range test: what is left of the request is its acceptance (R65) and the fault. -/
theorem execPosition_illegal {s : State} {row : Byte} (col : Byte) (hb : s.bound = true) (hr : 4 ≤ row.toNat) :
    execPosition row col s = .next (raiseFault .rowRange { accept 3 s with reqRow := row, reqCol := col }) := by
  rw [execPosition, ifBound_of_bound, positionBody_illegal]
  · exact hr
  · exact hb

/-- Settles O12: in a state without a fault, raising ROW_RANGE writes the fault register alone. -/
theorem positionRowRangeFaults : Obligations.PositionRowRangeFaults := by
  intro s row col hb hfault hr
  have accepted_unfaulted : { accept 3 s with reqRow := row, reqCol := col }.fault = .none := hfault
  rw [exec_position, execPosition_illegal col hb hr, raiseFault_of_none accepted_unfaulted]
  rfl

/-- Settles O13: the next state of O12 differs from `s` in the latches, `busy` and the fault, so in no log, queue or
pin. -/
theorem rowRangeIsRaisedBeforeAnythingIsEmitted : Obligations.RowRangeIsRaisedBeforeAnythingIsEmitted := by
  intro s row col hb hfault hr
  exact ⟨_, positionRowRangeFaults s row col hb hfault hr, rfl, rfl, rfl, rfl, rfl, rfl, rfl⟩

end Sys2Proof.Machine
end

section
/-!
PROOFS. Progress (R152): the moves that are not the FSM's, and what they leave of its registers.
-/
namespace Sys2Proof.Machine

/-- `t` has the FSM's sequencing registers of `s`; words have left the queue at most, and requests have come at most. -/
structure FsmUntouched (s t : State) : Prop where
  cfg      : t.cfg = s.cfg
  reqOp    : t.reqOp = s.reqOp
  strPtr   : t.strPtr = s.strPtr
  step     : t.step = s.step
  phase    : t.phase = s.phase
  busy     : t.busy = s.busy
  bound    : t.bound = s.bound
  fault    : t.fault = s.fault
  xuRun    : t.xuRun = s.xuRun
  queue    : t.queue.length ≤ s.queue.length
  requests : s.requests <+: t.requests

theorem FsmUntouched.refl (s : State) : FsmUntouched s s := by
  constructor <;> simp

theorem FsmUntouched.trans {s t u : State} (h : FsmUntouched s t) (h' : FsmUntouched t u) : FsmUntouched s u where
  cfg := h'.cfg.trans h.cfg
  reqOp := h'.reqOp.trans h.reqOp
  strPtr := h'.strPtr.trans h.strPtr
  step := h'.step.trans h.step
  phase := h'.phase.trans h.phase
  busy := h'.busy.trans h.busy
  bound := h'.bound.trans h.bound
  fault := h'.fault.trans h.fault
  xuRun := h'.xuRun.trans h.xuRun
  queue := h'.queue.trans h.queue
  requests := h.requests.trans h'.requests

theorem FsmUntouched.sched (s : State) (l : List Move) : FsmUntouched s { s with sched := l } := by
  constructor <;> simp

theorem UnitStep.fsmUntouched {s t : State} (h : UnitStep s t) : FsmUntouched s t := by
  cases h with
  | wait => exact .refl s
  | load w q hr hh hq => constructor <;> simp
  | write hr hh hm hn => constructor <;> simp
  | delay hr hh hm => constructor <;> simp

theorem UnitSteps.fsmUntouched {s t : State} (h : UnitSteps s t) : FsmUntouched s t := by
  induction h with
  | refl => exact .refl s
  | tail _ h' ih => exact ih.trans h'.fsmUntouched

theorem makeMove_fsmUntouched {m : Move} {s t : State} (hfsm : m ≠ .fsm) (hreset : m ≠ .reset)
    (h : makeMove m s = .next t) : FsmUntouched s t := by
  cases m with
  | fsm => exact absurd rfl hfsm
  | xu => exact (unit_step_cases h).fsmUntouched
  | xuWord => exact (unit_word_cases h).fsmUntouched
  | reset => exact absurd rfl hreset
  | hostWrite a b => cases h; constructor <;> simp
  | present w => cases h; constructor <;> simp

/-- An FSM that waits for space in the queue goes on waiting, unless there is space now. -/
theorem FsmUntouched.blocked_or_canPush {s t : State} (h : FsmUntouched s t) (hb : blocked s = true) :
    canPush t = true ∨ blocked t = true := by
  obtain ⟨hseq, -, hop⟩ := blocked_iff.1 hb
  refine (Nat.lt_or_ge t.queue.length t.cfg.qdepth).imp canPush_iff.2 fun hfull => blocked_iff.2 ⟨?_, hfull, ?_⟩
  · rw [h.cfg, hseq]
  · rwa [h.phase]

/-- An FSM with space in the queue keeps it: it alone pushes (R10). -/
theorem FsmUntouched.not_blocked {s t : State} (h : FsmUntouched s t) (hb : blocked s = false) : blocked t = false := by
  rw [Bool.eq_false_iff, ne_eq, blocked_iff] at hb ⊢
  rw [h.cfg, h.phase]
  exact fun ⟨hseq, hfull, hop⟩ => hb ⟨hseq, hfull.trans h.queue, hop⟩

end Sys2Proof.Machine
end

section
/-!
PROOFS. Progress (R152): every move XU makes when it has a step takes it on towards its next fetch (R104 to R107).
-/
namespace Sys2Proof.Machine

/-- An upper bound on the segments XU still replays of the word it holds: at most two writes, then the delay (R105). -/
def segmentsLeft (s : State) : Nat := if s.xuHave then 2 - s.xuWrites + 1 else 0

theorem segment_spends {s t : State} (hh : s.xuHave = true) (h : runWord (segmentOf s.xuOsr) s = .next t) :
    t.queue = s.queue ∧ segmentsLeft t < segmentsLeft s := by
  rw [act_segment] at h
  split at h
  · by_cases hn : s.xuWrites < 2
    · simp [exec, execSegWrite, hn] at h
      subst h
      simp [segmentsLeft, hh]
      omega
    · simp [exec, execSegWrite, hn] at h
  · simp [exec, execSegDelay] at h
    subst h
    simp [segmentsLeft, hh]

/-- A word replayed whole leaves the queue as its fetch left it. -/
theorem exec_commandWord_queue {w : CmdWord} {s t : State} (h : exec (decodeCommandWord w) s = .next t) :
    t.queue = s.queue := by
  unfold decodeCommandWord at h
  split at h
  · split at h
    · split at h
      · cases h
      · cases h; simp
    · cases h; simp
  · cases h; simp

/-- XU with a step: a segment of the word it holds, or the fetch of the next one. -/
theorem unit_move_spends {m : Move} {s t : State} (hm : m.isXu = true) (he : xuEnabled s = true)
    (h : makeMove m s = .next t) :
    t.queue = s.queue ∧ segmentsLeft t < segmentsLeft s ∨ s.queue ≠ [] ∧ t.queue = s.queue.tail := by
  obtain ⟨hr, hw⟩ := xuEnabled_iff.1 he
  cases hh : s.xuHave with
  | true =>
    refine .inl (segment_spends hh ?_)
    cases m with
    | xu => simpa [makeMove, xuAction, hr, hh, act] using h
    | xuWord => simpa [makeMove, xuWordAction, hr, hh, act] using h
    | fsm | reset | hostWrite | present => cases hm
  | false =>
    have hne : s.queue ≠ [] := hw.resolve_left (by simp [hh])
    obtain ⟨w, q, hq⟩ := List.exists_cons_of_ne_nil hne
    refine .inr ⟨hne, ?_⟩
    cases m with
    | xu =>
      have hload : xuLoad w s = t := by simpa [makeMove, xuAction, hr, hh, hq, act] using h
      rw [← hload, xuLoad_queue]
    | xuWord =>
      have hword : exec (decodeCommandWord w) (xuLoad w s) = .next t := by
        simpa [makeMove, xuWordAction, hr, hh, hq, act, runWord, decode] using h
      rw [exec_commandWord_queue hword, xuLoad_queue]
    | fsm | reset | hostWrite | present => cases hm

end Sys2Proof.Machine
end

section
/-!
PROOFS. Progress (R152): every move the FSM makes when it has a step takes its request on towards completion (R66, R72,
R75, R77).
-/
namespace Sys2Proof.Machine

/-! ### An FSM that has a step does not stand still -/

theorem ifBound_cases (P : State → Prop) {k : State → State} {s : State} (hbound : s.bound = true → P (k s))
    (hunbound : P (raiseFault .notInitialised s)) : P (ifBound k s) := by
  unfold ifBound
  split
  · exact hbound ‹_›
  · exact hunbound

theorem positionBody_cases (P : State → Prop) {s : State} (hillegal : P (raiseFault .rowRange s))
    (hlegal : ∀ w, P (sendByte w s)) : P (positionBody s) := by
  unfold positionBody
  split
  · exact hillegal
  · exact hlegal _

theorem Accepted.busy {s t : State} (h : Accepted s t) : t.busy = true := by
  cases h with
  | init => simp
  | clear => exact ifBound_cases (·.busy = true) (fun _ => rfl) (raiseFault_busy ..)
  | home => exact ifBound_cases (·.busy = true) (fun _ => rfl) (raiseFault_busy ..)
  | position row col =>
    refine ifBound_cases (·.busy = true) (fun _ => ?_) (raiseFault_busy ..)
    exact positionBody_cases (·.busy = true) (raiseFault_busy ..) fun _ => rfl
  | writeString ptr => exact ifBound_cases (·.busy = true) (fun _ => rfl) (raiseFault_busy ..)
  | reserved op hop => exact raiseFault_busy ..

theorem exec_writeNibble_moves {s : State} (hroom : s.cfg.backend = .seq → s.queue.length < s.cfg.qdepth) (rs : Rs)
    (v : Nibble) (d : Delay) : exec (.writeNibble rs v d) s ≠ .next s := by
  intro h
  cases hbackend : s.cfg.backend with
  | direct =>
    rw [exec_writeNibble_direct hbackend, Host.Outcome.next.injEq] at h
    simpa [directNibble, nibbleEvents] using congrArg State.ptrace h
  | seq =>
    rw [exec_writeNibble_seq_room hbackend (hroom hbackend), Host.Outcome.next.injEq] at h
    simpa using congrArg State.qlog h

theorem exec_writeByte_moves {s : State} (hroom : s.cfg.backend = .seq → s.queue.length < s.cfg.qdepth) (rs : Rs)
    (b : Byte) (d : Delay) : exec (.writeByte rs b d) s ≠ .next s := by
  intro h
  cases hbackend : s.cfg.backend with
  | direct =>
    rw [exec_writeByte_direct hbackend, Host.Outcome.next.injEq] at h
    simpa [directByte, nibbleEvents] using congrArg State.ptrace h
  | seq =>
    rw [exec_writeByte_seq_room hbackend (hroom hbackend), Host.Outcome.next.injEq] at h
    simpa using congrArg State.qlog h

/-- The move of an FSM that has a step changes `busy`, `phase` or a log. -/
theorem fsm_enabled_moves {s : State} (he : fsmEnabled s = true) : act (fsmAction s) s ≠ .next s := by
  obtain ⟨hw, hb⟩ : (fsmAction s).isWait = false ∧ blocked s = false := by simpa [fsmEnabled] using he
  have hf : s.fault = .none := by
    by_contra hf
    simp [fsmAction, hf, Action.isWait] at hw
  have hroom (hop : s.phase = .opNibble ∨ s.phase = .opByte) (hseq : s.cfg.backend = .seq) :
      s.queue.length < s.cfg.qdepth := by
    by_contra hfull
    simp [blocked_iff.2 ⟨hseq, Nat.not_lt.1 hfull, hop⟩] at hb
  intro h
  cases hp : s.phase with
  | idle =>
    cases hr : s.requests with
    | nil => simp [fsmAction, hf, hp, hr, Action.isWait] at hw
    | cons w ws =>
      cases hbusy : s.busy with
      | true => simp [fsmAction, hf, hp, hr, hbusy, Action.isWait] at hw
      | false =>
        obtain ⟨t, ht, ha⟩ := exec_request (w := w) (s := { s with requests := ws })
        have hrun : fsmAction s = .run (.req w) { s with requests := ws } := by simp [fsmAction, hf, hp, hr, hbusy]
        rw [hrun] at h
        cases ht.symm.trans h
        exact Bool.false_ne_true (hbusy.symm.trans ha.busy)
  | fetchChar =>
    have hread : readChar s = s := by simpa [fsmAction, hf, hp, act] using h
    simpa using congrArg State.hostLog hread
  | send8 w =>
    cases hd : decodeOutByte w with
    | rejected e => simp [fsmAction, hf, hp, act, runWord, decode, hd] at h
    | ok i =>
      obtain ⟨rs, b, d, hi⟩ := exec_outByte (s := s) hd
      have hissue : issueByte rs b d s = s := by simpa [fsmAction, hf, hp, act, runWord, decode, hd, hi] using h
      simpa using congrArg State.tlog hissue
  | send4 w =>
    cases hd : decodeOutNibble w with
    | rejected e => simp [fsmAction, hf, hp, act, runWord, decode, hd] at h
    | ok i =>
      obtain ⟨rs, v, d, hi⟩ := exec_outNibble (s := s) hd
      have hissue : issueNibble rs v d s = s := by simpa [fsmAction, hf, hp, act, runWord, decode, hd, hi] using h
      simpa using congrArg State.tlog hissue
  | opNibble =>
    refine exec_writeNibble_moves (hroom (.inl hp)) s.tRs (lowNibble s.tVal) s.tDly ?_
    simpa [fsmAction, hf, hp, act, runWord, decode, decodeNibbleOp_latches] using h
  | opByte =>
    refine exec_writeByte_moves (hroom (.inr hp)) s.tRs s.tVal s.tDly ?_
    simpa [fsmAction, hf, hp, act, runWord, decode, decodeByteOp_latches] using h

/-! ### A bound on the moves a request still takes -/

/-- A request in progress: no fault, `busy`, bound (R15, R65). -/
def InProgress (s : State) : Prop := s.phase ≠ .idle ∧ s.fault = .none ∧ s.busy = true ∧ s.bound = true

/-- The request is complete and raised no fault (R77). -/
def Completed (s : State) : Prop := s.phase = .idle ∧ s.fault = .none ∧ s.busy = false

/-- The transport operations that follow the one the FSM is at: the later steps of INIT (R66), the characters before
address `a` (R72, R31), none otherwise. -/
def opsToCome (a : StrAddr) (s : State) : Nat :=
  if s.reqOp = 0 then 8 - s.step.toNat else if s.reqOp = 4 then (a - (s.strPtr + 1)).toNat else 0

/-- The transport operations to come when a character is read next. -/
def opsFromRead (a : StrAddr) (s : State) : Nat :=
  if s.reqOp = 4 then (a - s.strPtr).toNat else opsToCome a s + 1

/-- An upper bound on the moves of the FSM to the end of the request in progress, if a sentinel stays at address `a`: three
for an operation (read, issue, transport). -/
def movesLeft (a : StrAddr) (s : State) : Nat :=
  match s.phase with
  | .idle => 0
  | .fetchChar => 3 * opsFromRead a s + 1
  | .send8 _ | .send4 _ => 3 * opsToCome a s + 3
  | .opNibble | .opByte => 3 * opsToCome a s + 2

theorem movesLeft_send {a : StrAddr} {s : State} (h : (∃ w, s.phase = .send8 w) ∨ ∃ w, s.phase = .send4 w) :
    movesLeft a s = 3 * opsToCome a s + 3 := by
  rcases h with ⟨w, h⟩ | ⟨w, h⟩ <;> simp [movesLeft, h]

theorem movesLeft_op {a : StrAddr} {s : State} (h : s.phase = .opNibble ∨ s.phase = .opByte) :
    movesLeft a s = 3 * opsToCome a s + 2 := by
  rcases h with h | h <;> simp [movesLeft, h]

/-- A pointer that does not stand at `a` is one character closer after it is advanced, wrapping or not (R31). -/
theorem opsFromRead_of_ne {a : StrAddr} {s : State} (h : s.strPtr ≠ a) : opsFromRead a s = opsToCome a s + 1 := by
  unfold opsFromRead
  split
  · rename_i hop
    rw [opsToCome, if_neg (by simp [hop]), if_pos hop]
    bv_omega
  · rfl

/-- The handshake's steps after the first each send something (R66). -/
theorem handshake_succ (n : BitVec 4) (h : n.toNat < 8) : handshake (n + 1) ≠ .idle ∧ (n + 1).toNat = n.toNat + 1 := by
  revert n
  decide

theorem handshake_cases (n : BitVec 4) :
    handshake n = .idle ∨ (∃ w, handshake n = .send8 w) ∨ ∃ w, handshake n = .send4 w := by
  unfold handshake
  split <;> simp

theorem movesLeft_gotoStep {a : StrAddr} {n : BitVec 4} (s : State) (h : handshake n ≠ .idle) :
    movesLeft a (gotoStep n s) = 3 * opsToCome a (gotoStep n s) + 3 :=
  movesLeft_send ((handshake_cases n).resolve_left h)

/-- The request goes on towards its end: it is complete, or closer to it if a sentinel stands at address `a`. -/
def Advances (a : StrAddr) (s t : State) : Prop :=
  Completed t ∨ InProgress t ∧ (s.strMem.read a.toNat = sentinel → movesLeft a t < movesLeft a s)

theorem readChar_advances {a : StrAddr} {s : State} (hs : InProgress s) (hp : s.phase = .fetchChar) :
    Advances a s (readChar s) := by
  obtain ⟨-, hf, hbusy, hbound⟩ := hs
  by_cases hc : s.strMem.read s.strPtr.toNat = sentinel
  · rw [readChar_sentinel hc]
    exact .inl ⟨rfl, hf, rfl⟩
  · rw [readChar_char hc]
    refine .inr ⟨⟨by simp, hf, hbusy, hbound⟩, fun ha => ?_⟩
    have hne : s.strPtr ≠ a := fun he => hc (he ▸ ha)
    have hread : movesLeft a s = 3 * opsFromRead a s + 1 := by simp [movesLeft, hp]
    change 3 * opsToCome a s + 3 < movesLeft a s
    rw [hread, opsFromRead_of_ne hne]
    omega

theorem issueByte_advances {a : StrAddr} {s : State} {w : BitVec 9} (rs : Rs) (b : Byte) (d : Delay) (hs : InProgress s)
    (hp : s.phase = .send8 w) : Advances a s (issueByte rs b d s) := by
  obtain ⟨-, hf, hbusy, hbound⟩ := hs
  refine .inr ⟨⟨by simp, hf, hbusy, hbound⟩, fun _ => ?_⟩
  rw [movesLeft_send (.inl ⟨w, hp⟩)]
  exact Nat.lt_succ_self _

theorem issueNibble_advances {a : StrAddr} {s : State} {w : BitVec 5} (rs : Rs) (v : Nibble) (d : Delay)
    (hs : InProgress s) (hp : s.phase = .send4 w) : Advances a s (issueNibble rs v d s) := by
  obtain ⟨-, hf, hbusy, hbound⟩ := hs
  refine .inr ⟨⟨by simp, hf, hbusy, hbound⟩, fun _ => ?_⟩
  rw [movesLeft_send (.inr ⟨w, hp⟩)]
  exact Nat.lt_succ_self _

theorem finishOp_advances {a : StrAddr} {s : State} (hs : InProgress s) (hp : s.phase = .opNibble ∨ s.phase = .opByte) :
    Advances a s (finishOp s) := by
  obtain ⟨-, hf, hbusy, hbound⟩ := hs
  have hcomplete : Advances a s (complete s) := .inl ⟨rfl, hf, rfl⟩
  by_cases h0 : s.reqOp = 0
  · by_cases h8 : s.step.toNat < 8
    · obtain ⟨hsends, hsucc⟩ := handshake_succ s.step h8
      rw [finishOp_init_next h0 h8]
      refine .inr ⟨⟨hsends, hf, hbusy, hbound⟩, fun _ => ?_⟩
      have hnow : opsToCome a s = 8 - s.step.toNat := if_pos h0
      have hthen : opsToCome a (gotoStep (s.step + 1) s) = 8 - (s.step + 1).toNat := if_pos h0
      rw [movesLeft_gotoStep s hsends, movesLeft_op hp]
      omega
    · rwa [finishOp_init_last h0 h8]
  · by_cases h4 : s.reqOp = 4
    · rw [finishOp_string h4]
      refine .inr ⟨⟨by simp, hf, hbusy, hbound⟩, fun _ => ?_⟩
      rw [movesLeft_op hp]
      simp [movesLeft, opsFromRead, opsToCome, h4]
    · rwa [finishOp_single h0 h4]

theorem performThen_advances {a : StrAddr} {s : State} (es : List Event) (hs : InProgress s)
    (hp : s.phase = .opNibble ∨ s.phase = .opByte) : Advances a s (performThen es s) := by
  have hmoves : movesLeft a (perform es s) = movesLeft a s := by simp [movesLeft, opsFromRead, opsToCome]
  have h : Advances a (perform es s) (finishOp (perform es s)) :=
    finishOp_advances (by simpa [InProgress] using hs) (by simpa using hp)
  rwa [Advances, hmoves, perform_strMem] at h

theorem FsmStep.advances {s t : State} (a : StrAddr) (h : FsmStep s t) (hs : InProgress s) : t = s ∨ Advances a s t := by
  cases h with
  | wait => exact .inl rfl
  | request w ws t hf hp hb hr ha => exact absurd hp hs.1
  | read hf hp => exact .inr (readChar_advances hs hp)
  | issueByte w rs b d hf hp => exact .inr (issueByte_advances rs b d hs hp)
  | issueNibble w rs v d hf hp => exact .inr (issueNibble_advances rs v d hs hp)
  | directNibble hf hp hd => exact .inr (performThen_advances _ hs (.inl hp))
  | directByte hf hp hd => exact .inr (performThen_advances _ hs (.inr hp))
  | pushNibble hf hp hd hq => exact .inr (finishOp_advances (s := push _ s) hs (.inl hp))
  | pushByte hf hp hd hq => exact .inr (finishOp_advances (s := push _ s) hs (.inr hp))

end Sys2Proof.Machine
end

section
/-!
PROOFS. Progress (R152): what of the invariant progress rests on, and that every step but reset keeps it.
-/
namespace Sys2Proof.Machine

/-- The part of `Inv` that progress rests on, with room for a word in an empty queue (R152). -/
structure Live (s : State) : Prop where
  qdepth_pos : 0 < s.cfg.qdepth
  /-- at most QDEPTH words (R20) -/
  queueBound : s.queue.length ≤ s.cfg.qdepth
  /-- XU runs in SEQ once the transport is bound (R16, R103) -/
  unitRuns   : s.bound = true → s.cfg.backend = .seq → s.xuRun = true
  /-- `busy` is a request's in progress or a fault's (R15, R77, R119) -/
  control    : InProgress s ∨ s.phase = .idle ∧ (s.fault = .none → s.busy = false)

theorem Inv.live {s : State} (h : Inv s) (hq : 0 < s.cfg.qdepth) : Live s where
  qdepth_pos := hq
  queueBound := h.queueBound
  unitRuns hb hseq := h.run_bound.2 ⟨hb, hseq⟩
  control := by
    by_cases hp : s.phase = .idle
    · exact .inr ⟨hp, h.idle_busy hp⟩
    · exact .inl ⟨hp, h.inProgress hp⟩

/-- The FSM's sequencing aside, it rests on four registers. -/
theorem Live.congr {s t : State} (h : Live s) (hcfg : t.cfg = s.cfg) (hqueue : t.queue.length ≤ s.cfg.qdepth)
    (hbound : t.bound = s.bound) (hrun : t.xuRun = s.xuRun)
    (hcontrol : InProgress t ∨ t.phase = .idle ∧ (t.fault = .none → t.busy = false)) : Live t where
  qdepth_pos := hcfg ▸ h.qdepth_pos
  queueBound := hcfg ▸ hqueue
  unitRuns := by rw [hbound, hcfg, hrun]; exact h.unitRuns
  control := hcontrol

theorem FsmUntouched.inProgress {s t : State} (h : FsmUntouched s t) (hs : InProgress s) : InProgress t := by
  rwa [InProgress, h.phase, h.fault, h.busy, h.bound]

theorem FsmUntouched.live {s t : State} (h : FsmUntouched s t) (hs : Live s) : Live t := by
  refine hs.congr h.cfg (h.queue.trans hs.queueBound) h.bound h.xuRun (hs.control.imp h.inProgress ?_)
  rw [h.phase, h.fault, h.busy]
  exact id

/-! ### Acceptance -/

theorem bindTransport_xuRun_of_seq {s : State} (h : s.bound = true → s.xuRun = true) (hseq : s.cfg.backend = .seq) :
    (bindTransport s).xuRun = true := by
  cases hb : s.bound with
  | true => rw [bindTransport_of_bound hb, h hb]
  | false => rw [bindTransport_seq hb hseq]; rfl

/-- INIT binds and is in progress (R66, R67). -/
theorem Live.init {s : State} (hs : Live s) (hf : s.fault = .none) :
    Live (gotoStep 1 (bindTransport (accept 0 s))) where
  qdepth_pos := by simpa using hs.qdepth_pos
  queueBound := by simpa using hs.queueBound
  unitRuns _ hseq := by
    simp only [gotoStep_cfg, bindTransport_cfg, accept_cfg] at hseq
    exact bindTransport_xuRun_of_seq (s := accept 0 s) (fun hb => hs.unitRuns hb hseq) hseq
  control := .inl ⟨by simp [handshake], by simpa using hf, by simp, by simp⟩

/-- A fault raised at acceptance leaves `busy` set for good (R119). -/
theorem Live.raiseFault {s u : State} (hs : Live s) {c : Cause} (hc : c ≠ .none) (hcfg : u.cfg = s.cfg)
    (hqueue : u.queue = s.queue) (hbound : u.bound = s.bound) (hrun : u.xuRun = s.xuRun) (hp : u.phase = .idle)
    (hf : u.fault = .none) : Live (raiseFault c u) := by
  rw [raiseFault_of_none hf]
  exact hs.congr hcfg (hqueue ▸ hs.queueBound) hbound hrun (.inr ⟨hp, fun h => absurd h hc⟩)

theorem Accepted.live {s t : State} (h : Accepted s t) (hs : Live s) (hp : s.phase = .idle) (hf : s.fault = .none) :
    Live t := by
  cases h with
  | init => exact hs.init hf
  | clear | home | writeString =>
    refine ifBound_cases Live (fun hb => ?_) ?_
    · exact hs.congr rfl hs.queueBound rfl rfl (.inl ⟨by simp, hf, rfl, hb⟩)
    · exact hs.raiseFault (by decide) rfl rfl rfl rfl hp hf
  | position row col =>
    refine ifBound_cases Live (fun hb => positionBody_cases Live ?_ fun w => ?_) ?_
    · exact hs.raiseFault (by decide) rfl rfl rfl rfl hp hf
    · exact hs.congr rfl hs.queueBound rfl rfl (.inl ⟨by simp, hf, rfl, hb⟩)
    · exact hs.raiseFault (by decide) rfl rfl rfl rfl hp hf
  | reserved op hop => exact hs.raiseFault (by decide) rfl rfl rfl rfl hp hf

/-! ### The FSM's step -/

/-- Inside a request the FSM writes none of the registers that bind it to XU, and pushes only where there is space (R99). -/
theorem FsmStep.frame_in_progress {s t : State} (h : FsmStep s t) (hp : s.phase ≠ .idle)
    (hq : s.queue.length ≤ s.cfg.qdepth) :
    t.cfg = s.cfg ∧ t.queue.length ≤ s.cfg.qdepth ∧ t.bound = s.bound ∧ t.xuRun = s.xuRun := by
  cases h with
  | wait => exact ⟨rfl, hq, rfl, rfl⟩
  | request w ws t hf hidle hb hr ha => exact absurd hidle hp
  | read | issueByte | issueNibble | directNibble | directByte => simpa using hq
  | pushNibble hf hp hd hroom => simpa using hroom
  | pushByte hf hp hd hroom => simpa using hroom

theorem FsmStep.live {s t : State} (h : FsmStep s t) (hs : Live s) : Live t := by
  rcases hs.control with hprogress | ⟨hidle, hbusy⟩
  · obtain ⟨hcfg, hqueue, hbound, hrun⟩ := h.frame_in_progress hprogress.1 hs.queueBound
    rcases h.advances 0 hprogress with rfl | ⟨hp, hf, hb⟩ | ⟨ht, -⟩
    · exact hs
    · exact hs.congr hcfg hqueue hbound hrun (.inr ⟨hp, fun _ => hb⟩)
    · exact hs.congr hcfg hqueue hbound hrun (.inl ht)
  · cases h with
    | wait => exact hs
    | request w ws t hf hp hb hr ha =>
      exact ha.live (hs.congr rfl hs.queueBound rfl rfl (.inr ⟨hp, fun _ => hb⟩)) hp hf
    | read hf hp | issueByte w rs b d hf hp | issueNibble w rs v d hf hp | directNibble hf hp | directByte hf hp
    | pushNibble hf hp | pushByte hf hp => simp [hidle] at hp

theorem makeMove_live {m : Move} {s t : State} (hreset : m ≠ .reset) (h : makeMove m s = .next t) (hs : Live s) :
    Live t := by
  by_cases hm : m = .fsm
  · subst hm
    exact (fsm_step_cases h).live hs
  · exact (makeMove_fsmUntouched hm hreset h).live hs

end Sys2Proof.Machine
end

section
/-!
PROOFS. Progress (R152) over infinite runs: the rule of weak fairness, and the three clauses of O48.
-/
namespace Sys2Proof.Machine

/-- The proof rule of weak fairness: if `P` lasts until `Q`, gives an agent a step, and that step brings `Q`, then after
`P` comes `Q`. -/
theorem leadsTo_of_weaklyFair {P Q enabled taken : Nat → Prop}
    (fair : ∀ n, (∀ k, n ≤ k → enabled k) → ∃ k, n ≤ k ∧ taken k)
    (lasts : ∀ k, P k → P (k + 1) ∨ Q (k + 1)) (enables : ∀ k, P k → enabled k)
    (brings : ∀ k, P k → taken k → Q (k + 1)) {n : Nat} (hn : P n) : ∃ k, n ≤ k ∧ Q k := by
  by_contra hQ
  push Not at hQ
  have hP : ∀ k, n ≤ k → P k := by
    intro k hk
    induction k, hk using Nat.le_induction with
    | base => exact hn
    | succ k hk ih => exact (lasts k ih).resolve_right (hQ _ (by omega))
  obtain ⟨k, hk, htaken⟩ := fair n fun k hk => enables k (hP k hk)
  exact hQ _ (by omega) (brings k (hP k hk) htaken)

/-! ### When the FSM has a step -/

theorem fsmEnabled_of_inProgress {s : State} (hs : InProgress s) (hb : blocked s = false) : fsmEnabled s = true := by
  obtain ⟨hp, hf, -, -⟩ := hs
  unfold fsmEnabled fsmAction
  rw [if_neg (not_not.2 hf), hb]
  split <;> simp_all [Action.isWait]

/-- An FSM that waits for space in the queue does not move (R99). -/
theorem FsmStep.of_blocked {s t : State} (h : FsmStep s t) (hb : blocked s = true) : t = s := by
  obtain ⟨hseq, hfull, hop⟩ := blocked_iff.1 hb
  cases h with
  | wait => rfl
  | request w ws t hf hp | read hf hp | issueByte w rs b d hf hp | issueNibble w rs v d hf hp => simp [hp] at hop
  | directNibble hf hp hd | directByte hf hp hd => simp [hseq] at hd
  | pushNibble hf hp hd hq | pushByte hf hp hd hq => omega

/-- Where the FSM waits for space, XU has a step (R152). -/
theorem xuEnabled_of_blocked {s : State} (hs : Live s) (hb : blocked s = true) : xuEnabled s = true := by
  obtain ⟨hseq, hfull, hop⟩ := blocked_iff.1 hb
  have hbound : s.bound = true := by
    rcases hs.control with ⟨-, -, -, hbound⟩ | ⟨hp, -⟩
    · exact hbound
    · simp [hp] at hop
  have hpos := hs.qdepth_pos
  exact xuEnabled_iff.2 ⟨hs.unitRuns hbound hseq, .inr (List.ne_nil_of_length_pos (by omega))⟩

/-- Where the FSM waits for space, XU alone changes what is left of the word it holds. -/
theorem segmentsLeft_of_blocked {m : Move} {s t : State} (hm : m.isXu = false) (hreset : m ≠ .reset)
    (hb : blocked s = true) (h : makeMove m s = .next t) : segmentsLeft t = segmentsLeft s := by
  cases m with
  | fsm => rw [(fsm_step_cases h).of_blocked hb]
  | xu | xuWord => cases hm
  | reset => exact absurd rfl hreset
  | hostWrite a b => cases h; rfl
  | present w => cases h; rfl

/-- No move touches the registers of an FSM that waits for space. -/
theorem fsmUntouched_of_blocked {m : Move} {s t : State} (hreset : m ≠ .reset) (hb : blocked s = true)
    (h : makeMove m s = .next t) : FsmUntouched s t := by
  by_cases hm : m = .fsm
  · subst hm
    rw [(fsm_step_cases h).of_blocked hb]
    exact .refl s
  · exact makeMove_fsmUntouched hm hreset h

/-- A move made while the FSM waits for space: XU's makes space or takes it closer to its next fetch, another changes
neither. -/
theorem makeMove_of_blocked {m : Move} {s t : State} (hs : Live s) (hreset : m ≠ .reset) (hb : blocked s = true)
    (h : makeMove m s = .next t) : FsmUntouched s t ∧ (canPush t = true ∨
      blocked t = true ∧ (m.isXu = false ∧ segmentsLeft t = segmentsLeft s ∨ segmentsLeft t < segmentsLeft s)) := by
  have hkept := fsmUntouched_of_blocked hreset hb h
  refine ⟨hkept, (hkept.blocked_or_canPush hb).elim .inl fun hb' => ?_⟩
  cases hm : m.isXu with
  | false => exact .inr ⟨hb', .inl ⟨rfl, segmentsLeft_of_blocked hm hreset hb h⟩⟩
  | true =>
    rcases unit_move_spends hm (xuEnabled_of_blocked hs hb) h with ⟨-, hless⟩ | ⟨hne, htail⟩
    · exact .inr ⟨hb', .inr hless⟩
    · have hlength : t.queue.length < s.queue.length := by
        rw [htail, List.length_tail]
        exact Nat.sub_lt (List.length_pos_iff.2 hne) Nat.one_pos
      exact .inl (canPush_iff.2 (hkept.cfg ▸ hlength.trans_le hs.queueBound))

/-! ### What lasts while an agent waits for its move -/

/-- A ready FSM with a request at the port (R65). -/
def RequestAtPort (s : State) : Prop := s.phase = .idle ∧ s.fault = .none ∧ s.busy = false ∧ s.requests ≠ []

theorem RequestAtPort.fsmEnabled {s : State} (h : RequestAtPort s) : fsmEnabled s = true := by
  obtain ⟨hp, hf, hb, hr⟩ := h
  obtain ⟨w, ws, hr⟩ := List.exists_cons_of_ne_nil hr
  simp [Machine.fsmEnabled, fsmAction, blocked, hp, hf, hb, hr, Action.isWait]

theorem FsmUntouched.requestAtPort {s t : State} (h : FsmUntouched s t) (hs : RequestAtPort s) : RequestAtPort t := by
  obtain ⟨hp, hf, hb, hr⟩ := hs
  exact ⟨h.phase.trans hp, h.fault.trans hf, h.busy.trans hb, fun hnil => hr (List.prefix_nil.1 (hnil ▸ h.requests))⟩

theorem Live.requestAtPort {s : State} (h : Live s) (hready : ready s = true) (hr : s.requests ≠ []) :
    RequestAtPort s := by
  obtain ⟨hb, hf⟩ : s.busy = false ∧ s.fault = .none := by simpa [ready] using hready
  rcases h.control with ⟨-, -, hbusy, -⟩ | ⟨hp, -⟩
  · simp [hb] at hbusy
  · exact ⟨hp, hf, hb, hr⟩

theorem Live.inProgress {s : State} (h : Live s) (hb : s.busy = true) (hf : s.fault = .none) : InProgress s :=
  h.control.resolve_right fun ⟨_, hidle⟩ => by simp [hidle hf] at hb

/-- From `s` to `t` the FSM has waited for space, and XU has not moved. -/
def WaitsSince (s t : State) : Prop := FsmUntouched s t ∧ blocked t = true ∧ segmentsLeft t = segmentsLeft s

/-- From `s` to `t` the FSM has not moved, and there is nothing it waits for. -/
def GoesOnSince (a : StrAddr) (s t : State) : Prop :=
  InProgress t ∧ blocked t = false ∧ movesLeft a t = movesLeft a s

theorem FsmUntouched.movesLeft {s t : State} (h : FsmUntouched s t) (a : StrAddr) :
    movesLeft a t = movesLeft a s := by
  simp [Machine.movesLeft, opsFromRead, opsToCome, h.phase, h.reqOp, h.step, h.strPtr]

theorem FsmStep.accepts {s t : State} (h : FsmStep s t) (hidle : s.phase = .idle) : t = s ∨ t.busy = true := by
  cases h with
  | wait => exact .inl rfl
  | request w ws t hf hp hb hr ha => exact .inr ha.busy
  | read hf hp | issueByte w rs b d hf hp | issueNibble w rs v d hf hp | directNibble hf hp | directByte hf hp
  | pushNibble hf hp | pushByte hf hp => simp [hidle] at hp

/-! ### The three clauses -/

section
variable {moves : Nat → Move} {run : Nat → State} (hrun : RunUnder moves run)
include hrun

theorem runUnder_fsm {n : Nat} (hm : moves n = .fsm) (he : fsmEnabled (run n) = true) :
    FsmStep { run n with sched := [] } (run (n + 1)) ∧ run (n + 1) ≠ { run n with sched := [] } := by
  have h := runUnder_move hrun n
  rw [hm] at h
  refine ⟨fsm_step_cases h, fun heq => ?_⟩
  rw [heq] at h
  exact fsm_enabled_moves ((fsmEnabled_sched ..).trans he) h

variable (hreset : ∀ n, moves n ≠ .reset)
include hreset

theorem runUnder_live (h : Live (run 0)) (n : Nat) : Live (run n) := by
  induction n with
  | zero => exact h
  | succ n ih => exact makeMove_live (hreset n) (runUnder_move hrun n) ((FsmUntouched.sched _ []).live ih)

/-- One step of the run: the FSM's registers stand still, or the FSM moved. -/
theorem runUnder_cases (n : Nat) : FsmUntouched (run n) (run (n + 1)) ∨
    moves n = .fsm ∧ FsmStep { run n with sched := [] } (run (n + 1)) := by
  have h := runUnder_move hrun n
  by_cases hm : moves n = .fsm
  · rw [hm] at h
    exact .inr ⟨hm, fsm_step_cases h⟩
  · exact .inl ((FsmUntouched.sched _ []).trans (makeMove_fsmUntouched hm (hreset n) h))

variable (hfair : WeaklyFair moves run)
include hfair

theorem requestAtPort_accepted {n : Nat} (hn : RequestAtPort (run n)) : ∃ k, n ≤ k ∧ (run k).busy = true := by
  refine leadsTo_of_weaklyFair (P := fun k => RequestAtPort (run k)) hfair.fsm (fun k hk => ?_)
    (fun k hk => hk.fsmEnabled) (fun k hk hm => ?_) hn
  · rcases runUnder_cases hrun hreset k with h | ⟨-, h⟩
    · exact .inl (h.requestAtPort hk)
    · rcases h.accepts hk.1 with heq | hbusy
      · exact .inl (heq ▸ hk)
      · exact .inr hbusy
  · obtain ⟨h, hne⟩ := runUnder_fsm hrun hm hk.fsmEnabled
    exact (h.accepts hk.1).resolve_left hne

/-- The FSM's next move of consequence, where it has space in the queue. -/
theorem unblocked_fsm_moves {a : StrAddr} (hsentinel : ∀ n, (run n).strMem.read a.toNat = sentinel)
    {n : Nat} (hn : InProgress (run n)) (hb : blocked (run n) = false) : ∃ k, n ≤ k ∧
    (Completed (run k) ∨ InProgress (run k) ∧ movesLeft a (run k) < movesLeft a (run n)) := by
  refine leadsTo_of_weaklyFair (P := fun k => GoesOnSince a (run n) (run k)) hfair.fsm (fun k hk => ?_)
    (fun k ⟨hp, hb, _⟩ => fsmEnabled_of_inProgress hp hb) (fun k ⟨hp, hb, hleft⟩ hm => ?_) ⟨hn, hb, rfl⟩
  · obtain ⟨hp, hb, hleft⟩ := hk
    rcases runUnder_cases hrun hreset k with h | ⟨-, h⟩
    · exact .inl ⟨h.inProgress hp, h.not_blocked hb, (h.movesLeft a).trans hleft⟩
    · rcases h.advances a hp with heq | hdone | ⟨hp', hless⟩
      · exact .inl (heq ▸ ⟨hp, hb, hleft⟩)
      · exact .inr (.inl hdone)
      · exact .inr (.inr ⟨hp', hleft ▸ hless (hsentinel k)⟩)
  · obtain ⟨h, hne⟩ := runUnder_fsm hrun hm (fsmEnabled_of_inProgress hp hb)
    exact ((h.advances a hp).resolve_left hne).imp id fun ⟨hp', hless⟩ => ⟨hp', hleft ▸ hless (hsentinel k)⟩

variable (hlive : ∀ n, Live (run n))
include hlive

omit hfair in
theorem runUnder_of_blocked {n : Nat} (hb : blocked (run n) = true) : FsmUntouched (run n) (run (n + 1)) ∧
    (canPush (run (n + 1)) = true ∨ blocked (run (n + 1)) = true ∧
      ((moves n).isXu = false ∧ segmentsLeft (run (n + 1)) = segmentsLeft (run n) ∨
        segmentsLeft (run (n + 1)) < segmentsLeft (run n))) :=
  have hsched := FsmUntouched.sched (run n) []
  (makeMove_of_blocked (hsched.live (hlive n)) (hreset n) hb (runUnder_move hrun n)).imp hsched.trans id

/-- XU's next move where the FSM waits for space: it makes space, or it is closer to its next fetch. -/
theorem blocked_unit_moves {n : Nat} (hn : blocked (run n) = true) : ∃ k, n ≤ k ∧ FsmUntouched (run n) (run k) ∧
    (canPush (run k) = true ∨ blocked (run k) = true ∧ segmentsLeft (run k) < segmentsLeft (run n)) := by
  refine leadsTo_of_weaklyFair (P := fun k => WaitsSince (run n) (run k)) hfair.xu
    (fun k ⟨hsince, hb, hleft⟩ => ?_) (fun k ⟨_, hb, _⟩ => xuEnabled_of_blocked (hlive k) hb)
    (fun k ⟨hsince, hb, hleft⟩ hm => ?_) ⟨.refl _, hn, rfl⟩
  · obtain ⟨hnow, hroom | ⟨hb', ⟨-, hsame⟩ | hless⟩⟩ := runUnder_of_blocked hrun hreset hlive hb
    · exact .inr ⟨hsince.trans hnow, .inl hroom⟩
    · exact .inl ⟨hsince.trans hnow, hb', hsame.trans hleft⟩
    · exact .inr ⟨hsince.trans hnow, .inr ⟨hb', hleft ▸ hless⟩⟩
  · obtain ⟨hnow, hroom | ⟨hb', ⟨hnot, -⟩ | hless⟩⟩ := runUnder_of_blocked hrun hreset hlive hb
    · exact ⟨hsince.trans hnow, .inl hroom⟩
    · exact absurd hm (by simp [hnot])
    · exact ⟨hsince.trans hnow, .inr ⟨hb', hleft ▸ hless⟩⟩

theorem blocked_gets_space {n : Nat} (hn : blocked (run n) = true) :
    ∃ k, n ≤ k ∧ FsmUntouched (run n) (run k) ∧ canPush (run k) = true := by
  induction hleft : segmentsLeft (run n) using Nat.strong_induction_on generalizing n with
  | _ left ih =>
    obtain ⟨k, hk, hkept, hroom | ⟨hb, hless⟩⟩ := blocked_unit_moves hrun hreset hfair hlive hn
    · exact ⟨k, hk, hkept, hroom⟩
    · obtain ⟨j, hj, hkept', hroom⟩ := ih _ (hleft ▸ hless) hb rfl
      exact ⟨j, hk.trans hj, hkept.trans hkept', hroom⟩

theorem inProgress_completes {a : StrAddr} (hsentinel : ∀ n, (run n).strMem.read a.toNat = sentinel) {n : Nat}
    (hn : InProgress (run n)) : ∃ k, n ≤ k ∧ Completed (run k) := by
  induction hleft : movesLeft a (run n) using Nat.strong_induction_on generalizing n with
  | _ left ih =>
    obtain ⟨m, hm, hp, hb, hmleft⟩ : ∃ m, n ≤ m ∧ GoesOnSince a (run n) (run m) := by
      cases hb : blocked (run n) with
      | false => exact ⟨n, le_rfl, hn, hb, rfl⟩
      | true =>
        obtain ⟨m, hm, hkept, hroom⟩ := blocked_gets_space hrun hreset hfair hlive hb
        exact ⟨m, hm, hkept.inProgress hn, by simp [blocked, hroom], hkept.movesLeft a⟩
    obtain ⟨k, hk, hdone | ⟨hp', hless⟩⟩ := unblocked_fsm_moves hrun hreset hfair hsentinel hp hb
    · exact ⟨k, hm.trans hk, hdone⟩
    · obtain ⟨j, hj, hdone⟩ := ih _ (hleft ▸ hmleft ▸ hless) hp' rfl
      exact ⟨j, (hm.trans hk).trans hj, hdone⟩

end

/-- Settles O48: each clause by the rule of weak fairness. A request at the port needs one move of the FSM; a full queue
waits for at most the segments of the word XU is at; a request in progress waits for space, then takes a bounded number
of moves, the bound falling with each. -/
theorem requestsCompleteUnderWeakFairness : Obligations.RequestsCompleteUnderWeakFairness := by
  intro moves run hrun hfair hinv hq hreset
  have hlive := runUnder_live hrun hreset (hinv.live hq)
  refine ⟨fun n hready hrequests => ?_, fun n hb => ?_, fun ⟨a, hsentinel⟩ n hbusy hfault => ?_⟩
  · exact requestAtPort_accepted hrun hreset hfair ((hlive n).requestAtPort hready hrequests)
  · obtain ⟨k, hk, -, hroom⟩ := blocked_gets_space hrun hreset hfair hlive hb
    exact ⟨k, hk, hroom⟩
  · obtain ⟨k, hk, -, hfault', hbusy'⟩ :=
      inProgress_completes hrun hreset hfair hlive hsentinel ((hlive n).inProgress hbusy hfault)
    exact ⟨k, hk, hbusy', hfault'⟩

end Sys2Proof.Machine
end

section
/-!
PROOFS. The encodings (R45 to R56): what stands in a field of a word put together from fields, and the round trips that
follow.
-/
namespace Sys2Proof.Machine

/-! ### Fields of a word -/

@[simp] theorem extract_field {n m k : Nat} (x : BitVec n) (h : k + n ≤ m) :
    (x.setWidth m <<< k).extractLsb' k n = x := by
  ext i hi
  simp [show k + i < m by omega, show ¬ k + i < k by omega, hi]

@[simp] theorem extract_above_field {w m j k n : Nat} (x : BitVec w) (h : j + w ≤ k) :
    (x.setWidth m <<< j).extractLsb' k n = 0#n := by
  ext i hi
  simp [BitVec.getLsbD_of_ge x (k + i - j) (by omega)]

@[simp] theorem extract_below_field {m j k n : Nat} (x : BitVec m) (h : k + n ≤ j) :
    (x <<< j).extractLsb' k n = 0#n := by
  ext i hi
  simp [show k + i < j by omega]

@[simp] theorem extract_lowest_field {n m : Nat} (x : BitVec n) (h : n ≤ m) : (x.setWidth m).extractLsb' 0 n = x := by
  simpa using extract_field (k := 0) (m := m) x (by omega)

@[simp] theorem extract_above_lowest_field {w m k n : Nat} (x : BitVec w) (h : w ≤ k) :
    (x.setWidth m).extractLsb' k n = 0#n := by
  simpa using extract_above_field (j := 0) (m := m) (n := n) x (by omega)

/-! ### Requests (R45, R46) -/

@[simp] theorem requestWord_opField (op : BitVec 3) (arg : BitVec 32) : (requestWord op arg).extractLsb' 32 3 = op := by
  simp [requestWord, BitVec.extractLsb'_or]

@[simp] theorem requestWord_argField (op : BitVec 3) (arg : BitVec 32) {k n : Nat} (h : k + n ≤ 32) :
    (requestWord op arg).extractLsb' k n = arg.extractLsb' k n := by
  rw [requestWord, BitVec.extractLsb'_or, extract_below_field _ h, BitVec.zero_or,
    BitVec.extractLsb'_setWidth_of_le (by omega)]

theorem decodeRequest_position (row col : Byte) :
    decodeRequest (requestWord 3 (row.setWidth 32 <<< 8 ||| col.setWidth 32)) = .position row col := by
  simp [decodeRequest, BitVec.extractLsb'_or]

theorem decodeRequest_writeString (ptr : StrAddr) : decodeRequest (requestWord 4 ptr) = .writeString ptr := by
  simp [decodeRequest]

/-! ### Command words, segments, latches (R50 to R55, R14) -/

theorem decodeCommandWord_fields_nibble (rs : Rs) (v : Nibble) (d : Delay) :
    decodeCommandWord (d.setWidth 32 <<< 7 ||| rs.setWidth 32 <<< 5 ||| v.setWidth 32 <<< 1 ||| 1#32) =
      .cwNibble rs v d := by
  rw [decodeCommandWord_nibble (by simp) (by simp)]
  simp [BitVec.extractLsb'_or]

theorem decodeCommandWord_fields_byte (rh rl : Rs) (h l : Nibble) (d : Delay) :
    decodeCommandWord (d.setWidth 32 <<< 13 ||| rl.setWidth 32 <<< 11 ||| l.setWidth 32 <<< 7 ||| 1#32 <<< 6
      ||| rh.setWidth 32 <<< 5 ||| h.setWidth 32 <<< 1 ||| 1#32) = .cwByte rh h rl l d := by
  rw [decodeCommandWord_byte (by simp) (by simp) (by simp)]
  simp [BitVec.extractLsb'_or]

theorem decodeCommandWord_fields_delay (d : Delay) : decodeCommandWord (d.setWidth 32 <<< 1) = .cwDelayOnly d := by
  rw [decodeCommandWord_delay (by simp), extract_field d (by decide)]

theorem decodeCommandWord_isMalformed {w : CmdWord} (h : isMalformed w = true) :
    decodeCommandWord w = .cwMalformed w := by
  obtain ⟨⟨h0, h6⟩, h12⟩ : (firstMarker w = true ∧ secondMarker w = true) ∧ thirdMarker w = true := by
    simpa [isMalformed] using h
  exact decodeCommandWord_malformed h0 h6 h12

theorem decodeWriteSegment_fields (rs : Rs) (v : Nibble) :
    decodeWriteSegment (rs.setWidth 6 <<< 5 ||| v.setWidth 6 <<< 1 ||| 1#6) = .ok (.segWrite rs v) := by
  simp [decodeWriteSegment, BitVec.extractLsb'_or]

theorem decodeDelaySegment_fields (d : Delay) : decodeDelaySegment (d.setWidth 20 <<< 1) = .ok (.segDelay d) := by
  simp [decodeDelaySegment]

theorem decodeNibbleOp_fields (rs : Rs) (v : Nibble) (d : Delay) :
    decodeNibbleOp (rs.setWidth 24 <<< 23 ||| v.setWidth 24 <<< 19 ||| d.setWidth 24) = .writeNibble rs v d := by
  simp [decodeNibbleOp, BitVec.extractLsb'_or]

theorem decodeByteOp_fields (rs : Rs) (b : Byte) (d : Delay) :
    decodeByteOp (rs.setWidth 28 <<< 27 ||| b.setWidth 28 <<< 19 ||| d.setWidth 28) = .writeByte rs b d := by
  simp [decodeByteOp, BitVec.extractLsb'_or]

/-- Settles O1: by the row of the instruction, each field read back from its place. -/
theorem decodeOfEncodeIsTheInstruction : Obligations.DecodeOfEncodeIsTheInstruction := by
  intro i hwf
  cases i with
  | init | clear | home | reserved5 | reserved6 | reserved7 => rfl
  | position row col => exact congrArg Decoded.ok (decodeRequest_position row col)
  | writeString ptr => exact congrArg Decoded.ok (decodeRequest_writeString ptr)
  | cwNibble rs v d => exact congrArg Decoded.ok (decodeCommandWord_fields_nibble rs v d)
  | cwByte rh h rl l d => exact congrArg Decoded.ok (decodeCommandWord_fields_byte rh rl h l d)
  | cwDelayOnly d => exact congrArg Decoded.ok (decodeCommandWord_fields_delay d)
  | cwMalformed w => exact congrArg Decoded.ok (decodeCommandWord_isMalformed hwf)
  | segWrite rs v => exact decodeWriteSegment_fields rs v
  | segDelay d => exact decodeDelaySegment_fields d
  | writeNibble rs v d => exact congrArg Decoded.ok (decodeNibbleOp_fields rs v d)
  | writeByte rs b d => exact congrArg Decoded.ok (decodeByteOp_fields rs b d)
  | outFunctionSet | outDisplayControl | outEntryMode | outClear | outHome | outWakeNibble | outMode4Nibble => rfl
  | outSetDdramAddr a => exact decodeOutByte_setDdram a
  | outData c => exact decodeOutByte_data c

/-! ### What a decoder answers is well formed -/

theorem decodeRequest_wellFormed (w : ReqWord) : WellFormed (decodeRequest w) := by
  unfold decodeRequest
  split <;> rfl

/-- `cwMalformed` is answered where the three markers are 1. -/
theorem decodeCommandWord_wellFormed (w : CmdWord) : WellFormed (decodeCommandWord w) := by
  unfold decodeCommandWord
  split
  · split
    · split
      · simp_all [WellFormed, Instr.wellFormed, isMalformed]
      · rfl
    · rfl
  · rfl

theorem decodeOutByte_wellFormed {w : BitVec 9} {i : Instr} (h : decodeOutByte w = .ok i) : WellFormed i := by
  unfold decodeOutByte at h
  (repeat' split at h) <;> cases h <;> rfl

theorem decodeOutNibble_wellFormed {w : BitVec 5} {i : Instr} (h : decodeOutNibble w = .ok i) : WellFormed i := by
  obtain ⟨-, rfl⟩ | ⟨-, rfl⟩ := decodeOutNibble_cases h <;> rfl

/-- Settles O2: of all instructions a malformed command word alone can be ill formed, and one decoder answers it. -/
theorem decodedInstructionsAreWellFormed : Obligations.DecodedInstructionsAreWellFormed := by
  intro w i h
  cases w with
  | req w => cases h; exact decodeRequest_wellFormed w
  | cw w => cases h; exact decodeCommandWord_wellFormed w
  | seg6 w =>
    simp only [decode, decodeWriteSegment] at h
    split at h <;> cases h
    rfl
  | seg20 w =>
    simp only [decode, decodeDelaySegment] at h
    split at h <;> cases h
    rfl
  | top24 w | top28 w => cases h; rfl
  | out8 w => exact decodeOutByte_wellFormed h
  | out4 w => exact decodeOutNibble_wellFormed h

/-! ### The words of the encoder helpers (R95 to R98) -/

theorem nibbleWord_eq (rs : Rs) (v : Nibble) (d : Delay) :
    nibbleWord rs v d = d.setWidth 32 <<< 7 ||| rs.setWidth 32 <<< 5 ||| v.setWidth 32 <<< 1 ||| 1#32 := by
  simp [nibbleWord, addWriteCmd, addDelayCmd, ← BitVec.shiftLeft_add]

theorem byteWord_eq (rs : Rs) (b : Byte) (d : Delay) :
    byteWord rs b d = d.setWidth 32 <<< 13 ||| rs.setWidth 32 <<< 11 ||| (lowNibble b).setWidth 32 <<< 7 ||| 1#32 <<< 6
      ||| rs.setWidth 32 <<< 5 ||| (highNibble b).setWidth 32 <<< 1 ||| 1#32 := by
  simp [byteWord, addWriteCmd, addDelayCmd, BitVec.shiftLeft_or_distrib, ← BitVec.shiftLeft_add]

theorem decodeCommandWord_nibbleWord (rs : Rs) (v : Nibble) (d : Delay) :
    decodeCommandWord (nibbleWord rs v d) = .cwNibble rs v d := by
  rw [nibbleWord_eq, decodeCommandWord_fields_nibble]

theorem decodeCommandWord_byteWord (rs : Rs) (b : Byte) (d : Delay) :
    decodeCommandWord (byteWord rs b d) = .cwByte rs (highNibble b) rs (lowNibble b) d := by
  rw [byteWord_eq, decodeCommandWord_fields_byte]

/-- Settles O3: the helpers' words are the layouts the decoder reads. -/
theorem commandWordRoundTrip : Obligations.CommandWordRoundTrip :=
  fun rs b v d => ⟨decodeCommandWord_byteWord rs b d, decodeCommandWord_nibbleWord rs v d⟩

/-- Settles O4: the two layouts, field by field. -/
theorem encoderBuildsTheTableLayouts : Obligations.EncoderBuildsTheTableLayouts := by
  intro rs b v d n w
  constructor
  · simp [n, nibbleWord_eq, BitVec.extractLsb'_or]
  · simp [w, byteWord_eq, BitVec.extractLsb'_or]
    exact ⟨rfl, rfl⟩

/-! ### Ignored request bits (R49), sample words -/

/-- Settles O5: the decoder reads `op`, and of `arg` the low 16 bits with op 3 and all of it with op 4. -/
theorem ignoredRequestBitsHaveNoEffect : Obligations.IgnoredRequestBitsHaveNoEffect := by
  intro w w' hop hposition hstring
  have low16 (v : ReqWord) {k : Nat} (h : k + 8 ≤ 16) : v.extractLsb' k 8 = (v.extractLsb' 0 16).extractLsb' k 8 :=
    (BitVec.extractLsb'_extractLsb'_of_le h).symm
  unfold decodeRequest
  rw [← hop]
  split
  case h_4 h3 =>
    rw [low16 w (by decide), low16 w (by decide), hposition (BitVec.eq_of_toNat_eq h3), ← low16 w' (by decide),
      ← low16 w' (by decide)]
  case h_5 h4 => rw [hstring (BitVec.eq_of_toNat_eq h4)]
  all_goals rfl

/-- Settles O6, by evaluation of the decoders on the eleven words. -/
theorem sampleWordsDecode : Obligations.SampleWordsDecode := by
  unfold Obligations.SampleWordsDecode
  decide

end Sys2Proof.Machine
end

section
/-!
PROOFS. The frames of the steps, said once as record equations: what the pin events, an accepted request and a move of XU
leave unchanged.
-/
namespace Sys2Proof.Machine

/-! ### Pin events and the parts of XU as record updates -/

theorem perform_eq (es : List Event) (s : State) : perform es s = { s with
    pins := es.foldl pinsAfter s.pins, oe := es.foldl oeAfter s.oe, ptrace := s.ptrace ++ es } := by
  induction es generalizing s with
  | nil => simp [perform]
  | cons e es ih =>
    have hstep : perform (e :: es) s = perform es (emit s e) := rfl
    rw [hstep, ih]
    simp [emit]

/-- Events of XU and of the transport set no output enable. -/
theorem xuWrite_eq (rs : Rs) (v : Nibble) (s : State) : xuWrite rs v s = { s with
    pins := (nibbleEvents s.cfg.pins (consecutiveValue s.cfg.pins rs v)).foldl pinsAfter s.pins,
    ptrace := s.ptrace ++ nibbleEvents s.cfg.pins (consecutiveValue s.cfg.pins rs v),
    xuOsr := s.xuOsr >>> 6, xuWrites := s.xuWrites + 1 } := by
  rw [xuWrite, perform_eq, nibbleEvents_oe]

theorem xuDelay_eq (d : Delay) (s : State) :
    xuDelay d s = { s with ptrace := s.ptrace ++ settle d, xuHave := false } := by
  rw [xuDelay, perform_eq, settle_oe, settle_pins]

/-! ### A request other than INIT -/

theorem raiseFault_eq (c : Cause) (s : State) :
    raiseFault c s = { s with fault := if s.fault = .none then c else s.fault } := by
  unfold raiseFault
  split <;> rfl

/-- From `s` to `t` the request registers, `busy`, the sequencing and the fault changed at most. -/
def RequestFrame (s t : State) : Prop := ∃ op row col ptr busy phase fault, t = { s with
  reqOp := op, reqRow := row, reqCol := col, strPtr := ptr, busy := busy, phase := phase, fault := fault }

theorem RequestFrame.raiseFault {s t : State} (h : RequestFrame s t) (c : Cause) :
    RequestFrame s (raiseFault c t) := by
  obtain ⟨_, _, _, _, _, _, _, rfl⟩ := h
  exact ⟨_, _, _, _, _, _, _, raiseFault_eq ..⟩

theorem RequestFrame.accept (op : BitVec 3) (s : State) : RequestFrame s (accept op s) := ⟨_, _, _, _, _, _, _, rfl⟩

theorem Accepted.init_or_frame {s t : State} (h : Accepted s t) :
    t = gotoStep 1 (bindTransport (accept 0 s)) ∨ RequestFrame s t := by
  cases h with
  | init => exact .inl rfl
  | clear | home =>
    exact .inr (ifBound_cases _ (fun _ => ⟨_, _, _, _, _, _, _, rfl⟩) ((RequestFrame.accept ..).raiseFault _))
  | position row col =>
    have latched : RequestFrame s { accept 3 s with reqRow := row, reqCol := col } := ⟨_, _, _, _, _, _, _, rfl⟩
    refine .inr (ifBound_cases _ (fun _ => ?_) (latched.raiseFault _))
    exact positionBody_cases _ (latched.raiseFault _) fun w => ⟨_, _, _, _, _, _, _, rfl⟩
  | writeString ptr =>
    have latched : RequestFrame s { accept 4 s with strPtr := ptr } := ⟨_, _, _, _, _, _, _, rfl⟩
    exact .inr (ifBound_cases _ (fun _ => ⟨_, _, _, _, _, _, _, rfl⟩) (latched.raiseFault _))
  | reserved op hop => exact .inr ((RequestFrame.accept ..).raiseFault _)

/-! ### A move of XU -/

/-- From `s` to `t` the pins, their trace, the queue and XU's registers changed at most, XU running or not as before. -/
def UnitFrame (s t : State) : Prop := ∃ pins ptrace queue osr holds writes, t = { s with
  pins := pins, ptrace := ptrace, queue := queue, xuOsr := osr, xuHave := holds, xuWrites := writes }

theorem UnitStep.frame {s t : State} (h : UnitStep s t) : UnitFrame s t := by
  cases h with
  | wait => exact ⟨_, _, _, _, _, _, rfl⟩
  | load w q hr hh hq => exact ⟨_, _, _, _, _, _, rfl⟩
  | write hr hh hm hn => exact ⟨_, _, _, _, _, _, xuWrite_eq ..⟩
  | delay hr hh hm => exact ⟨_, _, _, _, _, _, xuDelay_eq ..⟩

theorem UnitSteps.frame {s t : State} (h : UnitSteps s t) : UnitFrame s t := by
  induction h with
  | refl => exact ⟨_, _, _, _, _, _, rfl⟩
  | tail _ h' ih =>
    obtain ⟨_, _, _, _, _, _, rfl⟩ := ih
    obtain ⟨_, _, _, _, _, _, rfl⟩ := h'.frame
    exact ⟨_, _, _, _, _, _, rfl⟩

end Sys2Proof.Machine
end

section
/-!
PROOFS. The invariant of the machine: it holds at reset and every step keeps it (O50's half, O51). It falls into five parts
that speak of different registers; each part has one lemma per way a step can change its registers.
-/
namespace Sys2Proof.Machine

/-! ### The five parts -/

/-- The queue: at most QDEPTH words of the encoder, none in DIRECT (R20, R55). -/
structure QueueInv (c : Configuration) (queue : List CmdWord) : Prop where
  bounded : queue.length ≤ c.qdepth
  words   : ∀ w ∈ queue, ∃ op, w = opWord op
  direct  : c.backend = .direct → queue = []

/-- The word XU holds, if any, can be replayed to its end (R104, R109). -/
structure UnitInv (run holds : Bool) (writes : Nat) (osr : CmdWord) : Prop where
  osr      : holds = true → Replayable writes osr
  have_run : holds = true → run = true

/-- The binding and what it establishes: a valid PinSet, XU started, the outputs, the enable line low (R16, R19, R117). -/
structure BindingInv (c : Configuration) (run bound : Bool) (fault : Cause) (oe pins : PinWord) : Prop where
  run_bound   : run = true ↔ bound = true ∧ c.backend = .seq
  badConfig   : configCause c ≠ .none → fault = configCause c
  bound_valid : bound = true → configCause c = .none
  outputs     : oe = if bound then maskAll c.pins else 0
  enable_low  : bound = true → pinLevel pins c.pins.e = false

/-- No request in progress (R77, R119). -/
def Resting (s : State) : Prop := s.phase = .idle ∧ s.step = 0 ∧ (s.fault = .none → s.busy = false)

/-- A request in progress, sending what it may, `step` counting in INIT alone (R15, R56, R78). -/
def Running (s : State) : Prop :=
  InProgress s ∧ Sendable s.phase ∧ s.step.toNat ≤ 8 ∧ (s.step ≠ 0 ↔ s.reqOp = 0)

theorem Inv.queue {s : State} (h : Inv s) : QueueInv s.cfg s.queue := ⟨h.queueBound, h.queueWords, h.direct_queue⟩

theorem Inv.unit {s : State} (h : Inv s) : UnitInv s.xuRun s.xuHave s.xuWrites s.xuOsr := ⟨h.osr, h.have_run⟩

theorem Inv.binding {s : State} (h : Inv s) : BindingInv s.cfg s.xuRun s.bound s.fault s.oe s.pins :=
  ⟨h.run_bound, h.badConfig, h.bound_valid, h.outputs, h.enable_low⟩

theorem Inv.resting_or_running {s : State} (h : Inv s) : Resting s ∨ Running s := by
  by_cases hp : s.phase = .idle
  · have hstep : s.step = 0 := by
      by_contra hne
      exact (h.step_init hne).2 hp
    exact .inl ⟨hp, hstep, h.idle_busy hp⟩
  · exact .inr ⟨⟨hp, h.inProgress hp⟩, h.sending, h.step_le, fun hne => (h.step_init hne).1, h.init_step hp⟩

theorem inv_of_parts {s : State} (hmem : s.strMem.wf = true) (hqueue : QueueInv s.cfg s.queue)
    (hunit : UnitInv s.xuRun s.xuHave s.xuWrites s.xuOsr)
    (hbind : BindingInv s.cfg s.xuRun s.bound s.fault s.oe s.pins) (hctl : Resting s ∨ Running s) : Inv s where
  memory := hmem
  queueBound := hqueue.bounded
  queueWords := hqueue.words
  osr := hunit.osr
  have_run := hunit.have_run
  run_bound := hbind.run_bound
  direct_queue := hqueue.direct
  inProgress := by
    rcases hctl with ⟨hp, -, -⟩ | ⟨⟨-, h⟩, -⟩
    · exact fun hne => absurd hp hne
    · exact fun _ => h
  idle_busy := by
    rcases hctl with ⟨-, -, h⟩ | ⟨⟨hne, -⟩, -⟩
    · exact fun _ => h
    · exact fun hp => absurd hp hne
  sending := by
    rcases hctl with ⟨hp, -, -⟩ | ⟨-, h, -⟩
    · rw [hp]; trivial
    · exact h
  step_le := by
    rcases hctl with ⟨-, h, -⟩ | ⟨-, -, h, -⟩
    · simp [h]
    · exact h
  step_init := by
    rcases hctl with ⟨-, h, -⟩ | ⟨⟨hp, -⟩, -, -, h⟩
    · exact fun hne => absurd h hne
    · exact fun hne => ⟨h.1 hne, hp⟩
  init_step := by
    rcases hctl with ⟨h, -, -⟩ | ⟨-, -, -, h⟩
    · exact fun hne => absurd h hne
    · exact fun _ => h.2
  badConfig := hbind.badConfig
  bound_valid := hbind.bound_valid
  outputs := hbind.outputs
  enable_low := hbind.enable_low

/-! ### Reset -/

theorem applyReset_inv {s : State} (h : s.strMem.wf = true) : Inv (applyReset s) where
  memory := h
  queueBound := Nat.zero_le _
  queueWords := by simp [applyReset, State.resetWith]
  osr := by simp [applyReset, State.resetWith]
  have_run := by simp [applyReset, State.resetWith]
  run_bound := by simp [applyReset, State.resetWith]
  direct_queue := fun _ => rfl
  inProgress := fun h => absurd rfl h
  idle_busy := fun _ _ => rfl
  sending := trivial
  step_le := by simp [applyReset, State.resetWith]
  step_init := fun h => absurd rfl h
  init_step := fun h => absurd rfl h
  badConfig := fun _ => rfl
  bound_valid := by simp [applyReset, State.resetWith]
  outputs := rfl
  enable_low := by simp [applyReset, State.resetWith]

/-! ### XU -/

theorem QueueInv.tail {c : Configuration} {queue : List CmdWord} (h : QueueInv c queue) : QueueInv c queue.tail where
  bounded := by
    have := h.bounded
    simp only [List.length_tail]
    omega
  words w hw := h.words w (List.mem_of_mem_tail hw)
  direct hd := by simp [h.direct hd]

theorem Replayable.of_opWord (op : TransportOp) : Replayable 0 (opWord op) := by
  simp [Replayable, opWord_not_malformed]

/-- One write segment on, one fewer may follow. -/
theorem Replayable.shift {n : Nat} {osr : CmdWord} (h : Replayable n osr) (hn : n < 2) (hm : osr.getLsbD 0 = true) :
    Replayable (n + 1) (osr >>> 6) := by
  obtain ⟨-, h0, h1, -⟩ := h
  obtain rfl | rfl : n = 0 ∨ n = 1 := by omega
  · simpa [Replayable, isMalformed, firstMarker, secondMarker, thirdMarker, hm] using h0 rfl
  · simpa [Replayable, firstMarker, secondMarker, hm] using h1 rfl

theorem UnitFrame.control {s t : State} (h : UnitFrame s t) (hs : Resting s ∨ Running s) : Resting t ∨ Running t := by
  obtain ⟨_, _, _, _, _, _, rfl⟩ := h
  exact hs

theorem UnitStep.inv {s t : State} (h : UnitStep s t) (hs : Inv s) : Inv t := by
  have hctl := h.frame.control hs.resting_or_running
  cases h with
  | wait => exact hs
  | load w q hr hh hq =>
    have hword : Replayable 0 w := by
      obtain ⟨op, rfl⟩ := hs.queueWords w (by simp [hq])
      exact .of_opWord op
    exact inv_of_parts hs.memory hs.queue.tail ⟨fun _ => hword, fun _ => hr⟩ hs.binding hctl
  | write hr hh hm hn =>
    refine inv_of_parts (by simpa using hs.memory) (by simpa using hs.queue) ?_ ?_ hctl
    · simpa using ⟨fun _ => (hs.osr hh).shift hn hm, fun _ => hr⟩
    · simpa using { hs.binding with enable_low := fun _ => nibbleEvents_enable_low _ _ _ }
  | delay hr hh hm =>
    refine inv_of_parts (by simpa using hs.memory) (by simpa using hs.queue) ?_ (by simpa using hs.binding) hctl
    exact ⟨by simp, by simp⟩

theorem UnitSteps.inv {s t : State} (h : UnitSteps s t) (hs : Inv s) : Inv t := by
  induction h with
  | refl => exact hs
  | tail _ h' ih => exact h'.inv ih

end Sys2Proof.Machine
end

section
/-!
PROOFS. The invariant of the machine, continued: the FSM's steps, and O51.
-/
namespace Sys2Proof.Machine

/-! ### The FSM's sequencing -/

theorem complete_resting (s : State) : Resting (complete s) := ⟨rfl, rfl, fun _ => rfl⟩

/-- A fault raised by a request leaves `busy` set for good, with no request in progress (R119). -/
theorem raiseFault_resting {c : Cause} (hc : c ≠ .none) {s : State} (hp : s.phase = .idle) (h0 : s.step = 0)
    (hf : s.fault = .none) : Resting (raiseFault c s) :=
  ⟨by simpa using hp, by simpa using h0, by simp [hf, hc]⟩

/-- What INIT sends is a row of R56 and no character (R66). -/
theorem handshake_sendable (n : BitVec 4) : Sendable (handshake n) := by
  unfold handshake
  split <;> simp only [Sendable] <;> decide

theorem gotoStep_running {s : State} {n : BitVec 4} (hf : s.fault = .none) (hbusy : s.busy = true)
    (hbound : s.bound = true) (hop : s.reqOp = 0) (hn : handshake n ≠ .idle) (h8 : n.toNat ≤ 8) (h0 : n ≠ 0) :
    Running (gotoStep n s) :=
  ⟨⟨hn, hf, hbusy, hbound⟩, handshake_sendable n, h8, fun _ => hop, fun _ => h0⟩

/-- A request that has its registers goes on to send, read or perform. -/
theorem running_congr {s t : State} (hs : Running s) (hop : t.reqOp = s.reqOp) (hstep : t.step = s.step)
    (hf : t.fault = s.fault) (hbusy : t.busy = s.busy) (hbound : t.bound = s.bound) (hp : t.phase ≠ .idle)
    (hsend : Sendable t.phase) : Running t := by
  obtain ⟨⟨-, hrest⟩, -, hsteps⟩ := hs
  rw [Running, InProgress, hop, hstep, hf, hbusy, hbound]
  exact ⟨⟨hp, hrest⟩, hsend, hsteps⟩

theorem readChar_control {s : State} (hs : Running s) : Resting (readChar s) ∨ Running (readChar s) := by
  by_cases hc : s.strMem.read s.strPtr.toNat = sentinel
  · rw [readChar_sentinel hc]
    exact .inl (complete_resting _)
  · rw [readChar_char hc]
    exact .inr (running_congr hs rfl rfl rfl rfl rfl (by simp)
      ⟨by rw [decodeOutByte_data]; rfl, dataOut_ne_sentinel hc⟩)

theorem finishOp_control {s : State} (hs : Running s) : Resting (finishOp s) ∨ Running (finishOp s) := by
  obtain ⟨-, hf, hbusy, hbound⟩ := hs.1
  by_cases h0 : s.reqOp = 0
  · by_cases h8 : s.step.toNat < 8
    · obtain ⟨hsends, hsucc⟩ := handshake_succ s.step h8
      rw [finishOp_init_next h0 h8]
      refine .inr (gotoStep_running hf hbusy hbound h0 hsends (by omega) fun hz => ?_)
      rw [hz] at hsucc
      exact absurd hsucc (by simp)
    · rw [finishOp_init_last h0 h8]
      exact .inl (complete_resting s)
  · by_cases h4 : s.reqOp = 4
    · rw [finishOp_string h4]
      exact .inr (running_congr hs rfl rfl rfl rfl rfl (by simp) trivial)
    · rw [finishOp_single h0 h4]
      exact .inl (complete_resting s)

/-! ### Acceptance -/

/-- Without a fault the PinSet is valid (R117). -/
theorem BindingInv.valid {c : Configuration} {run bound : Bool} {fault : Cause} {oe pins : PinWord}
    (h : BindingInv c run bound fault oe pins) (hf : fault = .none) : configCause c = .none := by
  by_contra hne
  exact hne (h.badConfig hne ▸ hf)

/-- A request's fault is the first one, so the PinSet is valid. -/
theorem BindingInv.fault {c : Configuration} {run bound : Bool} {fault : Cause} {oe pins : PinWord}
    (h : BindingInv c run bound fault oe pins) (hf : fault = .none) (fault' : Cause) :
    BindingInv c run bound fault' oe pins :=
  { h with badConfig := fun hne => absurd (h.valid hf) hne }

theorem enable_low_of_configured (ps : PinSet) (pins : PinWord) : pinLevel (pins &&& ~~~maskAll ps) ps.e = false := by
  simp [and_level, not_level, maskAll, or_level, pinBit_level]

/-- The bind step establishes what the binding is to establish, and XU starts with no word (R67, R103). -/
theorem bindTransport_parts {s : State} (hunit : UnitInv s.xuRun s.xuHave s.xuWrites s.xuOsr)
    (hbind : BindingInv s.cfg s.xuRun s.bound s.fault s.oe s.pins) (hf : s.fault = .none) :
    let t := bindTransport s
    UnitInv t.xuRun t.xuHave t.xuWrites t.xuOsr ∧ BindingInv t.cfg t.xuRun t.bound t.fault t.oe t.pins := by
  intro t
  cases hb : s.bound with
  | true => simpa [t, bindTransport_of_bound hb, hb] using ⟨hunit, hb ▸ hbind⟩
  | false =>
    have hoe : s.oe = 0 := by simpa [hb] using hbind.outputs
    cases hd : s.cfg.backend with
    | direct =>
      have hrun : s.xuRun = false := by simpa [hb] using hbind.run_bound
      refine ⟨by simpa [t, bindTransport_direct hb hd] using hunit, ?_⟩
      rw [show t = _ from bindTransport_direct hb hd]
      exact ⟨by simp [hrun, hd], hbind.badConfig, fun _ => hbind.valid hf, by simp [oeAfter, hoe],
        fun _ => enable_low_of_configured ..⟩
    | seq =>
      rw [show t = _ from bindTransport_seq hb hd]
      exact ⟨⟨by simp, by simp⟩, by simp [hd], hbind.badConfig, fun _ => hbind.valid hf, by simp [hoe],
        fun _ => enable_low_of_configured ..⟩

/-- A request other than INIT in progress, `step` 0 (R78). -/
theorem running_of_accepted {t : State} (hf : t.fault = .none) (hbusy : t.busy = true) (hbound : t.bound = true)
    (h0 : t.step = 0) (hop : t.reqOp ≠ 0) (hp : t.phase ≠ .idle) (hsend : Sendable t.phase) : Running t :=
  ⟨⟨hp, hf, hbusy, hbound⟩, hsend, by simp [h0], fun hne => absurd h0 hne, fun hz => absurd hz hop⟩

theorem Accepted.control {s t : State} (h : Accepted s t) (hs : Resting s) (hf : s.fault = .none) :
    Resting t ∨ Running t := by
  obtain ⟨hp, h0, -⟩ := hs
  cases h with
  | init => exact .inr (gotoStep_running (by simpa using hf) (by simp) (by simp) (by simp) (by decide) (by decide)
      (by decide))
  | clear | home =>
    refine ifBound_cases (fun t => Resting t ∨ Running t) (fun hb => ?_) ?_
    · exact .inr (running_of_accepted hf rfl hb h0 (by simp) (by simp) (by simp only [sendByte_phase, Sendable]; decide))
    · exact .inl (raiseFault_resting (by decide) hp h0 hf)
  | position row col =>
    refine ifBound_cases (fun t => Resting t ∨ Running t) (fun hb => ?_) ?_
    · unfold positionBody
      split
      · exact .inl (raiseFault_resting (by decide) hp h0 hf)
      · exact .inr (running_of_accepted hf rfl hb h0 (by simp) (by simp)
          ⟨by rw [decodeOutByte_setDdram]; rfl, setDdramOut_ne_sentinel _⟩)
    · exact .inl (raiseFault_resting (by decide) hp h0 hf)
  | writeString ptr =>
    refine ifBound_cases (fun t => Resting t ∨ Running t) (fun hb => ?_) ?_
    · exact .inr (running_of_accepted hf rfl hb h0 (by simp) (by simp) trivial)
    · exact .inl (raiseFault_resting (by decide) hp h0 hf)
  | reserved op hop => exact .inl (raiseFault_resting (by decide) hp h0 hf)

theorem Accepted.inv {s t : State} (h : Accepted s t) (hs : Inv s) (hp : s.phase = .idle) (hf : s.fault = .none) :
    Inv t := by
  have hrest : Resting s := hs.resting_or_running.resolve_right fun hr => hr.1.1 hp
  have hctl := h.control hrest hf
  rcases h.init_or_frame with rfl | ⟨_, _, _, _, _, _, _, rfl⟩
  · obtain ⟨hunit, hbind⟩ := bindTransport_parts (s := accept 0 s) hs.unit hs.binding hf
    exact inv_of_parts (by simpa using hs.memory) (by simpa using hs.queue) hunit hbind hctl
  · exact inv_of_parts hs.memory hs.queue hs.unit (hs.binding.fault hf _) hctl

/-! ### The step -/

theorem directNibble_enable_low (ps : PinSet) (rs : Rs) (v : Nibble) (d : Delay) (pins : PinWord) :
    pinLevel ((directNibble ps rs v d).foldl pinsAfter pins) ps.e = false := by
  simp [directNibble, nibbleEvents_enable_low]

theorem directByte_enable_low (ps : PinSet) (rs : Rs) (b : Byte) (d : Delay) (pins : PinWord) :
    pinLevel ((directByte ps rs b d).foldl pinsAfter pins) ps.e = false := by
  simp [directByte, nibbleEvents_enable_low]

theorem QueueInv.push {c : Configuration} {queue : List CmdWord} (h : QueueInv c queue) (hseq : c.backend = .seq)
    (hroom : queue.length < c.qdepth) (op : TransportOp) : QueueInv c (queue ++ [opWord op]) where
  bounded := by simpa using hroom
  words w hw := by
    rcases List.mem_append.1 hw with hw | hw
    · exact h.words w hw
    · exact ⟨op, List.mem_singleton.1 hw⟩
  direct hd := by simp [hseq] at hd

theorem performThen_inv {s : State} (hs : Inv s) (hrun : Running s) {es : List Event}
    (hoe : es.foldl oeAfter s.oe = s.oe) (he : pinLevel (es.foldl pinsAfter s.pins) s.cfg.pins.e = false) :
    Inv (performThen es s) := by
  have hrun' : Running (perform es s) := by simpa [Running, InProgress] using hrun
  refine inv_of_parts (by simpa using hs.memory) (by simpa using hs.queue) (by simpa using hs.unit) ?_
    (finishOp_control hrun')
  simpa [hoe] using { hs.binding with enable_low := fun _ => he }

theorem push_inv {s : State} (hs : Inv s) (hrun : Running s) (hseq : s.cfg.backend = .seq)
    (hroom : s.queue.length < s.cfg.qdepth) (op : TransportOp) : Inv (finishOp (push (opWord op) s)) :=
  inv_of_parts (by simpa using hs.memory) (by simpa using hs.queue.push hseq hroom op) (by simpa using hs.unit)
    (by simpa using hs.binding) (finishOp_control (s := push (opWord op) s) hrun)

theorem FsmStep.inv {s t : State} (h : FsmStep s t) (hs : Inv s) : Inv t := by
  have running (hp : s.phase ≠ .idle) : Running s := hs.resting_or_running.resolve_left fun hr => hp hr.1
  cases h with
  | wait => exact hs
  | request w ws t hf hp hb hr ha =>
    have hs' : Inv { s with requests := ws } :=
      inv_of_parts hs.memory hs.queue hs.unit hs.binding hs.resting_or_running
    exact ha.inv hs' hp hf
  | read hf hp =>
    exact inv_of_parts (by simpa using hs.memory) (by simpa using hs.queue) (by simpa using hs.unit)
      (by simpa using hs.binding) (readChar_control (running (by simp [hp])))
  | issueByte w rs b d hf hp | issueNibble w rs b d hf hp =>
    exact inv_of_parts hs.memory hs.queue hs.unit hs.binding
      (.inr (running_congr (running (by simp [hp])) rfl rfl rfl rfl rfl (by simp) trivial))
  | directNibble hf hp hd =>
    exact performThen_inv hs (running (by simp [hp])) (directNibble_oe ..) (directNibble_enable_low ..)
  | directByte hf hp hd =>
    exact performThen_inv hs (running (by simp [hp])) (directByte_oe ..) (directByte_enable_low ..)
  | pushNibble hf hp hd hq => exact push_inv hs (running (by simp [hp])) hd hq (.nibble _ _ _)
  | pushByte hf hp hd hq => exact push_inv hs (running (by simp [hp])) hd hq (.byte _ _ _)

theorem Inv.withSched {s : State} (hs : Inv s) (l : List Move) : Inv { s with sched := l } :=
  inv_of_parts hs.memory hs.queue hs.unit hs.binding hs.resting_or_running

/-- Settles O51: each agent's moves keep the five parts, and the host's touch at most the string memory. -/
theorem everyStepKeepsTheInvariant : Obligations.EveryStepKeepsTheInvariant := by
  intro s t hs h
  obtain ⟨rest, hcases⟩ := step_cases h
  have hu := hs.withSched rest
  rcases hcases with ⟨-, -, h | h⟩ | ⟨-, h⟩ | ⟨-, h⟩ | ⟨-, h⟩ | ⟨-, rfl⟩ | ⟨a, b, -, rfl⟩ | ⟨w, -, rfl⟩
  · exact h.inv hu
  · exact h.inv hu
  · exact h.inv hu
  · exact h.inv hu
  · exact h.inv hu
  · exact applyReset_inv hs.memory
  · exact inv_of_parts (Memory.write_wf a.isLt hu.memory) hu.queue hu.unit hu.binding hu.resting_or_running
  · exact inv_of_parts hu.memory hu.queue hu.unit hu.binding hu.resting_or_running

end Sys2Proof.Machine
end

section
/-!
PROOFS. The pins (R12, R58, R87, R106) and the latched sequence (R23, R88, R89, R92).
-/
namespace Sys2Proof.Machine

/-! ### Masks and values -/

theorem maskDataRs_level (ps : PinSet) (q : PinNum) :
    pinLevel (maskDataRs ps) q = true ↔ q ∈ [ps.rs, ps.d0, ps.d1, ps.d2, ps.d3] := by
  simp [maskDataRs, or_level, pinBit_level, @eq_comm _ q, or_assoc]

/-- Settles O30: the level of a pin in a union of pin bits. -/
theorem masksAreThePinsOfThePinSet : Obligations.MasksAreThePinsOfThePinSet := by
  intro p q
  refine ⟨maskDataRs_level p q, ?_⟩
  rw [maskAll, or_level, Bool.or_eq_true, maskDataRs_level, pinBit_level, decide_eq_true_eq, eq_comm, or_comm,
    List.mem_cons (b := p.e)]

theorem pinValue_level (ps : PinSet) (rs : Rs) (v : Nibble) (q : PinNum) :
    pinLevel (pinValue ps rs v) q = ((rs.getLsbD 0 && decide (ps.rs = q)) || (v.getLsbD 3 && decide (ps.d3 = q)) ||
      (v.getLsbD 2 && decide (ps.d2 = q)) || (v.getLsbD 1 && decide (ps.d1 = q)) ||
      (v.getLsbD 0 && decide (ps.d0 = q))) := by
  simp only [pinValue, or_level, bitOnPin_level]

theorem pinsAfter_writeMasked (mask value pins : PinWord) (q : PinNum) :
    pinLevel (pinsAfter pins (.writeMasked mask value)) q =
      if pinLevel mask q then pinLevel value q else pinLevel pins q := by
  cases h : pinLevel mask q <;> simp [pinsAfter, or_level, and_level, not_level, h]

theorem pinsAfter_setLevel (p q : PinNum) (b : Bool) (pins : PinWord) :
    pinLevel (pinsAfter pins (.setLevel p b)) q = if p = q then b else pinLevel pins q := by
  by_cases h : p = q <;> simp [pinsAfter, or_level, and_level, not_level, bitOnPin_level, pinBit_level, h]

theorem setLevel_same (p : PinNum) (b : Bool) (pins : PinWord) : pinLevel (pinsAfter pins (.setLevel p b)) p = b := by
  rw [pinsAfter_setLevel, if_pos rfl]

/-- The register select and the four data lines stand at a nibble. -/
def Stands (ps : PinSet) (pins : PinWord) (rs : Rs) (v : Nibble) : Prop :=
  pinLevel pins ps.rs = rs.getLsbD 0 ∧ pinLevel pins ps.d0 = v.getLsbD 0 ∧ pinLevel pins ps.d1 = v.getLsbD 1 ∧
    pinLevel pins ps.d2 = v.getLsbD 2 ∧ pinLevel pins ps.d3 = v.getLsbD 3

theorem writeMasked_stands {ps : PinSet} (h : PinsDistinct ps) (pins : PinWord) (rs : Rs) (v : Nibble) :
    Stands ps (pinsAfter pins (.writeMasked (maskDataRs ps) (pinValue ps rs v))) rs v := by
  obtain ⟨-, -, -, -, -, rs0, rs1, rs2, rs3, d01, d02, d03, d12, d13, d23⟩ := h
  refine ⟨?_, ?_, ?_, ?_, ?_⟩ <;>
  · rw [pinsAfter_writeMasked, if_pos ((maskDataRs_level ..).2 (by simp)), pinValue_level]
    simp [*, Ne.symm]

theorem writeMasked_outside (ps : PinSet) (pins value : PinWord) {q : PinNum}
    (hq : q ∉ [ps.rs, ps.d0, ps.d1, ps.d2, ps.d3]) :
    pinLevel (pinsAfter pins (.writeMasked (maskDataRs ps) value)) q = pinLevel pins q := by
  rw [pinsAfter_writeMasked, if_neg fun h => hq ((maskDataRs_level ps q).1 h)]

/-- Settles O31: within the mask the value's levels, outside it the old ones. -/
theorem maskedWriteSetsFivePins : Obligations.MaskedWriteSetsFivePins := by
  intro p pins rs v hp after
  obtain ⟨hrs, h0, h1, h2, h3⟩ := writeMasked_stands hp pins rs v
  exact ⟨hrs, h0, h1, h2, h3, fun q hq => writeMasked_outside p pins _ hq⟩

/-- Settles O32: every pin is the lowest data line and an offset, so both values are five bits shifted by that line. -/
theorem unitWritesTheSamePinValue : Obligations.UnitWritesTheSamePinValue := by
  intro p rs v ⟨h1, h2, h3, hrs⟩
  have shifted {q : PinNum} {j : Nat} (h : q.toNat = p.d0.toNat + j) (b : Bool) :
      bitOnPin b q = (if b then 1#32 <<< j else 0#32) <<< p.d0.toNat := by
    cases b
    · simp [bitOnPin]
    · simp [bitOnPin, pinBit, h, ← BitVec.shiftLeft_add, Nat.add_comm]
  rw [consecutiveValue, pinValue, shifted h1, shifted h2, shifted h3, shifted hrs, shifted (Nat.add_zero _).symm,
    ← BitVec.shiftLeft_or_distrib, ← BitVec.shiftLeft_or_distrib, ← BitVec.shiftLeft_or_distrib,
    ← BitVec.shiftLeft_or_distrib]
  congr 1
  revert rs v
  decide

/-! ### The latched sequence -/

theorem dataNibble_of_stands {ps : PinSet} {pins : PinWord} {rs : Rs} {v : Nibble} (h : Stands ps pins rs v) :
    dataNibble ps pins = v := by
  obtain ⟨-, h0, h1, h2, h3⟩ := h
  rw [dataNibble, h0, h1, h2, h3]
  clear h0 h1 h2 h3
  revert v
  decide

theorem ofBool_of_stands {ps : PinSet} {pins : PinWord} {rs : Rs} {v : Nibble} (h : Stands ps pins rs v) :
    BitVec.ofBool (pinLevel pins ps.rs) = rs := by
  rw [h.1]
  clear h
  revert rs
  decide

/-- The enable line is none of the five pins. -/
theorem stands_setLevel {ps : PinSet} (h : PinsDistinct ps) {pins : PinWord} {rs : Rs} {v : Nibble} (b : Bool) :
    Stands ps (pinsAfter pins (.setLevel ps.e b)) rs v ↔ Stands ps pins rs v := by
  obtain ⟨ers, e0, e1, e2, e3, -⟩ := h
  simp [Stands, pinsAfter_setLevel, ers, e0, e1, e2, e3]

@[simp] theorem pinsAfter_wait (pins : PinWord) (n : Nat) : pinsAfter pins (.wait n) = pins := rfl

theorem nibbleEvents_stands {ps : PinSet} (h : PinsDistinct ps) (pins : PinWord) (rs : Rs) (v : Nibble) :
    Stands ps ((nibbleEvents ps (pinValue ps rs v)).foldl pinsAfter pins) rs v := by
  simp only [nibbleEvents, List.foldl, pinsAfter_wait, stands_setLevel h]
  exact writeMasked_stands h pins rs v

/-- A nibble write is latched where the enable line falls, and settles until the next event that is no wait. -/
theorem latchedSeq_nibbleEvents {ps : PinSet} (h : PinsDistinct ps) {pins : PinWord} (hlow : pinLevel pins ps.e = false)
    (rs : Rs) (v : Nibble) (rest : List Event) :
    latchedSeq ps pins (nibbleEvents ps (pinValue ps rs v) ++ rest) =
      { rs := rs, v := v, settle := 1 + settleTime rest } ::
        latchedSeq ps ((nibbleEvents ps (pinValue ps rs v)).foldl pinsAfter pins) rest := by
  have hstands := nibbleEvents_stands h pins rs v
  have hwritten : pinLevel (pinsAfter pins (.writeMasked (maskDataRs ps) (pinValue ps rs v))) ps.e = false := by
    obtain ⟨ers, e0, e1, e2, e3, -⟩ := h
    rw [writeMasked_outside ps pins _ (by simp [*]), hlow]
  simp only [nibbleEvents, List.foldl, pinsAfter_wait] at hstands
  simp [nibbleEvents, latchedSeq, settleTime, hlow, hwritten, setLevel_same, dataNibble_of_stands hstands,
    ofBool_of_stands hstands]

theorem latchedSeq_settle (ps : PinSet) (pins : PinWord) (d : Delay) : latchedSeq ps pins (settle d) = [] := by
  unfold settle
  split
  · rfl
  · simp [latchedSeq]

theorem settleTime_settle (d : Delay) : settleTime (settle d) = d.toNat := by
  unfold settle
  split
  · simp [settleTime, *]
  · simp [settleTime]

theorem waitTotal_append (es es' : List Event) : waitTotal (es ++ es') = waitTotal es + waitTotal es' := by
  induction es with
  | nil => simp [waitTotal]
  | cons e es ih => cases e <;> simp [waitTotal, ih, Nat.add_assoc]

theorem waitTotal_settle (d : Delay) : waitTotal (settle d) = d.toNat := by
  unfold settle
  split
  · simp [waitTotal, *]
  · simp [waitTotal]

theorem waitTotal_directNibble (ps : PinSet) (rs : Rs) (v : Nibble) (d : Delay) :
    waitTotal (directNibble ps rs v d) = 3 + d.toNat := by
  rw [directNibble, waitTotal_append, waitTotal_settle]
  rfl

theorem waitTotal_directByte (ps : PinSet) (rs : Rs) (b : Byte) (d : Delay) :
    waitTotal (directByte ps rs b d) = 6 + d.toNat := by
  rw [directByte, waitTotal_append, waitTotal_append, waitTotal_settle]
  rfl

/-- Settles O33: the falling edge after the write is the only one, and the waits are three of 1 and the delay. -/
theorem nibbleWriteLatchesOnce : Obligations.NibbleWriteLatchesOnce := by
  intro p pins rs v d hp hlow
  refine ⟨?_, waitTotal_directNibble p rs v d⟩
  rw [directNibble, latchedSeq_nibbleEvents hp hlow, latchedSeq_settle, settleTime_settle]

/-- Settles O34: the enable line is low again after the first nibble. -/
theorem byteWriteLatchesHighThenLow : Obligations.ByteWriteLatchesHighThenLow := by
  intro p pins rs b d hp hlow
  refine ⟨?_, waitTotal_directByte p rs b d⟩
  rw [directByte, List.append_assoc, latchedSeq_nibbleEvents hp hlow,
    latchedSeq_nibbleEvents hp (nibbleEvents_enable_low ..), latchedSeq_settle, settleTime_settle]
  rfl

/-- Settles O49: the waits of each operation, summed. -/
theorem minimumDurations : Obligations.MinimumDurations := by
  intro p b cs
  refine ⟨waitTotal_directByte .., waitTotal_directByte .., waitTotal_directByte .., ?_, ?_⟩
  · induction cs with
    | nil => rfl
    | cons c cs ih =>
      rw [List.flatMap_cons, waitTotal_append, waitTotal_directByte, ih, List.length_cons]
      simp
      omega
  · simp [directEvents, waitTotal_append, waitTotal_directNibble, waitTotal_directByte]

end Sys2Proof.Machine
end

section
/-!
PROOFS. The agreement of `tlog`, `qlog`, the queue and the pin trace (R22, R40, R112): it holds at reset and every step
keeps it (O50, O52), and at quiescence it is R112 (O53).
-/
namespace Sys2Proof.Machine

/-! ### The words XU replays -/

theorem segmentEvents_write {ps : PinSet} {n : Nat} {w : CmdWord} (h : w.getLsbD 0 = true) :
    segmentEvents ps (n + 1) w = nibbleEvents ps (consecutiveValue ps (w.extractLsb' 5 1) (w.extractLsb' 1 4)) ++
      segmentEvents ps n (w >>> 6) := if_pos h

theorem segmentEvents_delay {ps : PinSet} {n : Nat} {w : CmdWord} (h : w.getLsbD 0 = false) :
    segmentEvents ps (n + 1) w = settle (w.extractLsb' 1 19) := if_neg (by simp only [h]; decide)

theorem extract_ushiftRight (w : CmdWord) (j k n : Nat) : (w >>> j).extractLsb' k n = w.extractLsb' (j + k) n := by
  ext i hi
  simp only [BitVec.getElem_extractLsb', BitVec.getLsbD_ushiftRight, Nat.add_assoc]

theorem pinsConsecutive_iff (ps : PinSet) : pinsConsecutive ps = true ↔ PinsConsecutive ps := by
  simp [pinsConsecutive, PinsConsecutive, and_assoc]

/-- With consecutive pins XU replays a word of the encoder as DIRECT performs its operation (R106, R112). -/
theorem segmentEvents_opWord {ps : PinSet} (h : PinsConsecutive ps) (op : TransportOp) :
    segmentEvents ps 3 (opWord op) = directEvents ps op := by
  have hval := fun rs v => unitWritesTheSamePinValue ps rs v h
  cases op with
  | nibble rs v d =>
    obtain ⟨⟨-, hd, h6, hrs, hv, h0⟩, -⟩ := encoderBuildsTheTableLayouts rs 0 v d
    rw [opWord, segmentEvents_write h0, segmentEvents_delay (by simpa using h6), extract_ushiftRight, hrs, hv, hd, hval]
    rfl
  | byte rs b d =>
    obtain ⟨-, hd, h12, hlrs, hl, h6, hhrs, hh, h0⟩ := encoderBuildsTheTableLayouts rs b 0 d
    rw [opWord, segmentEvents_write h0, segmentEvents_write (by simpa using h6), segmentEvents_delay (by simpa using h12),
      extract_ushiftRight, extract_ushiftRight, extract_ushiftRight, extract_ushiftRight, hhrs, hh, hlrs, hl, hd, hval,
      hval, directEvents, directByte, List.append_assoc]
    rfl

/-! ### The parts -/

/-- The FSM holds a transport operation in the latches (R75). -/
def AtOp (s : State) : Prop := s.phase = .opNibble ∨ s.phase = .opByte

theorem finishedOps_of_atOp {s : State} (h : AtOp s) : finishedOps s = s.tlog.dropLast := by
  rcases h with h | h <;> simp [finishedOps, h]

theorem finishedOps_of_not_atOp {s : State} (h : ¬ AtOp s) : finishedOps s = s.tlog := by
  unfold finishedOps
  split
  · exact absurd (.inl ‹_›) h
  · exact absurd (.inr ‹_›) h
  all_goals rfl

/-- The trace, the log of pushes and the queue agree with the operations finished: the clauses of `TraceInv` on them. -/
structure LogInv (c : Configuration) (bind : List Event) (ops : List TransportOp) (ptrace backlog : List Event)
    (qlog queue : List CmdWord) : Prop where
  direct : c.backend = .direct → ptrace = bind ++ ops.flatMap (directEvents c.pins)
  pushes : c.backend = .seq → qlog = ops.map opWord
  replay : c.backend = .seq → ∃ begun waiting, ops = begun ++ waiting ∧ queue = waiting.map opWord ∧
    ptrace ++ backlog = bind ++ begun.flatMap (directEvents c.pins)

/-- `LogInv` of a state's own registers. -/
def StateLogInv (s : State) : Prop :=
  LogInv s.cfg (bindEvents s) (finishedOps s) s.ptrace (unitBacklog s) s.qlog s.queue

theorem TraceInv.logs {s : State} (h : TraceInv s) : StateLogInv s := ⟨h.direct, h.pushes, h.replay⟩

theorem traceInv_of_not_atOp {s : State} (hop : ¬ AtOp s) (hunbound : s.bound = false → s.tlog = [])
    (hlogs : StateLogInv s) : TraceInv s where
  nibble_issued := fun h => absurd (.inl h) hop
  byte_issued := fun h => absurd (.inr h) hop
  unbound := hunbound
  direct := hlogs.direct
  pushes := hlogs.pushes
  replay := hlogs.replay

/-- A step that moves nothing but the FSM's registers, between places where the latches hold no operation. -/
theorem TraceInv.fsmMoved {s t : State} (hs : TraceInv s) (hsop : ¬ AtOp s) (htop : ¬ AtOp t) (hcfg : t.cfg = s.cfg)
    (hbound : t.bound = s.bound) (htlog : t.tlog = s.tlog) (hptrace : t.ptrace = s.ptrace)
    (hback : unitBacklog t = unitBacklog s) (hqlog : t.qlog = s.qlog) (hqueue : t.queue = s.queue) : TraceInv t := by
  refine traceInv_of_not_atOp htop (by rw [hbound, htlog]; exact hs.unbound) ?_
  have h := hs.logs
  unfold StateLogInv bindEvents at h ⊢
  rw [finishedOps_of_not_atOp hsop] at h
  rw [finishedOps_of_not_atOp htop, hcfg, hbound, htlog, hptrace, hback, hqlog, hqueue]
  exact h

/-! ### XU -/

/-- XU replays part of what it has still to do. -/
theorem LogInv.replayed {c : Configuration} {bind ptrace backlog ptrace' backlog' : List Event} {ops : List TransportOp}
    {qlog queue : List CmdWord} (h : LogInv c bind ops ptrace backlog qlog queue) (hseq : c.backend = .seq)
    (hsame : ptrace' ++ backlog' = ptrace ++ backlog) : LogInv c bind ops ptrace' backlog' qlog queue where
  direct hd := by simp [hseq] at hd
  pushes := h.pushes
  replay hseq := hsame ▸ h.replay hseq

/-- XU takes the word of the first operation it has not begun. -/
theorem LogInv.loaded {c : Configuration} {bind ptrace : List Event} {ops : List TransportOp} {qlog q : List CmdWord}
    {w : CmdWord} (h : LogInv c bind ops ptrace [] qlog (w :: q)) (hseq : c.backend = .seq)
    (hpins : PinsConsecutive c.pins) : LogInv c bind ops ptrace (segmentEvents c.pins 3 w) qlog q where
  direct hd := by simp [hseq] at hd
  pushes := h.pushes
  replay _ := by
    obtain ⟨begun, waiting, hops, hqueue, hptrace⟩ := h.replay hseq
    cases waiting with
    | nil => simp at hqueue
    | cons op waiting =>
      obtain ⟨rfl, rfl⟩ : w = opWord op ∧ q = waiting.map opWord := by simpa using hqueue
      refine ⟨begun ++ [op], waiting, by simp [hops], rfl, ?_⟩
      rw [List.append_nil] at hptrace
      rw [hptrace, segmentEvents_opWord hpins]
      simp

theorem Inv.seq_of_running {s : State} (h : Inv s) (hr : s.xuRun = true) :
    s.cfg.backend = .seq ∧ PinsConsecutive s.cfg.pins := by
  obtain ⟨hbound, hseq⟩ := h.run_bound.1 hr
  have hvalid := h.bound_valid hbound
  refine ⟨hseq, (pinsConsecutive_iff _).1 ?_⟩
  by_contra hne
  simp [configCause, hseq, hne] at hvalid
  split at hvalid <;> cases hvalid

theorem unitBacklog_of_holds {s : State} (h : s.xuHave = true) :
    unitBacklog s = segmentEvents s.cfg.pins (3 - s.xuWrites) s.xuOsr := if_pos h

theorem unitBacklog_of_empty {s : State} (h : s.xuHave = false) : unitBacklog s = [] :=
  if_neg (by simp [h])

/-- XU touches none of what says which operations are finished. -/
theorem UnitFrame.logs_iff {s t : State} (h : UnitFrame s t) : StateLogInv t ↔
    LogInv s.cfg (bindEvents s) (finishedOps s) t.ptrace (unitBacklog t) s.qlog t.queue := by
  obtain ⟨_, _, _, _, _, _, rfl⟩ := h
  exact Iff.rfl

theorem UnitStep.logs {s t : State} (h : UnitStep s t) (hs : Inv s) (hlogs : StateLogInv s) : StateLogInv t := by
  refine h.frame.logs_iff.2 ?_
  unfold StateLogInv at hlogs
  cases h with
  | wait => exact hlogs
  | load w q hr hh hq =>
    obtain ⟨hseq, hpins⟩ := hs.seq_of_running hr
    rw [hq, unitBacklog_of_empty hh] at hlogs
    simpa [hq, unitBacklog_of_holds (s := xuLoad w s) rfl] using hlogs.loaded hseq hpins
  | write hr hh hm hn =>
    have hleft : 3 - s.xuWrites = 3 - (s.xuWrites + 1) + 1 := by omega
    rw [xuWrite_queue]
    refine hlogs.replayed (hs.seq_of_running hr).1 ?_
    rw [unitBacklog_of_holds hh, hleft, segmentEvents_write hm, unitBacklog_of_holds (by simpa using hh)]
    simp
  | delay hr hh hm =>
    have hleft : 3 - s.xuWrites = 2 - s.xuWrites + 1 := by
      have := (hs.osr hh).1
      omega
    rw [xuDelay_queue]
    refine hlogs.replayed (hs.seq_of_running hr).1 ?_
    rw [unitBacklog_of_holds hh, hleft, segmentEvents_delay hm, unitBacklog_of_empty (by simp)]
    simp

theorem UnitFrame.traceInv {s t : State} (h : UnitFrame s t) (hs : TraceInv s) (hlogs : StateLogInv t) : TraceInv t := by
  obtain ⟨_, _, _, _, _, _, rfl⟩ := h
  exact ⟨hs.nibble_issued, hs.byte_issued, hs.unbound, hlogs.direct, hlogs.pushes, hlogs.replay⟩

theorem UnitSteps.traceInv {s t : State} (h : UnitSteps s t) (hinv : Inv s) (hs : TraceInv s) : TraceInv t := by
  induction h with
  | refl => exact hs
  | tail h h' ih => exact h'.frame.traceInv ih (h'.logs (h.inv hinv) ih.logs)

/-! ### The FSM -/

theorem not_atOp_of_phase {s : State} {p : Phase} (h : s.phase = p) (hn : p ≠ .opNibble) (hb : p ≠ .opByte) : ¬ AtOp s := by
  rintro (hp | hp)
  · exact hn (h.symm.trans hp)
  · exact hb (h.symm.trans hp)

theorem lowNibble_issued (b : Byte) (v : Nibble) : lowNibble ((b &&& 0xF0#8) ||| v.setWidth 8) = v := by
  revert b v
  decide

theorem readChar_not_atOp (s : State) : ¬ AtOp (readChar s) := by
  by_cases hc : s.strMem.read s.strPtr.toNat = sentinel
  · exact not_atOp_of_phase (by rw [readChar_sentinel hc, complete_phase]) (by simp) (by simp)
  · exact not_atOp_of_phase (by rw [readChar_char hc]) (by simp) (by simp)

theorem finishOp_not_atOp (s : State) : ¬ AtOp (finishOp s) := by
  by_cases h0 : s.reqOp = 0
  · by_cases h8 : s.step.toNat < 8
    · rw [finishOp_init_next h0 h8]
      rcases handshake_cases (s.step + 1) with h | ⟨w, h⟩ | ⟨w, h⟩ <;>
        exact not_atOp_of_phase h (by simp) (by simp)
    · exact not_atOp_of_phase (by rw [finishOp_init_last h0 h8, complete_phase]) (by simp) (by simp)
  · by_cases h4 : s.reqOp = 4
    · exact not_atOp_of_phase (by rw [finishOp_string h4]) (by simp) (by simp)
    · exact not_atOp_of_phase (by rw [finishOp_single h0 h4, complete_phase]) (by simp) (by simp)

/-- The operation in the latches is the last one issued, all before it are finished (R75, R76). -/
theorem TraceInv.tlog_of_opNibble {s : State} (hs : TraceInv s) (hp : s.phase = .opNibble) :
    s.tlog = finishedOps s ++ [.nibble s.tRs (lowNibble s.tVal) s.tDly] := by
  obtain ⟨before, ht⟩ := hs.nibble_issued hp
  rw [finishedOps_of_atOp (.inl hp), ht, List.dropLast_concat]

theorem TraceInv.tlog_of_opByte {s : State} (hs : TraceInv s) (hp : s.phase = .opByte) :
    s.tlog = finishedOps s ++ [.byte s.tRs s.tVal s.tDly] := by
  obtain ⟨before, ht⟩ := hs.byte_issued hp
  rw [finishedOps_of_atOp (.inr hp), ht, List.dropLast_concat]

/-- The operation in the latches has been performed in DIRECT (R85, R90). -/
theorem LogInv.performed {c : Configuration} {bind ptrace backlog : List Event} {ops : List TransportOp}
    {qlog queue : List CmdWord} (h : LogInv c bind ops ptrace backlog qlog queue) (hd : c.backend = .direct)
    (op : TransportOp) :
    LogInv c bind (ops ++ [op]) (ptrace ++ directEvents c.pins op) backlog qlog queue where
  direct _ := by simp [h.direct hd]
  pushes hseq := by simp [hd] at hseq
  replay hseq := by simp [hd] at hseq

/-- The word of the operation in the latches has been pushed in SEQ (R97, R98). -/
theorem LogInv.pushed {c : Configuration} {bind ptrace backlog : List Event} {ops : List TransportOp}
    {qlog queue : List CmdWord} (h : LogInv c bind ops ptrace backlog qlog queue) (hseq : c.backend = .seq)
    (op : TransportOp) :
    LogInv c bind (ops ++ [op]) ptrace backlog (qlog ++ [opWord op]) (queue ++ [opWord op]) where
  direct hd := by simp [hseq] at hd
  pushes _ := by simp [h.pushes hseq]
  replay _ := by
    obtain ⟨begun, waiting, hops, hqueue, hptrace⟩ := h.replay hseq
    exact ⟨begun, waiting ++ [op], by simp [hops], by simp [hqueue], hptrace⟩

/-- Something was issued, so the transport is bound (R120). -/
theorem TraceInv.bound_of_issued {s : State} {op : TransportOp} (hs : TraceInv s)
    (ht : s.tlog = finishedOps s ++ [op]) : s.bound = true := by
  by_contra hb
  simp [hs.unbound (by simpa using hb)] at ht

theorem TraceInv.performed {s : State} {op : TransportOp} (hs : TraceInv s) (ht : s.tlog = finishedOps s ++ [op])
    (hd : s.cfg.backend = .direct) : TraceInv (performThen (directEvents s.cfg.pins op) s) := by
  have hop : ¬ AtOp (performThen (directEvents s.cfg.pins op) s) := finishOp_not_atOp _
  refine traceInv_of_not_atOp hop (by simp [hs.bound_of_issued ht]) ?_
  have hlogs := hs.logs.performed hd op
  unfold StateLogInv
  rw [finishedOps_of_not_atOp hop]
  simpa [bindEvents, unitBacklog, ← ht] using hlogs

theorem TraceInv.pushed {s : State} {op : TransportOp} (hs : TraceInv s) (ht : s.tlog = finishedOps s ++ [op])
    (hseq : s.cfg.backend = .seq) : TraceInv (finishOp (push (opWord op) s)) := by
  have hop := finishOp_not_atOp (push (opWord op) s)
  refine traceInv_of_not_atOp hop (by simp [hs.bound_of_issued ht]) ?_
  have hlogs := hs.logs.pushed hseq op
  unfold StateLogInv
  rw [finishedOps_of_not_atOp hop]
  simpa [bindEvents, unitBacklog, ← ht] using hlogs

/-- An issued operation is in the latches, and not yet finished (R75, R76). -/
theorem StateLogInv.issued {s : State} (h : StateLogInv s) (hop : ¬ AtOp s) (op : TransportOp) :
    LogInv s.cfg (bindEvents s) (s.tlog ++ [op]).dropLast s.ptrace (unitBacklog s) s.qlog s.queue := by
  unfold StateLogInv at h
  rwa [List.dropLast_concat, ← finishedOps_of_not_atOp hop]

theorem TraceInv.issueByte {s : State} (hs : TraceInv s) (hop : ¬ AtOp s) (hbound : s.bound = true) (rs : Rs) (b : Byte)
    (d : Delay) : TraceInv (issueByte rs b d s) := by
  obtain ⟨hdirect, hpushes, hreplay⟩ := hs.logs.issued hop (.byte rs b d)
  exact ⟨fun h => by simp at h, fun _ => ⟨s.tlog, rfl⟩, by simp [hbound], hdirect, hpushes, hreplay⟩

theorem TraceInv.issueNibble {s : State} (hs : TraceInv s) (hop : ¬ AtOp s) (hbound : s.bound = true) (rs : Rs)
    (v : Nibble) (d : Delay) : TraceInv (issueNibble rs v d s) := by
  obtain ⟨hdirect, hpushes, hreplay⟩ := hs.logs.issued hop (.nibble rs v d)
  refine ⟨fun _ => ⟨s.tlog, ?_⟩, fun h => by simp at h, by simp [hbound], hdirect, hpushes, hreplay⟩
  simp [Machine.issueNibble, lowNibble_issued]

/-! ### The binding -/

theorem LogInv.initial (c : Configuration) (bind : List Event) : LogInv c bind [] bind [] [] [] where
  direct _ := by simp
  pushes _ := rfl
  replay _ := ⟨[], [], rfl, rfl, by simp⟩

/-- The binding's event comes before every operation's. -/
theorem LogInv.bind {c : Configuration} {ptrace : List Event} {qlog queue : List CmdWord}
    (h : LogInv c [] [] ptrace [] qlog queue) (e : Event) : LogInv c [e] [] (ptrace ++ [e]) [] qlog queue where
  direct hd := by simp [h.direct hd]
  pushes := h.pushes
  replay hseq := by
    obtain ⟨begun, waiting, hops, hqueue, hptrace⟩ := h.replay hseq
    obtain ⟨rfl, rfl⟩ := List.append_eq_nil_iff.1 hops.symm
    have hnil : ptrace = [] := by simpa using hptrace
    exact ⟨[], [], rfl, hqueue, by simp [hnil]⟩

theorem bindTransport_ptrace_unbound {s : State} (h : s.bound = false) :
    (bindTransport s).ptrace = s.ptrace ++ [.configureOutputs (maskAll s.cfg.pins)] := by
  cases hb : s.cfg.backend with
  | direct => simp [bindTransport_direct h hb]
  | seq => simp [bindTransport_seq h hb]

theorem bindTransport_xuHave_unbound {s : State} (h : s.bound = false) (hh : s.xuHave = false) :
    (bindTransport s).xuHave = false := by
  cases hb : s.cfg.backend with
  | direct => simp [bindTransport_direct h hb, hh]
  | seq => simp [bindTransport_seq h hb]

theorem Inv.empty_of_unbound {s : State} (hs : Inv s) (hb : s.bound = false) : s.xuHave = false := by
  by_contra hh
  have hrun := hs.run_bound.1 (hs.have_run (by simpa using hh))
  simp [hb] at hrun

/-- INIT binds before the first operation (R67, R103, R120). -/
theorem TraceInv.binds {s : State} (hs : TraceInv s) (hinv : Inv s) (hop : ¬ AtOp s) :
    TraceInv (gotoStep 1 (bindTransport (accept 0 s))) := by
  have hop' : ¬ AtOp (gotoStep 1 (bindTransport (accept 0 s))) :=
    not_atOp_of_phase (gotoStep_phase ..) (by decide) (by decide)
  cases hb : s.bound with
  | true =>
    rw [bindTransport_of_bound (s := accept 0 s) hb] at hop' ⊢
    exact hs.fsmMoved hop hop' rfl rfl rfl rfl rfl rfl rfl
  | false =>
    have hh := hinv.empty_of_unbound hb
    have hback : unitBacklog (gotoStep 1 (bindTransport (accept 0 s))) = [] :=
      unitBacklog_of_empty (by simpa using bindTransport_xuHave_unbound (s := accept 0 s) hb hh)
    have hlogs := hs.logs
    unfold StateLogInv at hlogs
    rw [finishedOps_of_not_atOp hop, hs.unbound hb, unitBacklog_of_empty hh, bindEvents, hb] at hlogs
    refine traceInv_of_not_atOp hop' (by simp) ?_
    unfold StateLogInv
    rw [finishedOps_of_not_atOp hop', hback, gotoStep_ptrace, bindTransport_ptrace_unbound (s := accept 0 s) hb]
    simpa [bindEvents, hs.unbound hb] using LogInv.bind hlogs (.configureOutputs (maskAll s.cfg.pins))

theorem Accepted.not_atOp {s t : State} (h : Accepted s t) (hp : s.phase = .idle) : ¬ AtOp t := by
  have faulted {c : Cause} {u : State} (hu : u.phase = .idle) : ¬ AtOp (raiseFault c u) :=
    not_atOp_of_phase ((raiseFault_phase ..).trans hu) (by simp) (by simp)
  cases h with
  | init => exact not_atOp_of_phase (gotoStep_phase ..) (by decide) (by decide)
  | clear | home =>
    exact ifBound_cases (¬ AtOp ·) (fun _ => not_atOp_of_phase (sendByte_phase ..) (by simp) (by simp)) (faulted hp)
  | position row col =>
    refine ifBound_cases (¬ AtOp ·) (fun _ => positionBody_cases (¬ AtOp ·) (faulted hp) fun w => ?_) (faulted hp)
    exact not_atOp_of_phase (sendByte_phase ..) (by simp) (by simp)
  | writeString ptr =>
    exact ifBound_cases (¬ AtOp ·) (fun _ => not_atOp_of_phase (p := .fetchChar) rfl (by simp) (by simp)) (faulted hp)
  | reserved op hop => exact faulted hp

theorem Accepted.traceInv {s t : State} (h : Accepted s t) (hs : TraceInv s) (hinv : Inv s) (hp : s.phase = .idle) :
    TraceInv t := by
  have hop : ¬ AtOp s := not_atOp_of_phase hp (by simp) (by simp)
  have hop' := h.not_atOp hp
  rcases h.init_or_frame with rfl | ⟨_, _, _, _, _, _, _, rfl⟩
  · exact hs.binds hinv hop
  · exact hs.fsmMoved hop hop' rfl rfl rfl rfl rfl rfl rfl

/-- The host's side and the moves to come stand in no clause. -/
theorem traceInv_withHost {s : State} (hs : TraceInv s) (requests : List ReqWord) (mem : Memory) (sched : List Move) :
    TraceInv { s with requests := requests, strMem := mem, sched := sched } :=
  ⟨hs.nibble_issued, hs.byte_issued, hs.unbound, hs.direct, hs.pushes, hs.replay⟩

theorem applyReset_traceInv (s : State) : TraceInv (applyReset s) :=
  traceInv_of_not_atOp (not_atOp_of_phase (p := .idle) rfl (by simp) (by simp)) (fun _ => rfl) (LogInv.initial s.cfg [])

/-! ### The step -/

theorem FsmStep.traceInv {s t : State} (h : FsmStep s t) (hinv : Inv s) (hs : TraceInv s) : TraceInv t := by
  have hbound (hp : s.phase ≠ .idle) : s.bound = true := (hinv.inProgress hp).2.2
  cases h with
  | wait => exact hs
  | request w ws t hf hp hb hr ha =>
    have hinv' : Inv { s with requests := ws } :=
      inv_of_parts hinv.memory hinv.queue hinv.unit hinv.binding hinv.resting_or_running
    exact ha.traceInv (traceInv_withHost hs ws s.strMem s.sched) hinv' hp
  | read hf hp =>
    exact hs.fsmMoved (not_atOp_of_phase hp (by simp) (by simp)) (readChar_not_atOp s) (by simp) (by simp) (by simp)
      (by simp) (by simp [unitBacklog]) (by simp) (by simp)
  | issueByte w rs b d hf hp =>
    exact hs.issueByte (not_atOp_of_phase hp (by simp) (by simp)) (hbound (by simp [hp])) rs b d
  | issueNibble w rs v d hf hp =>
    exact hs.issueNibble (not_atOp_of_phase hp (by simp) (by simp)) (hbound (by simp [hp])) rs v d
  | directNibble hf hp hd => exact (hs.performed (hs.tlog_of_opNibble hp) hd :)
  | directByte hf hp hd => exact (hs.performed (hs.tlog_of_opByte hp) hd :)
  | pushNibble hf hp hd hq => exact (hs.pushed (hs.tlog_of_opNibble hp) hd :)
  | pushByte hf hp hd hq => exact (hs.pushed (hs.tlog_of_opByte hp) hd :)

/-- Settles O52: a move of XU takes events from what it has still to do to the trace; a move of the FSM issues an
operation, or finishes the one in the latches; the host's moves touch no log. -/
theorem everyStepKeepsTheTraceInvariant : Obligations.EveryStepKeepsTheTraceInvariant := by
  intro s t hinv hs h
  obtain ⟨rest, hcases⟩ := step_cases h
  have hu := hinv.withSched rest
  have hsu := traceInv_withHost hs s.requests s.strMem rest
  rcases hcases with ⟨-, -, h | h⟩ | ⟨-, h⟩ | ⟨-, h⟩ | ⟨-, h⟩ | ⟨-, rfl⟩ | ⟨a, b, -, rfl⟩ | ⟨w, -, rfl⟩
  · exact h.traceInv hu hsu
  · exact (UnitSteps.single h).traceInv hu hsu
  · exact h.traceInv hu hsu
  · exact (UnitSteps.single h).traceInv hu hsu
  · exact h.traceInv hu hsu
  · exact applyReset_traceInv _
  · exact traceInv_withHost hs ..
  · exact traceInv_withHost hs ..

/-- Settles O50: construction is a reset. -/
theorem invariantsHoldAtReset : Obligations.InvariantsHoldAtReset :=
  fun c => ⟨applyReset_inv (s := State.resetWith c) Memory.empty_wf, applyReset_traceInv (State.resetWith c)⟩

/-- Settles O53: at quiescence every operation issued is finished, and in SEQ begun and replayed to its end. -/
theorem quiescentTraceIsTheSameInBothBackends : Obligations.QuiescentTraceIsTheSameInBothBackends := by
  intro s hinv hs ⟨hbusy, hqueue, hh⟩
  have hp : s.phase = .idle := by
    by_contra hne
    simpa [hbusy] using (hinv.inProgress hne).2.1
  have hops : finishedOps s = s.tlog := finishedOps_of_not_atOp (not_atOp_of_phase hp (by simp) (by simp))
  cases hb : s.cfg.backend with
  | direct => rw [hs.direct hb, hops, bindEvents]
  | seq =>
    obtain ⟨begun, waiting, hsplit, hwords, htrace⟩ := hs.replay hb
    have hwaiting : waiting = [] := by simpa [hqueue] using hwords
    rw [unitBacklog_of_empty hh, List.append_nil] at htrace
    rw [htrace, ← hops, hsplit, hwaiting, List.append_nil, bindEvents]

end Sys2Proof.Machine
end

section
/-!
PROOFS. The agents' moves, one rule per case, and the statements that say which instruction a step runs (O37 to O42).
-/
namespace Sys2Proof.Machine

/-! ### A scheduled move -/

theorem step_fsm {s : State} {rest : List Move} (h : s.sched = .fsm :: rest) :
    step s = act (fsmAction { s with sched := rest }) { s with sched := rest } := by
  simp only [step, h, makeMove]

theorem step_xu {s : State} {rest : List Move} (h : s.sched = .xu :: rest) :
    step s = act (xuAction { s with sched := rest }) { s with sched := rest } := by
  simp only [step, h, makeMove]

theorem step_xuWord {s : State} {rest : List Move} (h : s.sched = .xuWord :: rest) :
    step s = act (xuWordAction { s with sched := rest }) { s with sched := rest } := by
  simp only [step, h, makeMove]

theorem step_unscheduled {s : State} (h : s.sched = []) : step s = act (unscheduledAction s) s := by
  simp only [step, h]

/-! ### The FSM's moves (R65, R73, R75, R119) -/

theorem fsmAction_faulted {s : State} (hf : s.fault ≠ .none) : fsmAction s = .wait := if_pos hf

theorem fsmAction_request {s : State} {w : ReqWord} {ws : List ReqWord} (hf : s.fault = .none) (hp : s.phase = .idle)
    (hb : s.busy = false) (hr : s.requests = w :: ws) : fsmAction s = .run (.req w) { s with requests := ws } := by
  simp [fsmAction, hf, hp, hr, hb]

theorem fsmAction_idle {s : State} (hp : s.phase = .idle) (h : s.requests = [] ∨ s.busy = true) :
    fsmAction s = .wait := by
  unfold fsmAction
  rw [hp]
  rcases h with h | h
  · simp [h]
  · cases s.requests <;> simp [h]

theorem fsmAction_fetchChar {s : State} (hf : s.fault = .none) (hp : s.phase = .fetchChar) : fsmAction s = .readChar := by
  simp [fsmAction, hf, hp]

theorem fsmAction_send8 {s : State} {w : BitVec 9} (hf : s.fault = .none) (hp : s.phase = .send8 w) :
    fsmAction s = .run (.out8 w) s := by
  simp [fsmAction, hf, hp]

theorem fsmAction_send4 {s : State} {w : BitVec 5} (hf : s.fault = .none) (hp : s.phase = .send4 w) :
    fsmAction s = .run (.out4 w) s := by
  simp [fsmAction, hf, hp]

theorem fsmAction_opNibble {s : State} (hf : s.fault = .none) (hp : s.phase = .opNibble) :
    fsmAction s = .run (.top24 (nibbleLatches s)) s := by
  simp [fsmAction, hf, hp]

theorem fsmAction_opByte {s : State} (hf : s.fault = .none) (hp : s.phase = .opByte) :
    fsmAction s = .run (.top28 (byteLatches s)) s := by
  simp [fsmAction, hf, hp]

/-! ### XU's moves (R104, R105, R108) -/

theorem xuAction_stopped {s : State} (hr : s.xuRun = false) : xuAction s = .wait := by simp [xuAction, hr]

theorem xuAction_segment {s : State} (hr : s.xuRun = true) (hh : s.xuHave = true) :
    xuAction s = .run (segmentOf s.xuOsr) s := by
  simp [xuAction, hr, hh]

theorem xuAction_empty {s : State} (hh : s.xuHave = false) (hq : s.queue = []) : xuAction s = .wait := by
  simp [xuAction, hh, hq]

theorem xuAction_load {s : State} {w : CmdWord} {q : List CmdWord} (hr : s.xuRun = true) (hh : s.xuHave = false)
    (hq : s.queue = w :: q) : xuAction s = .load w := by
  simp [xuAction, hr, hh, hq]

theorem xuWordAction_stopped {s : State} (hr : s.xuRun = false) : xuWordAction s = .wait := by simp [xuWordAction, hr]

theorem xuWordAction_segment {s : State} (hr : s.xuRun = true) (hh : s.xuHave = true) :
    xuWordAction s = .run (segmentOf s.xuOsr) s := by
  simp [xuWordAction, hr, hh]

theorem xuWordAction_empty {s : State} (hh : s.xuHave = false) (hq : s.queue = []) : xuWordAction s = .wait := by
  simp [xuWordAction, hh, hq]

theorem xuWordAction_word {s : State} {w : CmdWord} {q : List CmdWord} (hr : s.xuRun = true) (hh : s.xuHave = false)
    (hq : s.queue = w :: q) : xuWordAction s = .run (.cw w) (xuLoad w s) := by
  simp [xuWordAction, hr, hh, hq]

/-- XU is stopped, in the middle of a word, without one, or about to take one. -/
theorem unit_cases (s : State) : s.xuRun = false ∨ s.xuRun = true ∧ s.xuHave = true ∨ s.xuHave = false ∧ s.queue = [] ∨
    s.xuRun = true ∧ s.xuHave = false ∧ ∃ w q, s.queue = w :: q := by
  cases s.xuRun <;> cases s.xuHave <;> cases s.queue <;> simp

/-- XU's move of a whole word is its fine move, unless it takes a word (R108). -/
theorem xuWordAction_fine {s : State} (h : ¬ (s.xuRun = true ∧ s.xuHave = false ∧ ∃ w q, s.queue = w :: q)) :
    xuWordAction s = xuAction s := by
  rcases unit_cases s with hr | ⟨hr, hh⟩ | ⟨hh, hq⟩ | htakes
  · rw [xuWordAction_stopped hr, xuAction_stopped hr]
  · rw [xuWordAction_segment hr hh, xuAction_segment hr hh]
  · rw [xuWordAction_empty hh hq, xuAction_empty hh hq]
  · exact absurd htakes h

/-! ### Which instruction a step runs -/

theorem act_run {w : FetchWord} {i : Instr} {s t : State} (h : decode w = .ok i) : act (.run w t) s = exec i t := by
  simp only [act, runWord, h]

/-- Settles O37: the FSM's place in the request is the place it fetches from. -/
theorem fsmStepRunsTheDecodedInstruction : Obligations.FsmStepRunsTheDecodedInstruction := by
  intro s rest i hsched hf
  rw [step_fsm hsched]
  have hf' : { s with sched := rest }.fault = .none := hf
  refine ⟨fun w ws hp hb hr hd => ?_, fun w hp hd => ?_, fun w hp hd => ?_, fun hp hd => ?_, fun hp hd => ?_⟩
  · rw [fsmAction_request hf' hp hb hr, act_run hd]
  · rw [fsmAction_send8 hf' hp, act_run hd]
  · rw [fsmAction_send4 hf' hp, act_run hd]
  · rw [fsmAction_opNibble hf' hp]
    exact act_run hd
  · rw [fsmAction_opByte hf' hp]
    exact act_run hd

/-- A segment runs under either of XU's moves (log 5). -/
theorem step_segment {s : State} {rest : List Move} {m : Move} (hr : s.xuRun = true) (hm : m ∈ [.xu, .xuWord])
    (hsched : s.sched = m :: rest) (hh : s.xuHave = true) :
    step s = runWord (segmentOf s.xuOsr) { s with sched := rest } := by
  rcases List.mem_pair.1 hm with rfl | rfl
  · rw [step_xu hsched, xuAction_segment (s := { s with sched := rest }) hr hh]
    rfl
  · rw [step_xuWord hsched, xuWordAction_segment (s := { s with sched := rest }) hr hh]
    rfl

/-- Settles O38: the marker tells the segment's format (R105), and the fetch takes the head of the queue (R104). -/
theorem unitStepRunsTheDecodedInstruction : Obligations.UnitStepRunsTheDecodedInstruction := by
  intro s rest hr
  refine ⟨fun m i hm hsched hh hmark hd => ?_, fun m i hm hsched hh hmark hd => ?_, fun w q i hsched hh hq hd => ?_,
    fun w q hsched hh hq => ?_⟩
  · rw [step_segment hr hm hsched hh, segmentOf, if_pos hmark]
    exact act_run (s := s) hd
  · rw [step_segment hr hm hsched hh, segmentOf, if_neg (by rw [hmark]; decide)]
    exact act_run (s := s) hd
  · rw [step_xuWord hsched, xuWordAction_word (s := { s with sched := rest }) hr hh hq, act_run hd]
    simp [xuLoad, hq]
  · rw [step_xu hsched, xuAction_load (s := { s with sched := rest }) hr hh hq]
    simp [act, xuLoad, hq]

/-- Settles O39: the two cases of the read. -/
theorem characterFetchStopsAtTheSentinel : Obligations.CharacterFetchStopsAtTheSentinel := by
  intro s rest hsched hf hp
  rw [step_fsm hsched, fsmAction_fetchChar (s := { s with sched := rest }) hf hp, act]
  refine ⟨fun hc => ?_, fun hc => ?_⟩
  · rw [readChar_sentinel (s := { s with sched := rest }) hc]
    rfl
  · rw [readChar_char (s := { s with sched := rest }) hc]
    rfl

/-- Settles O40: in each of these states the agent's move is to wait. -/
theorem waitingAgentsChangeNothing : Obligations.WaitingAgentsChangeNothing := by
  intro s rest
  refine ⟨fun hsched hf => ?_, fun hsched hp hr => ?_, fun m hm hsched h => ?_⟩
  · rw [step_fsm hsched, fsmAction_faulted (s := { s with sched := rest }) hf, act]
  · rw [step_fsm hsched, fsmAction_idle (s := { s with sched := rest }) hp hr, act]
  · rcases List.mem_pair.1 hm with rfl | rfl
    · rw [step_xu hsched]
      rcases h with hr | ⟨hh, hq⟩
      · rw [xuAction_stopped (s := { s with sched := rest }) hr, act]
      · rw [xuAction_empty (s := { s with sched := rest }) hh hq, act]
    · rw [step_xuWord hsched]
      rcases h with hr | ⟨hh, hq⟩
      · rw [xuWordAction_stopped (s := { s with sched := rest }) hr, act]
      · rw [xuWordAction_empty (s := { s with sched := rest }) hh hq, act]

/-- Settles O41: the unscheduled action is one of the two. -/
theorem unscheduledStepIsAnAgentsStep : Obligations.UnscheduledStepIsAnAgentsStep := by
  intro s hsched
  have unlisted : { s with sched := [] } = s := by rw [← hsched]
  rw [step_unscheduled hsched, step_fsm (rest := []) rfl, step_xu (rest := []) rfl, unlisted]
  unfold unscheduledAction
  split
  · exact .inr rfl
  · exact .inl rfl

/-- Settles O42: the write of canonical memory. -/
theorem hostWriteChangesOneByte : Obligations.HostWriteChangesOneByte := by
  intro s a b rest hsched hmem
  refine ⟨s.strMem.write a.toNat b, ?_, Memory.write_wf a.isLt hmem, Memory.read_write_same hmem,
    fun a' ha => Memory.read_write_other ha hmem⟩
  simp only [step, hsched, makeMove, hostWrite]

end Sys2Proof.Machine
end

section
/-!
PROOFS. Rules of every step: no state with the invariant is refused one (O54), what a step leaves unchanged (O55, O56, O57),
and what FSM and XU share (O58, O59, O60).
-/
namespace Sys2Proof.Machine

/-! ### No reachable step is refused (R55, R109) -/

/-- XU's next segment, if its word can be replayed. -/
theorem segment_answers {s : State} (hosr : Replayable s.xuWrites s.xuOsr) :
    ∃ t, runWord (segmentOf s.xuOsr) s = .next t := by
  rw [act_segment]
  cases hm : s.xuOsr.getLsbD 0 with
  | false => exact ⟨_, rfl⟩
  | true =>
    obtain ⟨h2, -, -, h⟩ := hosr
    have hn : s.xuWrites < 2 := by
      refine lt_of_le_of_ne h2 fun he => ?_
      rw [firstMarker, hm] at h
      exact Bool.noConfusion (h he)
    exact ⟨_, if_pos hn⟩

theorem wellShaped_answers {w : CmdWord} (s : State) (h : isMalformed w = false) :
    ∃ t, exec (decodeCommandWord w) s = .next t := by
  unfold decodeCommandWord
  split
  · split
    · split
      · simp_all [isMalformed]
      · exact ⟨_, rfl⟩
    · exact ⟨_, rfl⟩
  · exact ⟨_, rfl⟩

theorem Inv.unit_answers {s : State} (hs : Inv s) : ∃ t, act (xuAction s) s = .next t := by
  rcases unit_cases s with hr | ⟨hr, hh⟩ | ⟨hh, hq⟩ | ⟨hr, hh, w, q, hq⟩
  · exact ⟨s, by rw [xuAction_stopped hr, act]⟩
  · rw [xuAction_segment hr hh]
    exact segment_answers (hs.osr hh)
  · exact ⟨s, by rw [xuAction_empty hh hq, act]⟩
  · exact ⟨_, by rw [xuAction_load hr hh hq, act]⟩

theorem Inv.unit_word_answers {s : State} (hs : Inv s) : ∃ t, act (xuWordAction s) s = .next t := by
  by_cases htakes : s.xuRun = true ∧ s.xuHave = false ∧ ∃ w q, s.queue = w :: q
  · obtain ⟨hr, hh, w, q, hq⟩ := htakes
    obtain ⟨op, rfl⟩ := hs.queueWords w (by simp [hq])
    rw [xuWordAction_word hr hh hq]
    exact wellShaped_answers _ (opWord_not_malformed op)
  · rw [xuWordAction_fine htakes]
    exact hs.unit_answers

theorem Inv.fsm_answers {s : State} (hs : Inv s) : ∃ t, act (fsmAction s) s = .next t := by
  obtain ⟨t, ht, -⟩ := fsm_step fun _ => hs.sending
  exact ⟨t, ht⟩

theorem Inv.makeMove_answers {s : State} (hs : Inv s) (m : Move) : ∃ t, makeMove m s = .next t := by
  cases m with
  | fsm => exact hs.fsm_answers
  | xu => exact hs.unit_answers
  | xuWord => exact hs.unit_word_answers
  | reset | hostWrite | present => exact ⟨_, rfl⟩

/-- Settles O54: what the FSM may send is a row of R56, and XU's words can be replayed to their end. -/
theorem noReachableStepIsRefused : Obligations.NoReachableStepIsRefused := by
  intro s hs
  unfold step
  split
  · unfold unscheduledAction
    split
    · exact hs.unit_answers
    · exact hs.fsm_answers
  · exact (hs.withSched _).makeMove_answers _

/-! ### What the FSM's step keeps -/

theorem FsmStep.of_faulted {s t : State} (h : FsmStep s t) (hf : s.fault ≠ .none) : t = s := by
  cases h with
  | wait => rfl
  | request w ws t h | read h | issueByte w rs b d h | issueNibble w rs v d h | directNibble h | directByte h
  | pushNibble h | pushByte h => exact absurd h hf

theorem FsmStep.bound {s t : State} (h : FsmStep s t) (hb : s.bound = true) : t.bound = true := by
  cases h with
  | request w ws t hf hp hbusy hr ha =>
    rcases ha.init_or_frame with rfl | ⟨_, _, _, _, _, _, _, rfl⟩
    · simp
    · exact hb
  | wait | read | issueByte | issueNibble | directNibble | directByte | pushNibble | pushByte => simpa using hb

theorem UnitFrame.fault_bound {s t : State} (h : UnitFrame s t) : t.fault = s.fault ∧ t.bound = s.bound := by
  obtain ⟨_, _, _, _, _, _, rfl⟩ := h
  exact ⟨rfl, rfl⟩

/-- A relation of a step that is no reset holds if it speaks of no move to come and holds of the moves of each agent and of
the host. -/
theorem step_of_moves {P : State → State → Prop} (hsched : ∀ {s t : State} (l : List Move), P { s with sched := l } t → P s t)
    (hfsm : ∀ {s t : State}, FsmStep s t → P s t) (hunit : ∀ {s t : State}, UnitSteps s t → P s t)
    (hwrite : ∀ s a b, P s (hostWrite a b s)) (hpresent : ∀ s w, P s (presentRequest w s))
    {s t : State} (h : step s = .next t) (hreset : ∀ rest, s.sched ≠ .reset :: rest) : P s t := by
  obtain ⟨rest, hcases⟩ := step_cases h
  refine hsched rest ?_
  rcases hcases with ⟨-, -, h | h⟩ | ⟨-, h⟩ | ⟨-, h⟩ | ⟨-, h⟩ | ⟨hs, -⟩ | ⟨a, b, -, rfl⟩ | ⟨w, -, rfl⟩
  · exact hfsm h
  · exact hunit (.single h)
  · exact hfsm h
  · exact hunit (.single h)
  · exact hunit h
  · exact absurd hs (hreset rest)
  · exact hwrite ..
  · exact hpresent ..

/-- Settles O55: a faulted FSM waits, no move of the FSM unbinds, and no other agent touches either flag. -/
theorem onlyResetClearsFaultAndBound : Obligations.OnlyResetClearsFaultAndBound := by
  intro s t h hreset
  refine step_of_moves (P := fun s t => (s.fault ≠ .none → t.fault = s.fault) ∧ (s.bound = true → t.bound = true))
    (fun _ => id) (fun h => ⟨fun hf => by rw [h.of_faulted hf], h.bound⟩) (fun h => ?_) (fun _ _ _ => ⟨fun _ => rfl, id⟩)
    (fun _ _ => ⟨fun _ => rfl, id⟩) h hreset
  exact ⟨fun _ => h.frame.fault_bound.1, fun hb => h.frame.fault_bound.2.trans hb⟩

/-! ### Configuration, pins outside the PinSet, string memory -/

theorem configureOutputs_outside {ps : PinSet} {q : PinNum} (h : pinLevel (maskAll ps) q = false) (pins : PinWord) :
    pinLevel (pins &&& ~~~maskAll ps) q = pinLevel pins q := by
  simp [and_level, not_level, h]

theorem directNibble_outside {ps : PinSet} {q : PinNum} (h : pinLevel (maskAll ps) q = false) (rs : Rs) (v : Nibble)
    (d : Delay) (pins : PinWord) : pinLevel ((directNibble ps rs v d).foldl pinsAfter pins) q = pinLevel pins q := by
  rw [directNibble, List.foldl_append, settle_pins, nibbleEvents_outside ps _ _ h]

theorem directByte_outside {ps : PinSet} {q : PinNum} (h : pinLevel (maskAll ps) q = false) (rs : Rs) (b : Byte)
    (d : Delay) (pins : PinWord) : pinLevel ((directByte ps rs b d).foldl pinsAfter pins) q = pinLevel pins q := by
  rw [directByte, List.foldl_append, settle_pins, List.foldl_append, nibbleEvents_outside ps _ _ h,
    nibbleEvents_outside ps _ _ h]

theorem bindTransport_outside {s : State} {q : PinNum} (h : pinLevel (maskAll s.cfg.pins) q = false) :
    pinLevel (bindTransport s).pins q = pinLevel s.pins q := by
  cases hb : s.bound with
  | true => rw [bindTransport_of_bound hb]
  | false =>
    cases hd : s.cfg.backend with
    | direct => rw [bindTransport_direct hb hd]; exact configureOutputs_outside h _
    | seq => rw [bindTransport_seq hb hd]; exact configureOutputs_outside h _

/-- The configuration, the string memory and the pins outside the PinSet are the same. -/
def KeepsSurroundings (s t : State) : Prop :=
  t.cfg = s.cfg ∧ t.strMem = s.strMem ∧
    ∀ q : PinNum, pinLevel (maskAll s.cfg.pins) q = false → pinLevel t.pins q = pinLevel s.pins q

theorem FsmStep.keepsSurroundings {s t : State} (h : FsmStep s t) : KeepsSurroundings s t := by
  cases h with
  | request w ws t hf hp hbusy hr ha =>
    rcases ha.init_or_frame with rfl | ⟨_, _, _, _, _, _, _, rfl⟩
    · exact ⟨by simp, by simp, fun q hq => bindTransport_outside (s := accept 0 { s with requests := ws }) hq⟩
    · exact ⟨rfl, rfl, fun q _ => rfl⟩
  | directNibble => exact ⟨by simp, by simp, fun q hq => by rw [performThen_pins, directNibble_outside hq]⟩
  | directByte => exact ⟨by simp, by simp, fun q hq => by rw [performThen_pins, directByte_outside hq]⟩
  | wait | read | issueByte | issueNibble | pushNibble | pushByte => simp [KeepsSurroundings]

theorem UnitStep.keepsSurroundings {s t : State} (h : UnitStep s t) : KeepsSurroundings s t := by
  cases h with
  | write hr hh hm hn =>
    exact ⟨by simp, by simp, fun q hq => by rw [xuWrite_pins, nibbleEvents_outside _ _ _ hq]⟩
  | wait | load | delay => simp [KeepsSurroundings]

theorem UnitSteps.keepsSurroundings {s t : State} (h : UnitSteps s t) : KeepsSurroundings s t := by
  induction h with
  | refl => simp [KeepsSurroundings]
  | tail _ h' ih =>
    obtain ⟨hcfg, hmem, hpins⟩ := ih
    obtain ⟨hcfg', hmem', hpins'⟩ := h'.keepsSurroundings
    exact ⟨hcfg'.trans hcfg, hmem'.trans hmem, fun q hq => (hpins' q (hcfg ▸ hq)).trans (hpins q hq)⟩

/-- Settles O56: each agent keeps its surroundings; reset and the host's write are what the exceptions name. -/
theorem whatNoStepChanges : Obligations.WhatNoStepChanges := by
  intro s t h
  obtain ⟨rest, hcases⟩ := step_cases h
  have agent {u : State} (hcfg : u.cfg = s.cfg) (hmem : u.strMem = s.strMem) (hpins : u.pins = s.pins)
      (h : KeepsSurroundings u t) : KeepsSurroundings s t := by
    rwa [KeepsSurroundings, hcfg, hmem, hpins] at h
  have settles (h : KeepsSurroundings s t) : t.cfg = s.cfg ∧
      ((∀ rest, s.sched ≠ .reset :: rest) → ∀ q : PinNum, pinLevel (maskAll s.cfg.pins) q = false →
        pinLevel t.pins q = pinLevel s.pins q) ∧
      ((∀ a b rest, s.sched ≠ .hostWrite a b :: rest) → t.strMem = s.strMem) :=
    ⟨h.1, fun _ => h.2.2, fun _ => h.2.1⟩
  rcases hcases with ⟨-, -, h | h⟩ | ⟨-, h⟩ | ⟨-, h⟩ | ⟨-, h⟩ | ⟨hs, rfl⟩ | ⟨a, b, hs, rfl⟩ | ⟨w, -, rfl⟩
  · exact settles (agent rfl rfl rfl h.keepsSurroundings)
  · exact settles (agent rfl rfl rfl h.keepsSurroundings)
  · exact settles (agent rfl rfl rfl h.keepsSurroundings)
  · exact settles (agent rfl rfl rfl h.keepsSurroundings)
  · exact settles (agent rfl rfl rfl h.keepsSurroundings)
  · exact ⟨rfl, fun hreset => absurd hs (hreset rest), fun _ => rfl⟩
  · exact ⟨rfl, fun _ _ _ => rfl, fun hwrite => absurd hs (hwrite a b rest)⟩
  · exact ⟨rfl, fun _ _ _ => rfl, fun _ => rfl⟩

/-! ### The logs grow -/

/-- Every log of after begins with the one of before (R22). -/
def LogsGrow (s t : State) : Prop :=
  s.tlog <+: t.tlog ∧ s.ptrace <+: t.ptrace ∧ s.qlog <+: t.qlog ∧ s.hostLog <+: t.hostLog

theorem LogsGrow.trans {s t u : State} (h : LogsGrow s t) (h' : LogsGrow t u) : LogsGrow s u := by
  obtain ⟨h1, h2, h3, h4⟩ := h
  obtain ⟨h1', h2', h3', h4'⟩ := h'
  exact ⟨h1.trans h1', h2.trans h2', h3.trans h3', h4.trans h4'⟩

theorem bindTransport_logsGrow (s : State) : LogsGrow s (bindTransport s) := by
  cases hb : s.bound with
  | true => simp [bindTransport_of_bound hb, LogsGrow]
  | false =>
    cases hd : s.cfg.backend with
    | direct => simp [bindTransport_direct hb hd, LogsGrow]
    | seq => simp [bindTransport_seq hb hd, LogsGrow]

theorem FsmStep.logsGrow {s t : State} (h : FsmStep s t) : LogsGrow s t := by
  cases h with
  | request w ws t hf hp hbusy hr ha =>
    rcases ha.init_or_frame with rfl | ⟨_, _, _, _, _, _, _, rfl⟩
    · exact bindTransport_logsGrow (accept 0 { s with requests := ws })
    · simp [LogsGrow]
  | wait | read | issueByte | issueNibble | directNibble | directByte | pushNibble | pushByte => simp [LogsGrow]

theorem UnitSteps.logsGrow {s t : State} (h : UnitSteps s t) : LogsGrow s t := by
  induction h with
  | refl => simp [LogsGrow]
  | tail _ h' ih =>
    refine ih.trans ?_
    cases h' with
    | wait | load | write | delay => simp [LogsGrow]

/-- Settles O57: each agent's move appends to the logs at most, and the host's touch none. -/
theorem logsOnlyGrow : Obligations.LogsOnlyGrow := by
  intro s t h hreset
  exact step_of_moves (P := LogsGrow) (fun _ => id) FsmStep.logsGrow UnitSteps.logsGrow
    (fun _ _ _ => by simp [LogsGrow]) (fun _ _ => by simp [LogsGrow]) h hreset

/-! ### FSM and XU share the queue alone -/

/-- In SEQ and bound, INIT binds no more, and of the operations there are the pushes. -/
theorem FsmStep.drives_no_pin {s t : State} (h : FsmStep s t) (hseq : s.cfg.backend = .seq) (hbound : s.bound = true) :
    t.pins = s.pins ∧ t.oe = s.oe ∧ t.ptrace = s.ptrace ∧ t.xuRun = s.xuRun ∧ t.xuOsr = s.xuOsr ∧
    t.xuHave = s.xuHave ∧ t.xuWrites = s.xuWrites ∧
    (t.queue = s.queue ∧ t.qlog = s.qlog ∨ ∃ w, t.queue = s.queue ++ [w] ∧ t.qlog = s.qlog ++ [w]) := by
  cases h with
  | request w ws t hf hp hbusy hr ha =>
    rcases ha.init_or_frame with rfl | ⟨_, _, _, _, _, _, _, rfl⟩
    · rw [bindTransport_of_bound (s := accept 0 { s with requests := ws }) hbound]
      exact ⟨rfl, rfl, rfl, rfl, rfl, rfl, rfl, .inl ⟨rfl, rfl⟩⟩
    · exact ⟨rfl, rfl, rfl, rfl, rfl, rfl, rfl, .inl ⟨rfl, rfl⟩⟩
  | directNibble hf hp hd | directByte hf hp hd => simp [hseq] at hd
  | pushNibble | pushByte => simp
  | wait | read | issueByte | issueNibble => simp

/-- Settles O58: of the FSM's moves in SEQ and bound, the pushes alone leave its registers. -/
theorem seqFsmDrivesNoPin : Obligations.SeqFsmDrivesNoPin := by
  intro s t rest hseq hbound hsched h
  rw [step_fsm hsched] at h
  exact (fsm_step_cases h).drives_no_pin hseq hbound

/-! ### XU, whatever the fault -/

theorem xuWrite_withFault (c : Cause) (rs : Rs) (v : Nibble) (s : State) :
    xuWrite rs v { s with fault := c } = { xuWrite rs v s with fault := c } := by
  rw [xuWrite_eq, xuWrite_eq]

theorem xuDelay_withFault (c : Cause) (d : Delay) (s : State) :
    xuDelay d { s with fault := c } = { xuDelay d s with fault := c } := by
  rw [xuDelay_eq, xuDelay_eq]

theorem segment_withFault {s t : State} (h : runWord (segmentOf s.xuOsr) s = .next t) (c : Cause) :
    runWord (segmentOf s.xuOsr) { s with fault := c } = .next { t with fault := c } := by
  have h' := act_segment (s := { s with fault := c })
  rw [act_segment] at h
  rw [h']
  split at h
  · rename_i hm
    rw [if_pos hm]
    simp only [exec, execSegWrite] at h ⊢
    split at h
    · rename_i hn
      cases h
      rw [if_pos hn, xuWrite_withFault]
    · cases h
  · rename_i hm
    cases h
    rw [if_neg hm]
    exact congrArg Host.Outcome.next (xuDelay_withFault ..)

theorem commandWord_withFault {w : CmdWord} {s t : State} (h : exec (decodeCommandWord w) s = .next t) (c : Cause) :
    exec (decodeCommandWord w) { s with fault := c } = .next { t with fault := c } := by
  unfold decodeCommandWord at h ⊢
  split at h
  · split at h
    · split at h
      · cases h
      · cases h
        simp only [*, exec, execCwByte, xuWrite_withFault, xuDelay_withFault]
        simp
    · cases h
      simp only [*, exec, execCwNibble, xuWrite_withFault, xuDelay_withFault]
      simp
  · cases h
    simp only [*, exec, execCwDelayOnly, xuDelay_withFault]
    simp

/-- XU reads no fault: with another cause its move is the same. -/
theorem unit_withFault {s t : State} (h : act (xuAction s) s = .next t) (c : Cause) :
    act (xuAction { s with fault := c }) { s with fault := c } = .next { t with fault := c } := by
  rcases unit_cases s with hr | ⟨hr, hh⟩ | ⟨hh, hq⟩ | ⟨hr, hh, w, q, hq⟩
  · rw [xuAction_stopped hr] at h
    rw [xuAction_stopped (s := { s with fault := c }) hr]
    cases h
    rfl
  · rw [xuAction_segment hr hh] at h
    rw [xuAction_segment (s := { s with fault := c }) hr hh]
    exact segment_withFault h c
  · rw [xuAction_empty hh hq] at h
    rw [xuAction_empty (s := { s with fault := c }) hh hq]
    cases h
    rfl
  · rw [xuAction_load hr hh hq] at h
    rw [xuAction_load (s := { s with fault := c }) hr hh hq]
    cases h
    rfl

theorem unit_word_withFault {s t : State} (h : act (xuWordAction s) s = .next t) (c : Cause) :
    act (xuWordAction { s with fault := c }) { s with fault := c } = .next { t with fault := c } := by
  by_cases htakes : s.xuRun = true ∧ s.xuHave = false ∧ ∃ w q, s.queue = w :: q
  · obtain ⟨hr, hh, w, q, hq⟩ := htakes
    rw [xuWordAction_word hr hh hq] at h
    rw [xuWordAction_word (s := { s with fault := c }) hr hh hq]
    exact commandWord_withFault (s := xuLoad w s) h c
  · rw [xuWordAction_fine htakes] at h
    rw [xuWordAction_fine (s := { s with fault := c }) htakes]
    exact unit_withFault h c

theorem UnitStep.queue {s t : State} (h : UnitStep s t) : t.queue = s.queue ∨ t.queue = s.queue.tail := by
  cases h with
  | wait => exact .inl rfl
  | load => exact .inr rfl
  | write | delay => exact .inl (by simp)

/-- A word taken whole is one word taken. -/
theorem unit_word_queue {s t : State} (h : act (xuWordAction s) s = .next t) :
    t.queue = s.queue ∨ t.queue = s.queue.tail := by
  by_cases htakes : s.xuRun = true ∧ s.xuHave = false ∧ ∃ w q, s.queue = w :: q
  · obtain ⟨hr, hh, w, q, hq⟩ := htakes
    rw [xuWordAction_word hr hh hq] at h
    exact .inr (exec_commandWord_queue h)
  · rw [xuWordAction_fine htakes] at h
    exact (unit_step_cases h).queue

/-- Settles O59: XU's moves have its frame, of either granularity (log 5), and commute with a change of the fault. -/
theorem unitTouchesNothingOfTheFsm : Obligations.UnitTouchesNothingOfTheFsm := by
  intro s t m rest hm hsched h
  have hmoves : UnitFrame { s with sched := rest } t ∧ (t.queue = s.queue ∨ t.queue = s.queue.tail) ∧
      ∀ c : Cause, step { s with fault := c } = .next { t with fault := c } := by
    rcases List.mem_pair.1 hm with rfl | rfl
    · rw [step_xu hsched] at h
      have hstep := unit_step_cases h
      refine ⟨hstep.frame, hstep.queue, fun c => ?_⟩
      rw [step_xu (s := { s with fault := c }) hsched]
      exact unit_withFault (s := { s with sched := rest }) h c
    · rw [step_xuWord hsched] at h
      refine ⟨(unit_word_cases h).frame, unit_word_queue (s := { s with sched := rest }) h, fun c => ?_⟩
      rw [step_xuWord (s := { s with fault := c }) hsched]
      exact unit_word_withFault (s := { s with sched := rest }) h c
  obtain ⟨⟨_, _, _, _, _, _, rfl⟩, hqueue, hfault⟩ := hmoves
  exact ⟨rfl, rfl, rfl, rfl, rfl, rfl, rfl, rfl, rfl, rfl, rfl, rfl, rfl, rfl, rfl, rfl, rfl, rfl, rfl, rfl, rfl, rfl,
    rfl, rfl, hqueue, hfault⟩

/-- Settles O60: the FSM waits on a queue that is full and not empty, so XU runs and has a word to take. -/
theorem noDeadlock : Obligations.NoDeadlock := by
  intro s hs hq hblocked
  obtain ⟨-, hfull, -⟩ := blocked_iff.1 hblocked
  refine ⟨by simpa [xuEnabled] using xuEnabled_of_blocked (hs.live hq) hblocked, fun w _ => canPush_iff.2 ?_⟩
  have hbound := hs.queueBound
  rw [xuLoad_queue, xuLoad_cfg, List.length_tail]
  omega

end Sys2Proof.Machine
end

section
/-!
PROOFS. Reset and the check of the PinSet (O7, O8), the requests (O9, O10, O14 to O16), the values sent (O17, O18).
-/
namespace Sys2Proof.Machine

/-! ### Reset and configuration -/

/-- What the host owns and the count of draws are no reset values (log 20). -/
theorem atReset_resetWith (c : Configuration) (requests : List ReqWord) (mem : Memory) (sched : List Move) (draws : Nat) :
    AtReset c { State.resetWith c with requests := requests, strMem := mem, sched := sched, draws := draws } where
  cfg := rfl
  busy := rfl
  step := rfl
  bound := rfl
  fault := rfl
  outputs p _ := zero_level p
  queue := rfl
  xu := ⟨rfl, rfl⟩
  logs := ⟨rfl, rfl, rfl⟩

/-- Settles O7: construction and `applyReset` leave the same values. -/
theorem resetLeavesTheSpecValues : Obligations.ResetLeavesTheSpecValues := by
  refine ⟨fun c => atReset_resetWith c [] [] [] 0, fun s rest hsched => ?_⟩
  exact ⟨applyReset { s with sched := rest }, by simp only [step, hsched, makeMove], atReset_resetWith .., rfl, rfl, rfl⟩

theorem pinsOverlap_eq_false_iff (ps : PinSet) : pinsOverlap ps = false ↔ PinsDistinct ps := by
  simp [pinsOverlap, PinsDistinct, and_assoc]

theorem configCause_overlap {c : Configuration} (h : ¬ PinsDistinct c.pins) : configCause c = .pinOverlap :=
  if_pos (by rwa [← pinsOverlap_eq_false_iff, Bool.not_eq_false] at h)

theorem configCause_direct {c : Configuration} (h : PinsDistinct c.pins) (hd : c.backend = .direct) :
    configCause c = .none := by
  simp [configCause, (pinsOverlap_eq_false_iff _).2 h, hd]

theorem configCause_seq {c : Configuration} (h : PinsDistinct c.pins) (hs : c.backend = .seq) :
    configCause c = if pinsConsecutive c.pins then .none else .pinNotConsecutive := by
  simp [configCause, (pinsOverlap_eq_false_iff _).2 h, hs]

/-- Settles O8: the check's two tests are the two predicates on the PinSet, the first before the second (R122). -/
theorem configurationCheckAtReset : Obligations.ConfigurationCheckAtReset := by
  intro c
  have fault_eq : (State.resetWith c).fault = configCause c := rfl
  rw [fault_eq]
  refine ⟨fun h => ?_, fun h hd => ?_, fun h hs hc => ?_, fun h hs hc => ?_⟩
  · rw [configCause_overlap h]
    rfl
  · rw [configCause_direct h hd]
    rfl
  · rw [configCause_seq h hs, if_pos ((pinsConsecutive_iff _).2 hc)]
    rfl
  · rw [configCause_seq h hs, if_neg fun hp => hc ((pinsConsecutive_iff _).1 hp)]
    rfl

/-! ### Requests -/

/-- Settles O9: the three cases of the bind step (R67). -/
theorem initBindsOnceAndStartsTheHandshake : Obligations.InitBindsOnceAndStartsTheHandshake := by
  intro s
  refine ⟨fun hb => ?_, fun hb hd => ?_, fun hb hs => ⟨Config.freeProgOffset s.draws, Config.freeUnitHandle s.draws, ?_⟩⟩
  · rw [exec, execInit, bindTransport_of_bound (s := accept 0 s) hb]
    rfl
  · rw [exec, execInit, bindTransport_direct (s := accept 0 s) hb hd]
    rfl
  · rw [exec, execInit, bindTransport_seq (s := accept 0 s) hb hs]
    simp [gotoStep, setBound, startUnit, claimUnit, accept, emit, pinsAfter, oeAfter, handshake]

/-- Settles O10: bound, the request goes straight to its byte. -/
theorem clearAndHomeSendTheirByte : Obligations.ClearAndHomeSendTheirByte := by
  intro s hb
  refine ⟨?_, ?_⟩
  · rw [exec, execClear, ifBound_of_bound (s := accept 1 s) hb]
    rfl
  · rw [exec, execHome, ifBound_of_bound (s := accept 2 s) hb]
    rfl

/-- Settles O14: bound, the request goes straight to its first read. -/
theorem writeStringLatchesThePointer : Obligations.WriteStringLatchesThePointer := by
  intro s ptr hb
  rw [exec, execWriteString, ifBound_of_bound (s := { accept 4 s with strPtr := ptr }) hb]
  rfl

/-- A request other than INIT before the binding: its operands are latched and the fault raised (R120). -/
theorem ifBound_faults {k : State → State} {s : State} (hb : s.bound = false) (hf : s.fault = .none) :
    ifBound k s = { s with fault := .notInitialised } := by
  rw [ifBound_of_unbound hb, raiseFault_of_none hf]

/-- Settles O15: the test of the binding comes before anything the request does. -/
theorem requestsBeforeInitFault : Obligations.RequestsBeforeInitFault := by
  intro s hb hf
  refine ⟨?_, ?_, fun row col => ?_, fun ptr => ?_⟩
  · rw [exec, execClear, ifBound_faults (s := accept 1 s) hb hf]
    rfl
  · rw [exec, execHome, ifBound_faults (s := accept 2 s) hb hf]
    rfl
  · rw [exec, execPosition, ifBound_faults (s := { accept 3 s with reqRow := row, reqCol := col }) hb hf]
    rfl
  · rw [exec, execWriteString, ifBound_faults (s := { accept 4 s with strPtr := ptr }) hb hf]
    rfl

/-- Settles O16: the reserved codes are tested before the binding (R122). -/
theorem reservedRequestsFault : Obligations.ReservedRequestsFault := by
  intro s hf
  have faults (op : BitVec 3) : raiseFault .illegalRequest (accept op s) =
      { s with reqOp := op, busy := true, fault := .illegalRequest } := raiseFault_of_none (s := accept op s) hf
  simp only [exec, execReserved5, execReserved6, execReserved7, faults, and_self]

/-! ### Values sent -/

/-- Settles O17: each row issues its byte. -/
theorem outBytesIssueOneWriteByte : Obligations.OutBytesIssueOneWriteByte :=
  fun _ => ⟨rfl, rfl, rfl, rfl, rfl, fun _ => rfl, fun _ => rfl⟩

/-- Settles O18: the delay is that of the step (R66), or a free one (log 13). -/
theorem outNibblesIssueOneWriteNibble : Obligations.OutNibblesIssueOneWriteNibble := by
  intro s
  refine ⟨fun d hd => ?_, ⟨wakeDelay s.step, rfl⟩, rfl⟩
  have hdelay : wakeDelay s.step = d := by
    simp only [List.mem_cons, List.not_mem_nil, or_false, Prod.mk.injEq] at hd
    rcases hd with ⟨hstep, rfl⟩ | ⟨hstep, rfl⟩ | ⟨hstep, rfl⟩ <;> rw [hstep] <;> rfl
  rw [exec, execOutWakeNibble, hdelay]
  rfl

end Sys2Proof.Machine
end

section
/-!
PROOFS. The transport operations (O20, O21, O23, O24) and the address of POSITION (O35).
-/
namespace Sys2Proof.Machine

/-! ### DIRECT: the pins after an operation -/

theorem maskAll_level_of_not_mem {ps : PinSet} {q : PinNum} (hq : q ∉ [ps.e, ps.rs, ps.d0, ps.d1, ps.d2, ps.d3]) :
    pinLevel (maskAll ps) q = false := by
  rw [Bool.eq_false_iff, ne_eq, (masksAreThePinsOfThePinSet ps q).2]
  exact hq

theorem directNibble_stands {ps : PinSet} (h : PinsDistinct ps) (pins : PinWord) (rs : Rs) (v : Nibble) (d : Delay) :
    Stands ps ((directNibble ps rs v d).foldl pinsAfter pins) rs v := by
  rw [directNibble, List.foldl_append, settle_pins]
  exact nibbleEvents_stands h pins rs v

theorem directByte_stands {ps : PinSet} (h : PinsDistinct ps) (pins : PinWord) (rs : Rs) (b : Byte) (d : Delay) :
    Stands ps ((directByte ps rs b d).foldl pinsAfter pins) rs (lowNibble b) := by
  rw [directByte, List.foldl_append, settle_pins, List.foldl_append]
  exact nibbleEvents_stands h _ rs (lowNibble b)

/-- Settles O20: the last nibble's masked write is the last event on the five lines. -/
theorem directTransportLeavesThePins : Obligations.DirectTransportLeavesThePins := by
  intro s rs v b d hd hp p stands
  have holds {es : List Event} {n : Nibble} (hn : Stands p (es.foldl pinsAfter s.pins) rs n)
      (he : pinLevel (es.foldl pinsAfter s.pins) p.e = false)
      (hout : ∀ q, pinLevel (maskAll p) q = false → pinLevel (es.foldl pinsAfter s.pins) q = pinLevel s.pins q) :
      stands (performThen es s) n := by
    obtain ⟨hrs, h0, h1, h2, h3⟩ := hn
    simp only [stands, performThen_pins]
    exact ⟨hrs, h0, h1, h2, h3, he, fun q hq => hout q (maskAll_level_of_not_mem hq)⟩
  exact ⟨⟨_, exec_writeNibble_direct hd rs v d, holds (directNibble_stands hp ..) (directNibble_enable_low ..)
      fun q hq => directNibble_outside hq ..⟩,
    ⟨_, exec_writeByte_direct hd rs b d, holds (directByte_stands hp ..) (directByte_enable_low ..)
      fun q hq => directByte_outside hq ..⟩⟩

/-! ### SEQ: the word pushed, as a number -/

/-- R96 as arithmetic: the helper shifts by a segment and adds one. -/
theorem addWriteCmd_toNat (cmd : CmdWord) (rs : Rs) (v : Nibble) :
    (addWriteCmd cmd rs v).toNat = (cmd.toNat * 64 + (rs.toNat * 32 + v.toNat * 2 + 1)) % 2 ^ 32 := by
  have segment : rs.setWidth 32 <<< 5 ||| (v.setWidth 32 <<< 1 ||| 1#32) =
      BitVec.ofNat 32 (rs.toNat * 32 + v.toNat * 2 + 1) := by
    revert rs v
    decide
  have hlt : rs.toNat * 32 + v.toNat * 2 + 1 < 2 ^ 6 := by omega
  rw [addWriteCmd, BitVec.or_assoc, BitVec.or_assoc, segment, BitVec.toNat_or,
    BitVec.toNat_shiftLeft, BitVec.toNat_ofNat, ← Nat.or_mod_two_pow, ← Nat.shiftLeft_add_eq_or_of_lt hlt,
    Nat.shiftLeft_eq]

theorem addDelayCmd_toNat (d : Delay) : (addDelayCmd 0 d).toNat = d.toNat * 2 := by
  have hd := d.isLt
  simp [addDelayCmd, Nat.shiftLeft_eq]
  omega

theorem lowNibble_toNat (b : Byte) : (lowNibble b).toNat = b.toNat % 16 := by simp [lowNibble]

theorem highNibble_toNat (b : Byte) : (highNibble b).toNat = b.toNat / 16 := by
  have hb := b.isLt
  simp [highNibble, Nat.shiftRight_eq_div_pow]
  omega

theorem nibbleWord_eq_ofNat (rs : Rs) (v : Nibble) (d : Delay) :
    nibbleWord rs v d = BitVec.ofNat 32 (d.toNat * 2 ^ 7 + rs.toNat * 2 ^ 5 + v.toNat * 2 + 1) := by
  apply BitVec.eq_of_toNat_eq
  rw [nibbleWord, addWriteCmd_toNat, addDelayCmd_toNat, BitVec.toNat_ofNat]
  omega

theorem byteWord_eq_ofNat (rs : Rs) (b : Byte) (d : Delay) :
    byteWord rs b d = BitVec.ofNat 32 (d.toNat * 2 ^ 13 + rs.toNat * 2 ^ 11 + b.toNat % 16 * 2 ^ 7 + 2 ^ 6 +
      rs.toNat * 2 ^ 5 + b.toNat / 16 * 2 + 1) := by
  apply BitVec.eq_of_toNat_eq
  rw [byteWord, addWriteCmd_toNat, addWriteCmd_toNat, addDelayCmd_toNat, lowNibble_toNat, highNibble_toNat,
    BitVec.toNat_ofNat]
  omega

/-- Settles O21: each operation is `finishOp` after the push of its word, the word as the tables' sum. -/
theorem seqTransportPushesOneWord : Obligations.SeqTransportPushesOneWord := by
  intro s rs v b d hseq hroom pushed
  have finishOp_push_pushed (n : Nat) : pushed (finishOp (push (BitVec.ofNat 32 n) s)) n := by simp [pushed]
  refine ⟨⟨_, exec_writeNibble_seq_room hseq hroom rs v d, ?_⟩, ⟨_, exec_writeByte_seq_room hseq hroom rs b d, ?_⟩⟩
  · rw [nibbleWord_eq_ofNat]
    exact finishOp_push_pushed _
  · rw [byteWord_eq_ofNat]
    exact finishOp_push_pushed _

/-- Settles O23: both operations push or wait. -/
theorem seqTransportWaitsWhileTheQueueIsFull : Obligations.SeqTransportWaitsWhileTheQueueIsFull := by
  intro s rs v b d hseq hfull
  simp only [exec, execWriteNibble, execWriteByte, hseq, pushOrWait_full hfull, and_self]

/-! ### The end of an operation -/

/-- A transport operation with room ends in `finishOp`, of a state with the request's registers. -/
theorem exec_operation_finishes {s : State} {rs : Rs} {v : Nibble} {b : Byte} {d : Delay} {i : Instr}
    (hi : i ∈ [.writeNibble rs v d, .writeByte rs b d])
    (hroom : s.cfg.backend = .seq → s.queue.length < s.cfg.qdepth) :
    ∃ u, exec i s = .next (finishOp u) ∧ u.reqOp = s.reqOp ∧ u.step = s.step ∧ u.strPtr = s.strPtr ∧ u.busy = s.busy := by
  cases hb : s.cfg.backend with
  | direct =>
    rcases List.mem_pair.1 hi with rfl | rfl
    · exact ⟨_, exec_writeNibble_direct hb rs v d, by simp, by simp, by simp, by simp⟩
    · exact ⟨_, exec_writeByte_direct hb rs b d, by simp, by simp, by simp, by simp⟩
  | seq =>
    rcases List.mem_pair.1 hi with rfl | rfl
    · exact ⟨_, exec_writeNibble_seq_room hb (hroom hb) rs v d, rfl, rfl, rfl, rfl⟩
    · exact ⟨_, exec_writeByte_seq_room hb (hroom hb) rs b d, rfl, rfl, rfl, rfl⟩

/-- Settles O24: the four ways `finishOp` goes on. -/
theorem finishedOperationMovesTheRequestOn : Obligations.FinishedOperationMovesTheRequestOn := by
  intro s rs v b d i hi hroom
  obtain ⟨u, hexec, hop, hstep, hptr, hbusy⟩ := exec_operation_finishes hi hroom
  rw [← hop, ← hstep, ← hptr, ← hbusy]
  refine ⟨_, hexec, fun h0 ph hph => ?_, fun h0 h8 => ?_, fun h4 => ?_, fun h0 h4 => ?_⟩
  · have hnext : u.step.toNat < 8 ∧ handshake (u.step + 1) = ph := by
      simp only [List.mem_cons, List.not_mem_nil, or_false, Prod.mk.injEq] at hph
      rcases hph with ⟨h, rfl⟩ | ⟨h, rfl⟩ | ⟨h, rfl⟩ | ⟨h, rfl⟩ | ⟨h, rfl⟩ | ⟨h, rfl⟩ | ⟨h, rfl⟩ <;> rw [h] <;> decide
    rw [finishOp_init_next h0 hnext.1]
    exact ⟨rfl, hnext.2, rfl, rfl⟩
  · rw [finishOp_init_last h0 (by rw [h8]; decide)]
    exact ⟨rfl, rfl, rfl, rfl⟩
  · rw [finishOp_string h4]
    exact ⟨rfl, rfl, rfl, rfl⟩
  · rw [finishOp_single h0 h4]
    exact ⟨rfl, rfl, rfl, rfl⟩

/-! ### The address -/

/-- Settles O35: the address is the sum modulo 128, whatever it is cut to before. -/
theorem addressDependsOnColumnMod128 : Obligations.AddressDependsOnColumnMod128 := by
  intro row col
  refine ⟨ddramAddress_toNat row col, BitVec.eq_of_toNat_eq ?_, fun col' hcol => BitVec.eq_of_toNat_eq ?_⟩
  · rw [ddramAddress_toNat, BitVec.toNat_setWidth, BitVec.toNat_add]
    omega
  · rw [ddramAddress_toNat, ddramAddress_toNat]
    omega

end Sys2Proof.Machine
end

section
/-!
PROOFS. The execution unit (O25 to O29): what segments and whole words do, and that a word is its segments.
-/
namespace Sys2Proof.Machine

/-! ### Segments and words as record updates -/

theorem exec_segWrite {s : State} (rs : Rs) (v : Nibble) (hn : s.xuWrites < 2) :
    exec (.segWrite rs v) s = .next (xuWrite rs v s) := if_pos hn

theorem exec_segWrite_third {s : State} (rs : Rs) (v : Nibble) (hn : 2 ≤ s.xuWrites) :
    exec (.segWrite rs v) s = .refused .thirdWriteSegment := if_neg (Nat.not_lt.2 hn)

/-- Settles O25: the record equation of the write segment, and the refusal of a third. -/
theorem segWriteReplaysOneNibble : Obligations.SegWriteReplaysOneNibble := by
  intro s rs v p es
  refine ⟨fun hn => ?_, exec_segWrite_third rs v⟩
  rw [exec_segWrite rs v hn, xuWrite_eq]
  rfl

/-- Settles O26: both forms are the unit's delay. -/
theorem segDelayEndsTheWord : Obligations.SegDelayEndsTheWord := by
  intro s d t
  have hdelay : xuDelay d s = t := xuDelay_eq d s
  exact ⟨congrArg Host.Outcome.next hdelay, congrArg Host.Outcome.next hdelay⟩

/-- Settles O27: a word is its writes and its delay, one after the other. -/
theorem commandWordsReplayInOrder : Obligations.CommandWordsReplayInOrder := by
  intro s rs r2 v v2 d p one last
  refine ⟨?_, ?_⟩
  · rw [exec, execCwNibble, xuDelay_eq, xuWrite_eq]
    rfl
  · rw [exec, execCwByte, xuDelay_eq, xuWrite_eq, xuWrite_eq, List.foldl_append, ← BitVec.shiftRight_add]
    rfl

/-- Settles O28: of the four shapes of a word the malformed one alone is refused. -/
theorem malformedWordIsRefused : Obligations.MalformedWordIsRefused := by
  refine ⟨fun s w => rfl, fun s w => ⟨fun ⟨r, hr⟩ => ?_, fun ⟨h0, h6, h12⟩ => ?_⟩⟩
  · by_contra hshape
    have hwell : isMalformed w = false := by
      rw [Bool.eq_false_iff]
      intro hm
      exact hshape (by simpa [isMalformed, firstMarker, secondMarker, thirdMarker, and_assoc] using hm)
    obtain ⟨t, ht⟩ := wellShaped_answers s hwell
    rw [ht] at hr
    cases hr
  · exact ⟨_, by rw [decodeCommandWord_malformed h0 h6 h12]; rfl⟩

/-! ### A run of XU's moves -/

theorem xuWrite_withSched (l : List Move) (rs : Rs) (v : Nibble) (s : State) :
    xuWrite rs v { s with sched := l } = { xuWrite rs v s with sched := l } := by
  rw [xuWrite_eq, xuWrite_eq]

theorem xuDelay_withSched (l : List Move) (d : Delay) (s : State) :
    xuDelay d { s with sched := l } = { xuDelay d s with sched := l } := by
  rw [xuDelay_eq, xuDelay_eq]

theorem run_load {s : State} {w : CmdWord} {q : List CmdWord} {l : List Move} {k : Nat} (hr : s.xuRun = true)
    (hh : s.xuHave = false) (hq : s.queue = w :: q) :
    Host.Core.run Sys2Proof.core (k + 1) { s with sched := .xu :: l } =
      Host.Core.run Sys2Proof.core k { xuLoad w s with sched := l } := by
  refine run_succ ?_
  rw [step_xu rfl, xuAction_load (s := { s with sched := l }) hr hh hq]
  rfl

theorem step_xu_segment {s : State} {l : List Move} (hr : s.xuRun = true) (hh : s.xuHave = true) :
    step { s with sched := .xu :: l } = runWord (segmentOf s.xuOsr) { s with sched := l } :=
  step_segment (s := { s with sched := .xu :: l }) hr (by simp) rfl hh

theorem run_write {s : State} {l : List Move} {k : Nat} (hr : s.xuRun = true) (hh : s.xuHave = true)
    (hm : s.xuOsr.getLsbD 0 = true) (hn : s.xuWrites < 2) :
    Host.Core.run Sys2Proof.core (k + 1) { s with sched := .xu :: l } =
      Host.Core.run Sys2Proof.core k
        { xuWrite (s.xuOsr.extractLsb' 5 1) (s.xuOsr.extractLsb' 1 4) s with sched := l } := by
  refine run_succ ?_
  rw [step_xu_segment hr hh]
  refine (act_segment (s := { s with sched := l })).trans ?_
  rw [if_pos hm, exec_segWrite (s := { s with sched := l }) _ _ hn, xuWrite_withSched]

theorem run_delay {s : State} {l : List Move} {k : Nat} (hr : s.xuRun = true) (hh : s.xuHave = true)
    (hm : s.xuOsr.getLsbD 0 = false) :
    Host.Core.run Sys2Proof.core (k + 1) { s with sched := .xu :: l } =
      Host.Core.run Sys2Proof.core k { xuDelay (s.xuOsr.extractLsb' 1 19) s with sched := l } := by
  refine run_succ ?_
  rw [step_xu_segment hr hh]
  refine (act_segment (s := { s with sched := l })).trans ?_
  rw [if_neg (by rw [hm]; decide)]
  exact congrArg Host.Outcome.next (xuDelay_withSched ..)

theorem run_third_write {s : State} {l : List Move} {k : Nat} (hr : s.xuRun = true) (hh : s.xuHave = true)
    (hm : s.xuOsr.getLsbD 0 = true) (hn : 2 ≤ s.xuWrites) :
    Host.Core.run Sys2Proof.core (k + 1) { s with sched := .xu :: l } = .refused .thirdWriteSegment := by
  refine run_refused ?_
  rw [step_xu_segment hr hh]
  refine (act_segment (s := { s with sched := l })).trans ?_
  rw [if_pos hm, exec_segWrite_third (s := { s with sched := l }) _ _ hn]

theorem step_word {s : State} {w : CmdWord} {q : List CmdWord} {l : List Move} (hr : s.xuRun = true)
    (hh : s.xuHave = false) (hq : s.queue = w :: q) :
    step { s with sched := .xuWord :: l } = exec (decodeCommandWord w) { xuLoad w s with sched := l } := by
  rw [step_xuWord rfl, xuWordAction_word (s := { s with sched := l }) hr hh hq]
  rfl

theorem execCwNibble_withSched (l : List Move) (rs : Rs) (v : Nibble) (d : Delay) (s : State) :
    execCwNibble rs v d { s with sched := l } = .next { xuDelay d (xuWrite rs v s) with sched := l } := by
  rw [execCwNibble, xuWrite_withSched l, xuDelay_withSched l]

theorem execCwByte_withSched (l : List Move) (r1 r2 : Rs) (v1 v2 : Nibble) (d : Delay) (s : State) :
    execCwByte r1 v1 r2 v2 d { s with sched := l } =
      .next { xuDelay d (xuWrite r2 v2 (xuWrite r1 v1 s)) with sched := l } := by
  rw [execCwByte, xuWrite_withSched l r1 v1 s, xuWrite_withSched l r2 v2 (xuWrite r1 v1 s), xuDelay_withSched l]

/-- The word's later markers and fields, in the shift register after its first segments (R105). -/
theorem xuWrite_marker {s : State} (rs : Rs) (v : Nibble) {i : Nat} {b : Bool} (h : s.xuOsr.getLsbD (6 + i) = b) :
    (xuWrite rs v s).xuOsr.getLsbD i = b := by
  rw [xuWrite_xuOsr, BitVec.getLsbD_ushiftRight, h]

/-- Settles O29: the fetch, then the segments the word's shape has. -/
theorem wholeWordIsItsSegments : Obligations.WholeWordIsItsSegments := by
  intro s w q rest hr hh hq
  refine ⟨fun n hn => ?_, fun h0 h6 h12 => ?_⟩
  · rw [step_word hr hh hq]
    rcases hn with ⟨h0, rfl⟩ | ⟨h0, h6, rfl⟩ | ⟨h0, h6, h12, rfl⟩
    · have hsegments := (run_load (l := .xu :: rest) (k := 1) hr hh hq).trans (run_delay (s := xuLoad w s) hr rfl h0)
      rw [decodeCommandWord_delay h0, exec, execCwDelayOnly, xuDelay_withSched]
      exact hsegments.symm
    · have hsegments := ((run_load (l := .xu :: .xu :: rest) (k := 2) hr hh hq).trans
        (run_write (s := xuLoad w s) hr rfl h0 (by simp))).trans
        (run_delay (by simpa using hr) (by simp) (xuWrite_marker _ _ h6))
      simp only [xuWrite_xuOsr, xuLoad_xuOsr, extract_ushiftRight, Nat.reduceAdd] at hsegments
      rw [decodeCommandWord_nibble h0 h6, exec, execCwNibble_withSched]
      exact hsegments.symm
    · have hsegments := (((run_load (l := .xu :: .xu :: .xu :: rest) (k := 3) hr hh hq).trans
        (run_write (s := xuLoad w s) hr rfl h0 (by simp))).trans
        (run_write (by simpa using hr) (by simp) (xuWrite_marker _ _ h6) (by simp))).trans
        (run_delay (by simpa using hr) (by simp) (xuWrite_marker _ _ (xuWrite_marker _ _ h12)))
      simp only [xuWrite_xuOsr, xuLoad_xuOsr, extract_ushiftRight, Nat.reduceAdd] at hsegments
      rw [decodeCommandWord_byte h0 h6 h12, exec, execCwByte_withSched]
      exact hsegments.symm
  · refine ⟨?_, ?_⟩
    · rw [step_word hr hh hq, decodeCommandWord_malformed h0 h6 h12]
      rfl
    · exact (((run_load (l := .xu :: .xu :: .xu :: rest) (k := 3) hr hh hq).trans
        (run_write (s := xuLoad w s) hr rfl h0 (by simp))).trans
        (run_write (by simpa using hr) (by simp) (xuWrite_marker _ _ h6) (by simp))).trans
        (run_third_write (by simpa using hr) (by simp) (xuWrite_marker _ _ (xuWrite_marker _ _ h12)) (by simp))

end Sys2Proof.Machine
end

section
/-!
PROOFS. The stages of a request in progress (R66, R68 to R73, R75 to R78): at each, what it has still to issue and to ask of
the host's side, and what one move of the FSM does about it. The whole requests (O43 to O47) follow.
-/
namespace Sys2Proof.Machine

/-! ### Issuing and performing one operation, whatever its kind -/

/-- The Facade issues an operation (R75, R76). -/
def issueOp : TransportOp → State → State
  | .nibble rs v d => issueNibble rs v d
  | .byte rs b d => issueByte rs b d

/-- The latches hold an operation for the transport (R14, R75). -/
def Latches (s : State) : TransportOp → Prop
  | .nibble rs v d => s.phase = .opNibble ∧ s.tRs = rs ∧ lowNibble s.tVal = v ∧ s.tDly = d
  | .byte rs b d => s.phase = .opByte ∧ s.tRs = rs ∧ s.tVal = b ∧ s.tDly = d

/-- The transport's part of an operation: its events in DIRECT, its word in SEQ (R85, R90, R97, R98). -/
def performOp (op : TransportOp) (s : State) : State :=
  match s.cfg.backend with
  | .direct => perform (directEvents s.cfg.pins op) s
  | .seq => push (opWord op) s

/-- What an operation adds to the host-side log. -/
def pushEvents (c : Configuration) (op : TransportOp) : List HostEvent :=
  match c.backend with
  | .direct => []
  | .seq => [.push (opWord op)]

theorem latches_issueOp (op : TransportOp) (s : State) : Latches (issueOp op s) op := by
  cases op with
  | nibble rs v d => exact ⟨rfl, rfl, lowNibble_issued .., rfl⟩
  | byte rs b d => exact ⟨rfl, rfl, rfl, rfl⟩

theorem act_latches {s : State} {op : TransportOp} (h : Latches s op) (hf : s.fault = .none) :
    act (fsmAction s) s = match s.cfg.backend with
      | .direct => .next (performThen (directEvents s.cfg.pins op) s)
      | .seq => .next (pushOrWait (opWord op) s) := by
  cases op with
  | nibble rs v d =>
    obtain ⟨hp, rfl, rfl, rfl⟩ := h
    rw [fsmAction_opNibble hf hp]
    exact act_run (w := .top24 (nibbleLatches s)) (congrArg Decoded.ok (decodeNibbleOp_latches s))
  | byte rs b d =>
    obtain ⟨hp, rfl, rfl, rfl⟩ := h
    rw [fsmAction_opByte hf hp]
    exact act_run (w := .top28 (byteLatches s)) (congrArg Decoded.ok (decodeByteOp_latches s))

theorem act_latches_room {s : State} {op : TransportOp} (h : Latches s op) (hf : s.fault = .none)
    (hroom : s.cfg.backend = .seq → s.queue.length < s.cfg.qdepth) :
    act (fsmAction s) s = .next (finishOp (performOp op s)) := by
  rw [act_latches h hf, performOp]
  cases hb : s.cfg.backend with
  | direct => rfl
  | seq => simp only [pushOrWait_room (hroom hb)]

/-! ### What is sent, and as which operation (R56, R66, R68 to R70, R72) -/

/-- At this place and INIT step the FSM's next move issues `op`. -/
def SendsOp (p : Phase) (n : BitVec 4) (op : TransportOp) : Prop :=
  ∀ s : State, s.phase = p → s.step = n → s.fault = .none → act (fsmAction s) s = .next (issueOp op s)

theorem sendsOp_byte {w : BitVec 9} {i : Instr} {op : TransportOp} (n : BitVec 4) (hd : decodeOutByte w = .ok i)
    (hi : ∀ s : State, exec i s = .next (issueOp op s)) : SendsOp (.send8 w) n op := by
  intro s hp _ hf
  rw [fsmAction_send8 hf hp, act_run (w := .out8 w) hd, hi]

theorem sendsOp_clear (n : BitVec 4) : SendsOp (.send8 0x01#9) n (.byte 0 0x01 2000) :=
  sendsOp_byte n (i := .outClear) (by decide) fun _ => rfl

theorem sendsOp_home (n : BitVec 4) : SendsOp (.send8 0x02#9) n (.byte 0 0x02 1600) :=
  sendsOp_byte n (i := .outHome) (by decide) fun _ => rfl

theorem sendsOp_setDdram (n : BitVec 4) (a : BitVec 7) :
    SendsOp (.send8 (setDdramOut a)) n (.byte 0 (setDdramByte a) 40) :=
  sendsOp_byte n (decodeOutByte_setDdram a) fun _ => rfl

theorem sendsOp_data (n : BitVec 4) (c : Byte) : SendsOp (.send8 (dataOut c)) n (.byte 1 c 40) :=
  sendsOp_byte n (decodeOutByte_data c) fun _ => rfl

theorem sendsOp_wake {n : BitVec 4} {d : Delay} (hd : wakeDelay n = d) :
    SendsOp (.send4 0x03#5) n (.nibble 0 0x3 d) := by
  intro s hp hn hf
  rw [fsmAction_send4 hf hp, act_run (i := .outWakeNibble) rfl, exec, execOutWakeNibble, hn, hd]
  rfl

theorem sendsOp_mode4 (n : BitVec 4) : SendsOp (.send4 0x02#5) n (.nibble 0 0x2 40) := by
  intro s hp _ hf
  rw [fsmAction_send4 hf hp, act_run (i := .outMode4Nibble) rfl]
  rfl

/-- INIT's step `k + 1` sends the operation at place `k` of its eight. -/
theorem sendsOp_handshake (k : Nat) (h : k < initOps.length) :
    SendsOp (handshake (BitVec.ofNat 4 (k + 1))) (BitVec.ofNat 4 (k + 1)) initOps[k] := by
  have hk : k < 8 := h
  interval_cases k
  · exact sendsOp_wake rfl
  · exact sendsOp_wake rfl
  · exact sendsOp_wake rfl
  · exact sendsOp_mode4 _
  · exact sendsOp_byte _ (i := .outFunctionSet) (by decide) fun _ => rfl
  · exact sendsOp_byte _ (i := .outDisplayControl) (by decide) fun _ => rfl
  · exact sendsOp_byte _ (i := .outEntryMode) (by decide) fun _ => rfl
  · exact sendsOp_clear _

/-! ### The stages -/

/-- From `ptr` on the string memory holds characters sent as `ops` and then a sentinel; `hosts` are the reads, each
character's followed by the push of its word in SEQ (R72, R73, R98). -/
inductive StringFrom (c : Configuration) (mem : Memory) : StrAddr → List TransportOp → List HostEvent → Prop
  | stop (ptr : StrAddr) (h : mem.read ptr.toNat = sentinel) : StringFrom c mem ptr [] [.memRead ptr]
  | char (ptr : StrAddr) (b : Byte) {ops : List TransportOp} {hosts : List HostEvent} (h : mem.read ptr.toNat = b)
      (hb : b ≠ sentinel) (ht : StringFrom c mem (ptr + 1) ops hosts) :
    StringFrom c mem ptr (.byte 1 b 40 :: ops) (.memRead ptr :: (pushEvents c (.byte 1 b 40) ++ hosts))

/-- What follows the operation the request is at: the later steps of INIT, the later characters, nothing (R66, R72, R77). -/
inductive Continues (s : State) : List TransportOp → List HostEvent → Prop
  | init (hop : s.reqOp = 0) (k : Nat) (hk : k < initOps.length) (hs : s.step = BitVec.ofNat 4 (k + 1)) :
    Continues s (initOps.drop (k + 1)) ((initOps.drop (k + 1)).flatMap (pushEvents s.cfg))
  | string (hop : s.reqOp = 4) {ops : List TransportOp} {hosts : List HostEvent}
      (h : StringFrom s.cfg s.strMem (s.strPtr + 1) ops hosts) : Continues s ops hosts
  | single (h0 : s.reqOp ≠ 0) (h4 : s.reqOp ≠ 4) : Continues s [] []

/-- Where a request stands: the operation in the latches if any, the operations still to issue, the host-side events still
to come. -/
inductive Stage (s : State) : List TransportOp → List TransportOp → List HostEvent → Prop
  | complete (hp : s.phase = .idle) (hb : s.busy = false) (hs : s.step = 0) : Stage s [] [] []
  | read (hp : s.phase = .fetchChar) (hop : s.reqOp = 4) {ops : List TransportOp} {hosts : List HostEvent}
      (h : StringFrom s.cfg s.strMem s.strPtr ops hosts) : Stage s [] ops hosts
  | send {op : TransportOp} {ops : List TransportOp} {hosts : List HostEvent}
      (hp : (∃ w, s.phase = .send8 w) ∨ ∃ w, s.phase = .send4 w)
      (hsend : SendsOp s.phase s.step op) (hc : Continues s ops hosts) :
    Stage s [] (op :: ops) (pushEvents s.cfg op ++ hosts)
  | latched {op : TransportOp} {ops : List TransportOp} {hosts : List HostEvent} (hl : Latches s op)
      (hc : Continues s ops hosts) : Stage s [op] ops (pushEvents s.cfg op ++ hosts)

/-- A stage speaks of the FSM's registers, the configuration and the string memory. -/
structure SameRequest (s t : State) : Prop where
  cfg    : t.cfg = s.cfg
  reqOp  : t.reqOp = s.reqOp
  strPtr : t.strPtr = s.strPtr
  step   : t.step = s.step
  strMem : t.strMem = s.strMem

theorem Continues.congr {s t : State} {ops : List TransportOp} {hosts : List HostEvent} (h : Continues s ops hosts)
    (hst : SameRequest s t) : Continues t ops hosts := by
  obtain ⟨hcfg, hreq, hptr, hstep, hmem⟩ := hst
  cases h with
  | init hop k hk hs => exact hcfg ▸ .init (hreq.trans hop) k hk (hstep.trans hs)
  | string hop h => exact .string (hreq.trans hop) (by rwa [hcfg, hmem, hptr])
  | single h0 h4 => exact .single (hreq ▸ h0) (hreq ▸ h4)

theorem Stage.congr {s t : State} {latched todo : List TransportOp} {hosts : List HostEvent}
    (h : Stage s latched todo hosts) (hst : SameRequest s t) (hphase : t.phase = s.phase) (hbusy : t.busy = s.busy)
    (hlatches : ∀ op, Latches s op → Latches t op) : Stage t latched todo hosts := by
  have hcfg := hst.cfg
  cases h with
  | complete hp hb hs => exact .complete (hphase.trans hp) (hbusy.trans hb) (hst.step.trans hs)
  | read hp hop h => exact .read (hphase.trans hp) (hst.reqOp.trans hop) (by rwa [hcfg, hst.strMem, hst.strPtr])
  | send hp hsend hc => exact hcfg ▸ .send (by rwa [hphase]) (by rwa [hphase, hst.step]) (hc.congr hst)
  | latched hl hc => exact hcfg ▸ .latched (hlatches _ hl) (hc.congr hst)

theorem Stage.withSched {s : State} {latched todo : List TransportOp} {hosts : List HostEvent}
    (h : Stage s latched todo hosts) (l : List Move) : Stage { s with sched := l } latched todo hosts :=
  h.congr ⟨rfl, rfl, rfl, rfl, rfl⟩ rfl rfl fun op hl => by cases op <;> exact hl

/-- XU moves no request on. -/
theorem Stage.unitFrame {s t : State} {latched todo : List TransportOp} {hosts : List HostEvent}
    (h : Stage s latched todo hosts) (hst : UnitFrame s t) : Stage t latched todo hosts := by
  obtain ⟨_, _, _, _, _, _, rfl⟩ := hst
  exact h.congr ⟨rfl, rfl, rfl, rfl, rfl⟩ rfl rfl fun op hl => by cases op <;> exact hl

/-! ### What the logs gain -/

/-- From `s` to `t` the FSM, in the middle of a request, issued and finished these operations and had these host-side
events. -/
structure Logged (s t : State) (issued finished : List TransportOp) (hosts : List HostEvent) : Prop where
  cfg      : t.cfg = s.cfg
  fault    : t.fault = s.fault
  bound    : t.bound = s.bound
  requests : t.requests = s.requests
  strMem   : t.strMem = s.strMem
  reqOp    : t.reqOp = s.reqOp
  tlog     : t.tlog = s.tlog ++ issued
  hostLog  : t.hostLog = s.hostLog ++ hosts
  seq      : s.cfg.backend = .seq → t.qlog = s.qlog ++ finished.map opWord
  direct   : s.cfg.backend = .direct →
    t.ptrace = s.ptrace ++ finished.flatMap (directEvents s.cfg.pins) ∧ t.qlog = s.qlog
  string   : s.reqOp = 4 → t.strPtr = s.strPtr + BitVec.ofNat 32 finished.length

theorem Logged.refl (s : State) : Logged s s [] [] [] := by
  constructor <;> simp

theorem Logged.trans {s t u : State} {issued issued' finished finished' : List TransportOp}
    {hosts hosts' : List HostEvent} (h : Logged s t issued finished hosts) (h' : Logged t u issued' finished' hosts') :
    Logged s u (issued ++ issued') (finished ++ finished') (hosts ++ hosts') where
  cfg := h'.cfg.trans h.cfg
  fault := h'.fault.trans h.fault
  bound := h'.bound.trans h.bound
  requests := h'.requests.trans h.requests
  strMem := h'.strMem.trans h.strMem
  reqOp := h'.reqOp.trans h.reqOp
  tlog := by rw [h'.tlog, h.tlog, List.append_assoc]
  hostLog := by rw [h'.hostLog, h.hostLog, List.append_assoc]
  seq hs := by rw [h'.seq (by rw [h.cfg, hs]), h.seq hs, List.map_append, List.append_assoc]
  direct hd := by
    obtain ⟨hptrace, hqlog⟩ := h.direct hd
    obtain ⟨hptrace', hqlog'⟩ := h'.direct (by rw [h.cfg, hd])
    exact ⟨by rw [hptrace', hptrace, h.cfg, List.flatMap_append, List.append_assoc], hqlog'.trans hqlog⟩
  string hop := by
    rw [h'.string (h.reqOp.trans hop), h.string hop, List.length_append, BitVec.ofNat_add, BitVec.add_assoc]

theorem Logged.withSched {s t : State} {issued finished : List TransportOp} {hosts : List HostEvent}
    (h : Logged s t issued finished hosts) (l : List Move) : Logged s { t with sched := l } issued finished hosts := by
  cases h
  constructor <;> assumption

theorem issueOp_logged (op : TransportOp) (s : State) : Logged s (issueOp op s) [op] [] [] := by
  cases op <;> constructor <;> simp [issueOp]

theorem readChar_logged (s : State) : Logged s (readChar s) [] [] [.memRead s.strPtr] := by
  constructor <;> simp

/-- Performing an operation and going on is what finishes it, and what its word or its events are logged for. -/
theorem finishOp_logged (op : TransportOp) (s : State) :
    Logged s (finishOp (performOp op s)) [] [op] (pushEvents s.cfg op) := by
  have hptr {u : State} (hop : u.reqOp = 4) : (finishOp u).strPtr = u.strPtr + 1 := by rw [finishOp_string hop]
  cases hb : s.cfg.backend with
  | direct => constructor <;> simp_all [performOp, pushEvents]
  | seq => constructor <;> simp_all [performOp, pushEvents]

/-! ### One move of the FSM in the middle of a request -/

theorem sameRequest_performOp (op : TransportOp) (s : State) : SameRequest s (performOp op s) := by
  unfold performOp
  split <;> constructor <;> simp

/-- Where the request stands when the transport has finished an operation (R66, R72, R77). -/
theorem Continues.stage_finishOp {s : State} {ops : List TransportOp} {hosts : List HostEvent} (h : Continues s ops hosts) :
    Stage (finishOp s) [] ops hosts := by
  cases h with
  | init hop k hk hs =>
    have h8 : k < 8 := hk
    have hstep : s.step.toNat = k + 1 := by
      rw [hs, BitVec.toNat_ofNat, Nat.mod_eq_of_lt (by omega)]
    by_cases hlast : k + 1 < initOps.length
    · have hnext : s.step + 1 = BitVec.ofNat 4 (k + 1 + 1) := by rw [hs]; exact (BitVec.ofNat_add (k + 1) 1).symm
      have hk8 : s.step.toNat < 8 := by rw [hstep]; exact hlast
      rw [finishOp_init_next hop hk8, hnext, List.drop_eq_getElem_cons hlast, List.flatMap_cons]
      have hsend := sendsOp_handshake (k + 1) hlast
      refine .send (s := gotoStep _ s) ?_ hsend (.init (s := gotoStep _ s) hop (k + 1) hlast rfl)
      rw [gotoStep_phase, ← hnext]
      exact (handshake_cases _).resolve_left (handshake_succ _ hk8).1
    · have hend : initOps.length ≤ k + 1 := Nat.le_of_not_lt hlast
      rw [finishOp_init_last hop (by rw [hstep]; exact hlast), List.drop_eq_nil_of_le hend]
      exact .complete rfl rfl rfl
  | string hop h =>
    rw [finishOp_string hop]
    exact .read (s := { s with strPtr := s.strPtr + 1, phase := .fetchChar }) rfl hop h
  | single h0 h4 =>
    rw [finishOp_single h0 h4]
    exact .complete rfl rfl rfl

/-- At a character read the request completes or sends the character (R72, R73). -/
theorem StringFrom.stage_readChar {s : State} {ops : List TransportOp} {hosts : List HostEvent} (hop : s.reqOp = 4)
    (h : StringFrom s.cfg s.strMem s.strPtr ops hosts) :
    ∃ hosts', hosts = .memRead s.strPtr :: hosts' ∧ Stage (readChar s) [] ops hosts' := by
  cases h with
  | stop _ hc =>
    rw [readChar_sentinel hc]
    exact ⟨_, rfl, .complete rfl rfl rfl⟩
  | char _ b hb hne ht =>
    rw [readChar_char (hb ▸ hne), hb]
    exact ⟨_, rfl, .send (s := sendByte (dataOut b) { s with hostLog := s.hostLog ++ [.memRead s.strPtr] }) (.inl ⟨_, rfl⟩)
      (sendsOp_data _ b) (.string (s := sendByte _ { s with hostLog := s.hostLog ++ _ }) hop ht)⟩

end Sys2Proof.Machine
end

section
/-!
PROOFS. Whole requests by moves of the FSM alone (O43 to O46): where a request in progress stands, one move of it, its
acceptance, and the run to its end.
-/
namespace Sys2Proof.Machine

/-! ### A request in progress -/

/-- The moves of the FSM to the end of a request: two for an operation to issue, one for the operation in the latches, one
for a read. -/
def stageMoves (latched todo : List TransportOp) (hosts : List HostEvent) : Nat :=
  2 * todo.length + latched.length + (hosts.filterMap HostEvent.readAddr).length

/-- From `b`, where it had to issue `ops` with the host-side events `hosts`, a request has come to `t`, `n` moves of the
FSM before its end. -/
def Underway (b : State) (ops : List TransportOp) (hosts : List HostEvent) (t : State) (n : Nat) : Prop :=
  ∃ issued finished asked latched todo rest, Logged b t issued finished asked ∧ Stage t latched todo rest ∧
    ops = issued ++ todo ∧ issued = finished ++ latched ∧ hosts = asked ++ rest ∧ n = stageMoves latched todo rest

theorem Stage.underway {b : State} {ops : List TransportOp} {hosts : List HostEvent} (h : Stage b [] ops hosts) :
    Underway b ops hosts b (stageMoves [] ops hosts) :=
  ⟨[], [], [], [], ops, hosts, .refl b, h, rfl, rfl, rfl, rfl⟩

theorem pushEvents_reads (c : Configuration) (op : TransportOp) :
    (pushEvents c op).filterMap HostEvent.readAddr = [] := by
  unfold pushEvents
  split <;> rfl

section
variable {b t : State} {ops : List TransportOp} {hosts : List HostEvent} {n : Nat}

theorem Underway.withSched (h : Underway b ops hosts t n) (l : List Move) :
    Underway b ops hosts { t with sched := l } n := by
  obtain ⟨issued, finished, asked, latched, todo, rest, hlog, hstage, hrest⟩ := h
  exact ⟨issued, finished, asked, latched, todo, rest, hlog.withSched l, hstage.withSched l, hrest⟩

/-- With no move left the request is complete and all of it is logged (R77). -/
theorem Underway.complete (h : Underway b ops hosts t 0) :
    Logged b t ops ops hosts ∧ t.phase = .idle ∧ t.busy = false ∧ t.step = 0 := by
  obtain ⟨issued, finished, asked, latched, todo, rest, hlog, hstage, rfl, rfl, rfl, hn⟩ := h
  cases hstage with
  | complete hp hb hs => exact ⟨by simpa using hlog, hp, hb, hs⟩
  | read hp hop h => cases h <;> simp [stageMoves] at hn
  | send | latched =>
    simp [stageMoves] at hn
    omega

/-- A request that is not busy has no move left. -/
theorem Underway.idle (h : Underway b ops hosts t n) : n = 0 ∨ t.phase ≠ .idle := by
  obtain ⟨issued, finished, asked, latched, todo, rest, -, hstage, -, -, -, rfl⟩ := h
  cases hstage with
  | complete => exact .inl rfl
  | read hp hop h => exact .inr (by simp [hp])
  | send hp => exact .inr (by rcases hp with ⟨w, hp⟩ | ⟨w, hp⟩ <;> simp [hp])
  | @latched op ops hosts hl hc =>
    refine .inr ?_
    cases op with
    | nibble | byte => simp [hl.1]

/-- A move of the FSM brings a request in progress on by one, unless the queue has no room for its word (R66, R72, R75,
R97 to R99). -/
theorem Underway.fsm_move (h : Underway b ops hosts t (n + 1)) (hf : b.fault = .none)
    (hroom : blocked t = false) : ∃ u, act (fsmAction t) t = .next u ∧ Underway b ops hosts u n := by
  obtain ⟨issued, finished, asked, latched, todo, rest, hlog, hstage, rfl, rfl, rfl, hn⟩ := h
  have hft : t.fault = .none := hlog.fault.trans hf
  cases hstage with
  | complete => simp [stageMoves] at hn
  | read hp hop h =>
    obtain ⟨rest', rfl, hstage⟩ := h.stage_readChar hop
    refine ⟨readChar t, by rw [fsmAction_fetchChar hft hp, act], _, _, _, _, _, _,
      hlog.trans (readChar_logged t), hstage, ?_, ?_, ?_, ?_⟩
    · simp
    · simp
    · simp
    · simp [stageMoves] at hn ⊢; omega
  | @send op todo rest hp hsend hc =>
    refine ⟨issueOp op t, hsend t rfl rfl hft, _, _, _, _, _, _, hlog.trans (issueOp_logged op t),
      .latched (latches_issueOp op t) (hc.congr (by cases op <;> exact ⟨rfl, rfl, rfl, rfl, rfl⟩)), ?_, ?_, ?_, ?_⟩
    · simp
    · simp
    · cases op <;> simp [issueOp]
    · simp [stageMoves, pushEvents_reads] at hn ⊢; omega
  | @latched op todo rest hl hc =>
    have hroom' : t.cfg.backend = .seq → t.queue.length < t.cfg.qdepth := by
      intro hseq
      by_contra hfull
      refine Bool.false_ne_true (hroom.symm.trans (blocked_iff.2 ⟨hseq, Nat.le_of_not_lt hfull, ?_⟩))
      cases op with
      | nibble => exact .inl hl.1
      | byte => exact .inr hl.1
    refine ⟨finishOp (performOp op t), act_latches_room hl hft hroom', _, _, _, _, _, _,
      hlog.trans (finishOp_logged op t), (hc.congr (sameRequest_performOp op t)).stage_finishOp, ?_, ?_, ?_, ?_⟩
    · simp
    · simp
    · simp
    · simp [stageMoves, pushEvents_reads] at hn ⊢; omega

end

/-! ### Acceptance (R65) -/

/-- The host-side events of a request that issues `ops`: the pushes, and of WRITE_STRING a read before each and one more. -/
def hostEventsOf (c : Configuration) (i : Instr) (ops : List TransportOp) : List HostEvent :=
  match i with
  | .writeString ptr =>
    (ops.zipIdx.flatMap fun p => .memRead (ptr + BitVec.ofNat 32 p.2) :: pushEvents c p.1) ++
      [.memRead (ptr + BitVec.ofNat 32 ops.length)]
  | _ => ops.flatMap (pushEvents c)

/-- What the acceptance of request `i` leaves at `b`. -/
structure Began (s : State) (i : Instr) (b : State) : Prop where
  cfg      : b.cfg = s.cfg
  fault    : b.fault = s.fault
  bound    : b.bound = true
  requests : b.requests = s.requests
  strMem   : b.strMem = s.strMem
  sched    : b.sched = s.sched
  queue    : b.queue = s.queue
  tlog     : b.tlog = s.tlog
  qlog     : b.qlog = s.qlog
  ptrace   : b.ptrace = s.ptrace ++ if s.bound then [] else [.configureOutputs (maskAll s.cfg.pins)]
  reads    : b.hostLog.filterMap HostEvent.readAddr = s.hostLog.filterMap HostEvent.readAddr
  hosts    : s.bound = true → b.hostLog = s.hostLog
  pins     : s.bound = true → b.pins = s.pins
  string   : ∀ ptr, i = .writeString ptr → b.reqOp = 4 ∧ b.strPtr = ptr

theorem bindTransport_reads (s : State) :
    (bindTransport s).hostLog.filterMap HostEvent.readAddr = s.hostLog.filterMap HostEvent.readAddr := by
  cases hb : s.bound with
  | true => rw [bindTransport_of_bound hb]
  | false =>
    cases hd : s.cfg.backend with
    | direct => simp [bindTransport_direct hb hd]
    | seq => simp [bindTransport_seq hb hd, List.filterMap_append]

theorem bindTransport_trace (s : State) :
    (bindTransport s).ptrace = s.ptrace ++ if s.bound then [] else [.configureOutputs (maskAll s.cfg.pins)] := by
  cases hb : s.bound with
  | true => simp [bindTransport_of_bound hb]
  | false => simp [bindTransport_ptrace_unbound hb]

theorem init_began (s : State) : Began s .init (gotoStep 1 (bindTransport (accept 0 s))) where
  cfg := by simp
  fault := by simp
  bound := by simp
  requests := by simp
  strMem := by simp
  sched := by simp
  queue := by simp
  tlog := by simp
  qlog := by simp
  ptrace := bindTransport_trace (accept 0 s)
  reads := by simpa using bindTransport_reads (accept 0 s)
  hosts hb := by rw [bindTransport_of_bound (s := accept 0 s) hb]; rfl
  pins hb := by rw [bindTransport_of_bound (s := accept 0 s) hb]; rfl
  string := by simp

/-- A request other than INIT changes the FSM's registers of 10_state.md section 3 alone. -/
theorem RequestFrame.began {s b : State} {i : Instr} (h : RequestFrame s b) (hb : s.bound = true)
    (hf : b.fault = s.fault) (hstring : ∀ ptr, i = .writeString ptr → b.reqOp = 4 ∧ b.strPtr = ptr) : Began s i b := by
  obtain ⟨_, _, _, _, _, _, _, rfl⟩ := h
  exact ⟨rfl, hf, hb, rfl, rfl, rfl, rfl, rfl, rfl, by simp [hb], rfl, fun _ => rfl, fun _ => rfl, hstring⟩

/-- The characters from place `k` of a string on, and its sentinel. -/
theorem stringFrom_characters (c : Configuration) {mem : Memory} {ptr : StrAddr} {cs : List Byte} {k : Nat}
    (hc : ∀ b ∈ cs, b ≠ sentinel)
    (hm : ∀ j (hj : j < cs.length), mem.read (ptr + BitVec.ofNat 32 (k + j)).toNat = cs[j])
    (he : mem.read (ptr + BitVec.ofNat 32 (k + cs.length)).toNat = sentinel) :
    StringFrom c mem (ptr + BitVec.ofNat 32 k) (cs.map fun b => .byte 1 b 40)
      ((((cs.map fun b => TransportOp.byte 1 b 40).zipIdx k).flatMap fun p =>
        .memRead (ptr + BitVec.ofNat 32 p.2) :: pushEvents c p.1) ++ [.memRead (ptr + BitVec.ofNat 32 (k + cs.length))]) := by
  induction cs generalizing k with
  | nil => exact .stop _ (by simpa using he)
  | cons b cs ih =>
    have hnext := ih (k := k + 1) (fun d hd => hc d (List.mem_cons_of_mem b hd))
      (fun j hj => by rw [Nat.add_right_comm]; exact hm (j + 1) (Nat.succ_lt_succ hj))
      (by rw [Nat.add_right_comm]; exact he)
    rw [BitVec.ofNat_add k 1, ← BitVec.add_assoc, Nat.add_right_comm] at hnext
    simpa [Nat.add_assoc] using StringFrom.char _ b (hm 0 (by simp)) (hc b (by simp)) hnext

/-- What is said of the places of a list is said of the numbers below its length. -/
theorem zipIdx_flatMap_snd {α β : Type} (l : List α) (f : Nat → β) :
    (l.zipIdx.flatMap fun p => [f p.2]) = (List.range l.length).map f := by
  rw [List.range_eq_range', ← List.zipIdx_map_snd 0 l, List.map_map]
  exact List.map_eq_flatMap.symm

theorem hostEventsOf_reads {s : State} {i : Instr} {ops : List TransportOp} {reads : List StrAddr}
    (h : Issues s i ops reads) (c : Configuration) : (hostEventsOf c i ops).filterMap HostEvent.readAddr = reads := by
  have pushes (ops : List TransportOp) : (ops.flatMap (pushEvents c)).filterMap HostEvent.readAddr = [] := by
    simp [List.filterMap_flatMap, pushEvents_reads]
  cases h with
  | init | clear | home | position => exact pushes _
  | writeString ptr cs hb hc hm he =>
    have places := zipIdx_flatMap_snd (cs.map fun b => TransportOp.byte 1 b 40) fun k => ptr + BitVec.ofNat 32 k
    simpa [hostEventsOf, List.filterMap_append, List.filterMap_flatMap, pushEvents_reads, List.range_succ] using places

/-- A request that sends one byte and is then complete (R68 to R70). -/
theorem sendByte_stage {b : State} {w : BitVec 9} {op : TransportOp} (hsend : SendsOp (.send8 w) b.step op)
    (h0 : b.reqOp ≠ 0) (h4 : b.reqOp ≠ 4) : Stage (sendByte w b) [] [op] ([op].flatMap (pushEvents b.cfg)) :=
  .send (s := sendByte w b) (.inl ⟨w, rfl⟩) hsend (.single h0 h4)

/-- The acceptance of a request that raises no fault (R65 to R72). -/
theorem Issues.begins {s : State} {i : Instr} {ops : List TransportOp} {reads : List StrAddr}
    (h : Issues s i ops reads) :
    ∃ b, exec i s = .next b ∧ Began s i b ∧ Stage b [] ops (hostEventsOf s.cfg i ops) := by
  cases h with
  | init =>
    refine ⟨_, rfl, init_began s, ?_⟩
    have hcfg : (gotoStep 1 (bindTransport (accept 0 s))).cfg = s.cfg := by simp
    rw [← hcfg]
    exact .send (s := gotoStep 1 (bindTransport (accept 0 s))) (.inr ⟨_, rfl⟩) (sendsOp_handshake 0 (by decide))
      (.init (by simp) 0 (by decide) rfl)
  | clear hb =>
    refine ⟨sendByte 0x01#9 (accept 1 s), congrArg _ (ifBound_of_bound (s := accept 1 s) hb), ?_, ?_⟩
    · exact RequestFrame.began ⟨_, _, _, _, _, _, _, rfl⟩ hb rfl (by simp)
    · exact sendByte_stage (b := accept 1 s) (sendsOp_clear _) (by simp) (by simp)
  | home hb =>
    refine ⟨sendByte 0x02#9 (accept 2 s), congrArg _ (ifBound_of_bound (s := accept 2 s) hb), ?_, ?_⟩
    · exact RequestFrame.began ⟨_, _, _, _, _, _, _, rfl⟩ hb rfl (by simp)
    · exact sendByte_stage (b := accept 2 s) (sendsOp_home _) (by simp) (by simp)
  | position row col hb hr =>
    refine ⟨_, (exec_position row col s).trans (execPosition_legal col hb hr), ?_, ?_⟩
    · exact RequestFrame.began ⟨_, _, _, _, _, _, _, rfl⟩ hb rfl (by simp)
    · exact sendByte_stage (b := { accept 3 s with reqRow := row, reqCol := col }) (sendsOp_setDdram _ _) (by simp) (by simp)
  | writeString ptr cs hb hc hm he =>
    refine ⟨{ accept 4 s with strPtr := ptr, phase := .fetchChar },
      congrArg _ (ifBound_of_bound (s := { accept 4 s with strPtr := ptr }) hb), ?_, ?_⟩
    · exact RequestFrame.began ⟨_, _, _, _, _, _, _, rfl⟩ hb rfl (by rintro _ ⟨⟩; exact ⟨rfl, rfl⟩)
    · have hstring := stringFrom_characters s.cfg (k := 0) hc (by simpa using hm) (by simpa using he)
      exact .read (s := { accept 4 s with strPtr := ptr, phase := .fetchChar }) rfl rfl (by simpa [hostEventsOf] using hstring)

/-! ### The run to the end -/

/-- The pins and their trace stand still and words were queued and logged at most. -/
def Queued (s t : State) : Prop :=
  t.pins = s.pins ∧ t.ptrace = s.ptrace ∧ ∃ words, t.queue = s.queue ++ words ∧ t.qlog = s.qlog ++ words

theorem Queued.refl (s : State) : Queued s s := ⟨rfl, rfl, [], by simp, by simp⟩

/-- What the FSM does in SEQ once bound (O58). -/
theorem Queued.fsm_move {s t u : State} (h : Queued s t) (hstep : FsmStep t u) (hseq : t.cfg.backend = .seq)
    (hbound : t.bound = true) : Queued s u := by
  obtain ⟨hpins, hptrace, words, hqueue, hqlog⟩ := h
  obtain ⟨hpins', -, hptrace', -, -, -, -, hwords⟩ := hstep.drives_no_pin hseq hbound
  refine ⟨hpins'.trans hpins, hptrace'.trans hptrace, ?_⟩
  rcases hwords with ⟨hqueue', hqlog'⟩ | ⟨w, hqueue', hqlog'⟩
  · exact ⟨words, hqueue'.trans hqueue, hqlog'.trans hqlog⟩
  · exact ⟨words ++ [w], by rw [hqueue', hqueue, List.append_assoc], by rw [hqlog', hqlog, List.append_assoc]⟩

theorem FsmStep.sched {s t : State} (h : FsmStep s t) : t.sched = s.sched := by
  cases h with
  | request w ws t hf hp hb hr ha =>
    rcases ha.init_or_frame with rfl | ⟨_, _, _, _, _, _, _, rfl⟩ <;> simp
  | wait | read | issueByte | issueNibble | directNibble | directByte | pushNibble | pushByte => simp

/-- A request in progress meets no full queue if there was room for all its words. -/
theorem Underway.not_blocked {b t : State} {ops : List TransportOp} {hosts : List HostEvent} {n : Nat}
    (h : Underway b ops hosts t n) (hroom : b.cfg.backend = .seq → b.queue.length + ops.length ≤ b.cfg.qdepth)
    (hq : b.cfg.backend = .seq → Queued b t) : blocked t = false := by
  obtain ⟨issued, finished, asked, latched, todo, rest, hlog, hstage, rfl, rfl, rfl, rfl⟩ := h
  rw [Bool.eq_false_iff]
  intro hblocked
  obtain ⟨hseq, hfull, hop⟩ := blocked_iff.1 hblocked
  rw [hlog.cfg] at hseq hfull
  obtain ⟨-, -, words, hqueue, hqlog⟩ := hq hseq
  obtain rfl := List.append_cancel_left (hqlog.symm.trans (hlog.seq hseq))
  cases hstage with
  | complete hp | read hp => simp [hp] at hop
  | send hp => rcases hp with ⟨w, hp⟩ | ⟨w, hp⟩ <;> simp [hp] at hop
  | latched =>
    have hroom := hroom hseq
    simp [hqueue] at hfull hroom
    omega

/-- The rest of a request, by moves of the FSM alone. -/
theorem Underway.run {b t : State} {ops : List TransportOp} {hosts : List HostEvent} {n : Nat} {rest : List Move}
    (h : Underway b ops hosts t n) (hroom : b.cfg.backend = .seq → b.queue.length + ops.length ≤ b.cfg.qdepth)
    (hq : b.cfg.backend = .seq → Queued b t) (hf : b.fault = .none) (hbound : b.bound = true)
    (hsched : t.sched = List.replicate n .fsm ++ rest) :
    ∃ u, Host.Core.run Sys2Proof.core n t = .next u ∧ u.sched = rest ∧ Underway b ops hosts u 0 ∧
      (b.cfg.backend = .seq → Queued b u) := by
  induction n generalizing t with
  | zero => exact ⟨t, rfl, hsched, h, hq⟩
  | succ n ih =>
    have hnext := h.withSched (List.replicate n .fsm ++ rest)
    have hqnext : b.cfg.backend = .seq → Queued b { t with sched := List.replicate n .fsm ++ rest } := hq
    obtain ⟨u, hu, hunder⟩ := hnext.fsm_move hf (hnext.not_blocked hroom hqnext)
    have hfsm := fsm_step_cases hu
    rw [run_succ ((step_fsm hsched).trans hu)]
    refine ih hunder (fun hseq => ?_) hfsm.sched
    obtain ⟨issued, finished, asked, latched, todo, later, hlog, -⟩ := hnext
    exact (hqnext hseq).fsm_move hfsm (by rw [hlog.cfg, hseq]) (by rw [hlog.bound, hbound])

end Sys2Proof.Machine
end

section
/-!
PROOFS. The requests of O43 to O46: accepted, run to their ends by moves of the FSM alone.
-/
namespace Sys2Proof.Machine

theorem Issues.congr {s t : State} {i : Instr} {ops : List TransportOp} {reads : List StrAddr}
    (h : Issues s i ops reads) (hbound : t.bound = s.bound) (hmem : t.strMem = s.strMem) : Issues t i ops reads := by
  cases h with
  | init => exact .init
  | clear h => exact .clear (hbound.trans h)
  | home h => exact .home (hbound.trans h)
  | position row col h hr => exact .position row col (hbound.trans h) hr
  | writeString ptr cs h hc hm he => exact .writeString ptr cs (hbound.trans h) hc (by rwa [hmem]) (by rwa [hmem])

/-- The move of the FSM that accepts a request raising no fault (R65). -/
theorem accepting_move {s : State} {w : ReqWord} {ws : List ReqWord} {ops : List TransportOp} {reads : List StrAddr}
    (hf : s.fault = .none) (hbusy : s.busy = false) (hp : s.phase = .idle) (hr : s.requests = w :: ws)
    (hi : Issues s (decodeRequest w) ops reads) :
    ∃ b, act (fsmAction s) s = .next b ∧ Began { s with requests := ws } (decodeRequest w) b ∧
      Stage b [] ops (hostEventsOf s.cfg (decodeRequest w) ops) := by
  obtain ⟨b, hb, hbegan, hstage⟩ := (hi.congr (t := { s with requests := ws }) rfl rfl).begins
  refine ⟨b, ?_, hbegan, hstage⟩
  rw [fsmAction_request hf hp hbusy hr, act_run (w := .req w) rfl, hb]

/-- At `t` the request `i` taken off the port of `s`, `ws` behind it, is complete: it has issued `ops`, each once. -/
structure Served (s : State) (i : Instr) (ws : List ReqWord) (ops : List TransportOp) (t : State) : Prop where
  phase    : t.phase = .idle
  busy     : t.busy = false
  step     : t.step = 0
  fault    : t.fault = .none
  bound    : t.bound = true
  requests : t.requests = ws
  strMem   : t.strMem = s.strMem
  tlog     : t.tlog = s.tlog ++ ops
  direct   : s.cfg.backend = .direct →
    t.ptrace = s.ptrace ++ (if s.bound then [] else [.configureOutputs (maskAll s.cfg.pins)]) ++
      ops.flatMap (directEvents s.cfg.pins) ∧ t.qlog = s.qlog
  seq      : s.cfg.backend = .seq →
    t.ptrace = s.ptrace ++ (if s.bound then [] else [.configureOutputs (maskAll s.cfg.pins)]) ∧
    t.qlog = s.qlog ++ ops.map opWord
  queue    : s.cfg.backend = .seq → t.queue = s.queue ++ ops.map opWord
  pins     : s.cfg.backend = .seq → s.bound = true → t.pins = s.pins
  hosts    : s.bound = true → t.hostLog = s.hostLog ++ hostEventsOf s.cfg i ops
  string   : ∀ ptr, i = .writeString ptr → t.strPtr = ptr + BitVec.ofNat 32 ops.length

theorem Underway.served {s b t : State} {i : Instr} {ws : List ReqWord} {ops : List TransportOp} {l : List Move}
    (hbegan : Began { s with requests := ws, sched := l } i b) (hf : s.fault = .none)
    (h : Underway b ops (hostEventsOf s.cfg i ops) t 0) (hq : b.cfg.backend = .seq → Queued b t) :
    Served s i ws ops t := by
  obtain ⟨hlog, hphase, hbusy, hstep⟩ := h.complete
  have hseq (hs : s.cfg.backend = .seq) : t.pins = b.pins ∧ t.ptrace = b.ptrace ∧ t.qlog = s.qlog ++ ops.map opWord ∧
      t.queue = s.queue ++ ops.map opWord := by
    have hsb : b.cfg.backend = .seq := by rw [hbegan.cfg, hs]
    obtain ⟨hpins, hptrace, words, hqueue, hqlog⟩ := hq hsb
    obtain rfl := List.append_cancel_left (hqlog.symm.trans (hlog.seq hsb))
    exact ⟨hpins, hptrace, by rw [hqlog, hbegan.qlog], by rw [hqueue, hbegan.queue]⟩
  refine ⟨hphase, hbusy, hstep, hlog.fault.trans (hbegan.fault.trans hf), hlog.bound.trans hbegan.bound,
    hlog.requests.trans hbegan.requests, hlog.strMem.trans hbegan.strMem, by rw [hlog.tlog, hbegan.tlog],
    fun hd => ?_, fun hs => ?_, fun hs => ?_, fun hs hb => ?_, fun hb => ?_, fun ptr hi => ?_⟩
  · obtain ⟨hptrace, hqlog⟩ := hlog.direct (by rw [hbegan.cfg, hd])
    exact ⟨by rw [hptrace, hbegan.ptrace, hbegan.cfg], hqlog.trans hbegan.qlog⟩
  · obtain ⟨-, hptrace, hqlog, -⟩ := hseq hs
    exact ⟨hptrace.trans hbegan.ptrace, hqlog⟩
  · obtain ⟨-, -, -, hqueue⟩ := hseq hs
    exact hqueue
  · obtain ⟨hpins, -⟩ := hseq hs
    exact hpins.trans (hbegan.pins hb)
  · rw [hlog.hostLog, hbegan.hosts hb]
  · obtain ⟨hop, hptr⟩ := hbegan.string ptr hi
    rw [hlog.string hop, hptr]

/-- A request that raises no fault, run to its end by moves of the FSM alone, in SEQ with room for all its words. -/
theorem request_runs {s : State} {w : ReqWord} {ws : List ReqWord} {rest : List Move} {ops : List TransportOp}
    {reads : List StrAddr} {n : Nat} (hf : s.fault = .none) (hbusy : s.busy = false) (hp : s.phase = .idle)
    (hr : s.requests = w :: ws) (hi : Issues s (decodeRequest w) ops reads) (hn : n = 2 * ops.length + reads.length)
    (hsched : s.sched = List.replicate (n + 1) .fsm ++ rest)
    (hroom : s.cfg.backend = .seq → s.queue.length + ops.length ≤ s.cfg.qdepth) :
    ∃ t, Host.Core.run Sys2Proof.core (n + 1) s = .next t ∧ t.sched = rest ∧ Served s (decodeRequest w) ws ops t := by
  obtain ⟨b, hb, hbegan, hstage⟩ := accepting_move (s := { s with sched := List.replicate n .fsm ++ rest }) hf hbusy hp hr
    (hi.congr rfl rfl)
  have hmoves : stageMoves [] ops (hostEventsOf s.cfg (decodeRequest w) ops) = n := by
    rw [stageMoves, hostEventsOf_reads hi, hn]
    simp
  have hunder := hstage.underway
  rw [hmoves] at hunder
  obtain ⟨t, ht, hsched', hunder', hq⟩ := hunder.run (by rwa [hbegan.cfg, hbegan.queue]) (fun _ => .refl b)
    (hbegan.fault.trans hf) hbegan.bound hbegan.sched
  exact ⟨t, by rw [run_succ ((step_fsm hsched).trans hb), ht], hsched', Underway.served hbegan hf hunder' hq⟩

/-! ### The obligations -/

/-- The request O43 and O44 speak of issues one byte. -/
theorem issues_one_byte {s : State} {i : Instr} {b : Byte} {d : Delay} (hb : s.bound = true)
    (h : i = .clear ∧ b = 0x01 ∧ d = 2000 ∨ i = .home ∧ b = 0x02 ∧ d = 1600 ∨
      ∃ row col, i = .position row col ∧ row.toNat < 4 ∧ b = 0x80 ||| (ddramAddress row col).setWidth 8 ∧ d = 40) :
    Issues s i [.byte 0 b d] [] := by
  rcases h with ⟨rfl, rfl, rfl⟩ | ⟨rfl, rfl, rfl⟩ | ⟨row, col, rfl, hr, rfl, rfl⟩
  · exact .clear hb
  · exact .home hb
  · exact .position row col hb hr

/-- Settles O43: one operation to issue and no read, so two moves after the acceptance. -/
theorem oneByteRequestsCompleteInDirect : Obligations.OneByteRequestsCompleteInDirect := by
  intro s w ws rest b d hd hb hf hbusy hp hr hsched hreq
  obtain ⟨t, ht, hsched', hs⟩ := request_runs (n := 2) hf hbusy hp hr (issues_one_byte hb hreq) rfl hsched
    (by simp [hd])
  obtain ⟨hptrace, hqlog⟩ := hs.direct hd
  exact ⟨t, ht, hs.busy, hs.phase, hs.fault, hs.bound, hs.requests, hsched', hs.tlog,
    by simpa [hb, directEvents] using hptrace, hqlog, hs.strMem⟩

/-- Settles O44: the words are the helpers' for the three bytes and their delays. -/
theorem oneByteRequestsCompleteInSeq : Obligations.OneByteRequestsCompleteInSeq := by
  intro s w ws rest word hseq hroom hb hf hbusy hp hr hsched hreq
  have hbyte : ∃ b d, Issues s (decodeRequest w) [.byte 0 b d] [] ∧ byteWord 0 b d = word := by
    rcases hreq with ⟨hi, rfl⟩ | ⟨hi, rfl⟩ | ⟨row, col, hi, hrow, rfl⟩
    · exact ⟨0x01, 2000, hi ▸ .clear hb, by decide⟩
    · exact ⟨0x02, 1600, hi ▸ .home hb, by decide⟩
    · exact ⟨_, 40, hi ▸ .position row col hb hrow, rfl⟩
  obtain ⟨b, d, hi, rfl⟩ := hbyte
  obtain ⟨t, ht, hsched', hs⟩ := request_runs (n := 2) hf hbusy hp hr hi rfl hsched (fun _ => hroom)
  obtain ⟨hptrace, hqlog⟩ := hs.seq hseq
  exact ⟨t, ht, hs.busy, hs.phase, hs.fault, hs.requests, hsched', hs.queue hseq, hqlog,
    by simpa [hb] using hptrace, hs.pins hseq hb⟩

/-- The words of INIT (R97, R98). -/
theorem initOps_words : initOps.map opWord = [0x00083407, 0x00003207, 0x00001407, 0x00001405, 0x00050445, 0x00050641,
    0x00050341, 0x00FA00C1] := by
  decide

/-- Settles O45: eight operations, two moves each after the acceptance. -/
theorem initSendsTheEightSteps : Obligations.InitSendsTheEightSteps := by
  intro s w ws rest hf hbusy hp hr hw hsched hroom ops bind
  have hi : Issues s (decodeRequest w) initOps [] := by rw [hw]; exact .init
  obtain ⟨t, ht, hsched', hs⟩ := request_runs (n := 16) hf hbusy hp hr hi rfl hsched hroom
  refine ⟨t, ht, hs.busy, hs.step, hs.phase, hs.bound, hs.fault, hs.requests, hsched', hs.tlog, hs.direct, fun hseq => ?_⟩
  rw [← initOps_words]
  exact hs.seq hseq

/-- Settles O46: two moves for a character, one for a read. -/
theorem writeStringSendsEveryCharacter : Obligations.WriteStringSendsEveryCharacter := by
  intro s w ws rest ptr cs hb hf hbusy hp hr hw hsched hroom hc hm he
  have hi := Issues.writeString ptr cs hb hc hm he
  rw [← hw] at hi
  obtain ⟨t, ht, hsched', hs⟩ := request_runs (n := 3 * cs.length + 1) hf hbusy hp hr hi (by simp; omega) hsched
    (by simpa using hroom)
  have hhosts := hs.hosts hb
  refine ⟨t, ht, hs.busy, hs.phase, hs.fault, hs.requests, hsched', by simpa using hs.string ptr hw, hs.tlog, hs.strMem,
    fun hd => ?_, fun hseq => ?_⟩
  · obtain ⟨hptrace, -⟩ := hs.direct hd
    refine ⟨by simpa [hb, directEvents, List.flatMap_map] using hptrace, ?_⟩
    rw [hhosts, List.range_succ, List.map_append, ← zipIdx_flatMap_snd cs]
    simp [hostEventsOf, hw, List.zipIdx_map, List.flatMap_map, pushEvents, hd]
  · obtain ⟨hptrace, hqlog⟩ := hs.seq hseq
    refine ⟨by simpa [hb] using hptrace, by simpa [Function.comp_def, opWord] using hqlog, ?_⟩
    rw [hhosts]
    simp [hostEventsOf, hw, List.zipIdx_map, List.flatMap_map, pushEvents, hseq, opWord]

end Sys2Proof.Machine
end

section
/-!
PROOFS. A request under every schedule of FSM and XU moves and every QDEPTH (O47): it stands at the port, then is underway,
then gives way to a later one.
-/
namespace Sys2Proof.Machine

/-! ### Moves of XU between those of the FSM -/

/-- A move of XU has its frame, and in DIRECT, where XU never runs, is a wait (R3, R104). -/
theorem Inv.unit_move {s t : State} {m : Move} (hs : Inv s) (hm : m.isXu = true) (h : makeMove m s = .next t) :
    UnitFrame s t ∧ (s.cfg.backend = .direct → t = s) := by
  have stopped (hd : s.cfg.backend = .direct) : s.xuRun = false := by
    have hrun := hs.run_bound
    simpa [hd] using hrun
  cases m with
  | fsm | reset | hostWrite | present => exact Bool.noConfusion hm
  | xu =>
    rw [makeMove] at h
    refine ⟨(unit_step_cases h).frame, fun hd => ?_⟩
    rw [xuAction_stopped (stopped hd)] at h
    cases h
    rfl
  | xuWord =>
    rw [makeMove] at h
    refine ⟨(unit_word_cases h).frame, fun hd => ?_⟩
    rw [xuWordAction_stopped (stopped hd)] at h
    cases h
    rfl

theorem Logged.unitFrame {s t u : State} {issued finished : List TransportOp} {hosts : List HostEvent}
    (h : Logged s t issued finished hosts) (hu : UnitFrame t u) (hd : t.cfg.backend = .direct → u = t) :
    Logged s u issued finished hosts := by
  cases hb : t.cfg.backend with
  | direct => rwa [hd hb]
  | seq =>
    have hseq : s.cfg.backend = .seq := by rw [← h.cfg, hb]
    obtain ⟨_, _, _, _, _, _, rfl⟩ := hu
    exact ⟨h.cfg, h.fault, h.bound, h.requests, h.strMem, h.reqOp, h.tlog, h.hostLog, h.seq, by simp [hseq], h.string⟩

theorem Underway.unit_move {b t u : State} {ops : List TransportOp} {hosts : List HostEvent} {n : Nat}
    (h : Underway b ops hosts t n) (hu : UnitFrame t u) (hd : t.cfg.backend = .direct → u = t) :
    Underway b ops hosts u n := by
  obtain ⟨issued, finished, asked, latched, todo, rest, hlog, hstage, hrest⟩ := h
  exact ⟨issued, finished, asked, latched, todo, rest, hlog.unitFrame hu hd, hstage.unitFrame hu, hrest⟩

/-! ### What a move of the FSM does to the port -/

theorem FsmStep.requests {s t : State} (h : FsmStep s t) :
    t.requests = s.requests ∨ ∃ w, s.requests = w :: t.requests := by
  cases h with
  | request w ws t hf hp hb hr ha =>
    refine .inr ⟨w, ?_⟩
    rcases ha.init_or_frame with rfl | ⟨_, _, _, _, _, _, _, rfl⟩ <;> simp [hr]
  | wait | read | issueByte | issueNibble | directNibble | directByte | pushNibble | pushByte => exact .inl (by simp)

/-- Between requests the FSM waits or takes a request off the port (R65). -/
theorem FsmStep.of_idle {s t : State} (h : FsmStep s t) (hidle : s.phase = .idle) :
    t = s ∨ ∃ w, s.requests = w :: t.requests := by
  cases h with
  | wait => exact .inl rfl
  | request w ws t hf hp hb hr ha =>
    refine .inr ⟨w, ?_⟩
    rcases ha.init_or_frame with rfl | ⟨_, _, _, _, _, _, _, rfl⟩ <;> simp [hr]
  | read hf hp | issueByte w rs b d hf hp | issueNibble w rs v d hf hp | directNibble hf hp | directByte hf hp
  | pushNibble hf hp | pushByte hf hp => simp [hp] at hidle

/-! ### The course of a request -/

/-- Since `s` XU alone has moved; in DIRECT it moved no pin. -/
structure StillAtPort (s t : State) : Prop where
  cfg      : t.cfg = s.cfg
  busy     : t.busy = s.busy
  phase    : t.phase = s.phase
  bound    : t.bound = s.bound
  fault    : t.fault = s.fault
  requests : t.requests = s.requests
  strMem   : t.strMem = s.strMem
  tlog     : t.tlog = s.tlog
  qlog     : t.qlog = s.qlog
  hostLog  : t.hostLog = s.hostLog
  ptrace   : s.cfg.backend = .direct → t.ptrace = s.ptrace

theorem StillAtPort.refl (s : State) : StillAtPort s s := by
  constructor <;> simp

theorem StillAtPort.unit_move {s t u : State} (h : StillAtPort s t) (hu : UnitFrame t u)
    (hd : t.cfg.backend = .direct → u = t) : StillAtPort s u := by
  cases hb : t.cfg.backend with
  | direct => rwa [hd hb]
  | seq =>
    have hseq : s.cfg.backend = .seq := by rw [← h.cfg, hb]
    obtain ⟨_, _, _, _, _, _, rfl⟩ := hu
    exact { h with ptrace := by simp [hseq] }

/-- The request at the port of a ready block, which raises no fault. -/
structure Asked (s : State) (w : ReqWord) (ws : List ReqWord) (ops : List TransportOp) (reads : List StrAddr) : Prop where
  fault    : s.fault = .none
  busy     : s.busy = false
  phase    : s.phase = .idle
  requests : s.requests = w :: ws
  issues   : Issues s (decodeRequest w) ops reads

theorem StillAtPort.asked {s t : State} {w : ReqWord} {ws : List ReqWord} {ops : List TransportOp}
    {reads : List StrAddr} (h : StillAtPort s t) (hs : Asked s w ws ops reads) : Asked t w ws ops reads where
  fault := h.fault.trans hs.fault
  busy := h.busy.trans hs.busy
  phase := h.phase.trans hs.phase
  requests := h.requests.trans hs.requests
  issues := hs.issues.congr h.bound h.strMem

/-- Where the request `i` is that stood at the port of `s` with `ws` behind it. -/
inductive Course (s : State) (i : Instr) (ws : List ReqWord) (ops : List TransportOp) (t : State) : Prop
  | atPort (h : StillAtPort s t)
  | underway (port begun : State) (n : Nat) (hport : StillAtPort s port) (hb : Began { port with requests := ws } i begun)
      (h : Underway begun ops (hostEventsOf port.cfg i ops) t n)
  | later (h : t.requests.length < ws.length)

theorem Course.withSched {s t : State} {i : Instr} {ws : List ReqWord} {ops : List TransportOp}
    (h : Course s i ws ops t) (l : List Move) : Course s i ws ops { t with sched := l } := by
  cases h with
  | atPort h => exact .atPort { h with }
  | underway port begun n hport hb h => exact .underway port begun n hport hb (h.withSched l)
  | later h => exact .later h

theorem Course.unit_move {s t u : State} {i : Instr} {ws : List ReqWord} {ops : List TransportOp}
    (h : Course s i ws ops t) (hu : UnitFrame t u) (hd : t.cfg.backend = .direct → u = t) : Course s i ws ops u := by
  cases h with
  | atPort h => exact .atPort (h.unit_move hu hd)
  | underway port begun n hport hb h => exact .underway port begun n hport hb (h.unit_move hu hd)
  | later h =>
    obtain ⟨_, _, _, _, _, _, rfl⟩ := hu
    exact .later h

theorem Course.fsm_move {s t u : State} {w : ReqWord} {ws : List ReqWord} {ops : List TransportOp}
    {reads : List StrAddr} (hs : Asked s w ws ops reads) (h : Course s (decodeRequest w) ws ops t)
    (hu : act (fsmAction t) t = .next u) : Course s (decodeRequest w) ws ops u := by
  cases h with
  | atPort h =>
    have ht := h.asked hs
    obtain ⟨b, hb, hbegan, hstage⟩ := accepting_move ht.fault ht.busy ht.phase ht.requests ht.issues
    cases hb.symm.trans hu
    exact .underway t u _ h hbegan hstage.underway
  | underway port begun n hport hb h =>
    have hstep := fsm_step_cases hu
    cases n with
    | zero =>
      obtain ⟨hlog, hidle, -⟩ := h.complete
      rcases hstep.of_idle hidle with rfl | ⟨w', hreq⟩
      · exact .underway port begun 0 hport hb h
      · refine .later ?_
        have hws : t.requests = ws := hlog.requests.trans hb.requests
        rw [← hws, hreq]
        exact Nat.lt_succ_self _
    | succ n =>
      cases hblocked : blocked t with
      | true =>
        obtain rfl := hstep.of_blocked hblocked
        exact .underway port begun (n + 1) hport hb h
      | false =>
        obtain ⟨v, hv, hunder⟩ := h.fsm_move (hb.fault.trans (hport.asked hs).fault) hblocked
        cases hv.symm.trans hu
        exact .underway port begun n hport hb hunder
  | later h =>
    refine .later (lt_of_le_of_lt ?_ h)
    rcases (fsm_step_cases hu).requests with hreq | ⟨w', hreq⟩ <;> simp [hreq]

/-- Any list of moves of FSM and XU runs to its end, the request on its course. -/
theorem Course.run {s t : State} {w : ReqWord} {ws : List ReqWord} {ops : List TransportOp} {reads : List StrAddr}
    {moves rest : List Move} (hs : Asked s w ws ops reads) (hmoves : ∀ m ∈ moves, m ∈ [.fsm, .xu, .xuWord])
    (h : Course s (decodeRequest w) ws ops t) (ht : Inv t) (hsched : t.sched = moves ++ rest) :
    ∃ u, Host.Core.run Sys2Proof.core moves.length t = .next u ∧ u.sched = rest ∧ Inv u ∧
      Course s (decodeRequest w) ws ops u := by
  induction moves generalizing t with
  | nil => exact ⟨t, rfl, hsched, ht, h⟩
  | cons m moves ih =>
    obtain ⟨hm, hmoves⟩ := List.forall_mem_cons.1 hmoves
    have ht' := ht.withSched (moves ++ rest)
    have h' := h.withSched (moves ++ rest)
    obtain ⟨u, hu⟩ := ht'.makeMove_answers m
    have hstep : step t = .next u := by simpa only [step, hsched, List.cons_append] using hu
    have hnext : Course s (decodeRequest w) ws ops u ∧ u.sched = moves ++ rest := by
      by_cases hfsm : m = .fsm
      · subst hfsm
        exact ⟨h'.fsm_move hs hu, (fsm_step_cases hu).sched⟩
      · have hxu : m.isXu = true := by
          simp only [List.mem_cons, List.not_mem_nil, or_false] at hm
          rcases hm with rfl | rfl | rfl
          · exact absurd rfl hfsm
          · rfl
          · rfl
        obtain ⟨hframe, hd⟩ := ht'.unit_move hxu hu
        refine ⟨h'.unit_move hframe hd, ?_⟩
        obtain ⟨_, _, _, _, _, _, rfl⟩ := hframe
        rfl
    rw [List.length_cons, run_succ hstep]
    exact ih hmoves hnext.1 (everyStepKeepsTheInvariant t u ht hstep) hnext.2

/-! ### What is logged on the way -/

section
variable {s port begun t : State} {w : ReqWord} {ws : List ReqWord} {ops : List TransportOp} {reads : List StrAddr}
  {n : Nat}

/-- On its way a request has issued the first of its operations, in order (R76). -/
theorem Underway.tlog (hport : StillAtPort s port) {i : Instr} (hb : Began { port with requests := ws } i begun)
    {hosts : List HostEvent} (h : Underway begun ops hosts t n) :
    ∃ k, k ≤ ops.length ∧ t.tlog = s.tlog ++ ops.take k := by
  obtain ⟨issued, finished, asked, latched, todo, rest, hlog, -, rfl, -⟩ := h
  exact ⟨issued.length, by simp, by rw [hlog.tlog, hb.tlog, hport.tlog, List.take_left]⟩

/-- At its end it has issued them all, made its reads, queued its words or performed its events. -/
theorem Underway.logs (hs : Asked s w ws ops reads) (hport : StillAtPort s port)
    (hb : Began { port with requests := ws } (decodeRequest w) begun)
    (h : Underway begun ops (hostEventsOf port.cfg (decodeRequest w) ops) t 0) :
    t.tlog = s.tlog ++ ops ∧
    t.hostLog.filterMap HostEvent.readAddr = s.hostLog.filterMap HostEvent.readAddr ++ reads ∧
    (s.cfg.backend = .seq → t.qlog = s.qlog ++ ops.map opWord) ∧
    (s.cfg.backend = .direct → t.ptrace = s.ptrace ++
      (if s.bound then [] else [.configureOutputs (maskAll s.cfg.pins)]) ++ ops.flatMap (directEvents s.cfg.pins)) := by
  obtain ⟨hlog, -⟩ := h.complete
  have hcfg : begun.cfg = s.cfg := hb.cfg.trans hport.cfg
  refine ⟨by rw [hlog.tlog, hb.tlog, hport.tlog], ?_, fun hseq => ?_, fun hd => ?_⟩
  · rw [hlog.hostLog, List.filterMap_append, hostEventsOf_reads hs.issues, hb.reads, hport.hostLog]
  · rw [hlog.seq (by rw [hcfg, hseq]), hb.qlog, hport.qlog]
  · obtain ⟨hptrace, -⟩ := hlog.direct (by rw [hcfg, hd])
    rw [hptrace, hb.ptrace, hport.ptrace hd, hport.bound, hport.cfg, hcfg]

end

/-- Settles O47: what is logged at each place of the course. -/
theorem requestsLogTheSameUnderEverySchedule : Obligations.RequestsLogTheSameUnderEverySchedule := by
  intro s w ws ops reads moves rest hinv hready hr hi hmoves hsched
  obtain ⟨hbusy, hf⟩ : s.busy = false ∧ s.fault = .none := by simpa [ready] using hready
  have hp : s.phase = .idle := by
    by_contra hp
    obtain ⟨-, hb, -⟩ := hinv.inProgress hp
    exact Bool.false_ne_true (hbusy.symm.trans hb)
  have hs : Asked s w ws ops reads := ⟨hf, hbusy, hp, hr, hi⟩
  obtain ⟨u, hu, hsched', hinv', hcourse⟩ := Course.run hs hmoves (.atPort (.refl s)) hinv hsched
  refine ⟨u, hu, hsched', ?_⟩
  cases hcourse with
  | atPort h =>
    have hreq := h.requests.trans hr
    refine ⟨fun _ => ⟨?_, h.tlog, h.qlog, h.hostLog⟩, fun hws => absurd (hreq.symm.trans hws) (List.cons_ne_self w ws)⟩
    simpa only [ready, h.busy, h.fault] using hready
  | later h =>
    refine ⟨fun hreq => ?_, fun hws => absurd h (by rw [hws]; exact lt_irrefl _)⟩
    rw [hreq, hr, List.length_cons] at h
    omega
  | underway port begun n hport hb h =>
    obtain ⟨hreq, hf', hb'⟩ : u.requests = ws ∧ u.fault = .none ∧ u.bound = true := by
      obtain ⟨_, _, _, _, _, _, hlog, -⟩ := h
      exact ⟨hlog.requests.trans hb.requests, hlog.fault.trans (hb.fault.trans (hport.fault.trans hf)),
        hlog.bound.trans hb.bound⟩
    refine ⟨fun hsame => absurd (hr.symm.trans (hsame.symm.trans hreq)) (List.cons_ne_self w ws),
      fun _ => ⟨hf', hb', h.tlog hport hb, fun hidle => ?_⟩⟩
    rcases h.idle with rfl | hp'
    · exact h.logs hs hport hb
    · obtain ⟨-, hbusy', -⟩ := hinv'.inProgress hp'
      exact absurd (hidle.symm.trans hbusy') Bool.false_ne_true

end Sys2Proof.Machine
end
